-- ==== Sys2Proof/Word.lean ====
section
/-! DEFINITION. The two bit-vector types of the model: bytes of memory and register-width words. -/

namespace Sys2Proof

/-- One byte of memory, the unit of addressing (rule R80). -/
abbrev Byte := BitVec 8

/-- The 32-bit opcode word of an instruction (rule R130). -/
abbrev OpWord := BitVec 32

/-- A register-width value. XLEN is 32 on LEG32 and 64 on LEG64 (rule R5); both are held in 64 bits, and a LEG32
value has a zero upper half (log entry 1). -/
abbrev Word := BitVec 64

end Sys2Proof
end

