-- ==== Sys2Proof/Config.lean ====
section
/-! DEFINITION. What an implementation fixes (the parameters of rule R5, as plain data) and the values the manual
leaves free (opaque constants: no proof can see what they are). -/

namespace Sys2Proof

/-- The two variants of the architecture (rule R1). -/
inductive Variant
  | leg32
  | leg64
deriving DecidableEq, Repr

/-- Bytes per instruction extension word on LEG64 (EXT_BYTES of rule R137: 4, zero-extended, or 8). -/
inductive ExtWidth
  | four
  | eight
deriving DecidableEq, Repr

/-- RR_FIELD_ORDER (rule R134): which byte of a two-register opcode word is the source. -/
inductive FieldOrder
  /-- Table 4.1: target in bits 23:16, source in bits 15:8 (the default, D2). -/
  | table
  /-- The printed examples: source in bits 23:16, target in bits 15:8. -/
  | examples
deriving DecidableEq, Repr

/-- MISALIGNED (rule R84). -/
inductive MisalignedPolicy
  | refuse
  | bytes
deriving DecidableEq, Repr

/-- STORAGE_ADDR_SPACE (rule R327): what RGP4 of the Storage I/O interrupt is when paging is on. -/
inductive AddressSpace
  | physical
  | logical
deriving DecidableEq, Repr

/-- HW_PRIORITY (rule R318). -/
inductive Priority
  /-- No priority: the choice among pending interrupts is free. -/
  | none
  | lowestIdFirst
deriving DecidableEq, Repr

/-- Whether an implementation-specific interrupt (rule R333) is raised by INTR or by a device. -/
inductive ImplKind
  | software
  | hardware
deriving DecidableEq, Repr

/-- One member of IMPL_INTS (rules R6, R333). -/
structure ImplInt where
  id : Byte
  kind : ImplKind
deriving DecidableEq, Repr

/-- What a CEB that passes its checks does (rule R256): the spec refuses it; the second value is the switch that
rule R256 allows a model to offer (log entry 14). -/
inductive CebPolicy
  | refuse
  /-- "execute the block sequentially from s and continue at e". -/
  | sequential
deriving DecidableEq, Repr

/-- The implementation parameters of rule R5. -/
structure Params where
  variant : Variant
  /-- MEM_SIZE: physical addresses are 0 .. memSize - 1 (rule R80). -/
  memSize : Nat
  /-- EXT_BYTES on LEG64, where it is an open parameter; LEG32 does not read it (rule R137). -/
  extWidth : Option ExtWidth
  fieldOrder : FieldOrder
  misaligned : MisalignedPolicy
  /-- CMP_SIGNED (rule R191). -/
  cmpSigned : Bool
  storageSpace : Option AddressSpace
  priority : Priority
  implInts : List ImplInt
  ceb : CebPolicy
deriving DecidableEq, Repr

/-- The defaults of rule R5 on LEG32, with the MEM_SIZE of the spec's test vectors (log entries 2 and 3). -/
def Params.default : Params where
  variant := .leg32
  memSize := 0x10000
  extWidth := none
  fieldOrder := .table
  misaligned := .refuse
  cmpSigned := false
  storageSpace := none
  priority := .none
  implInts := []
  ceb := .refuse

/-- XLEN, the width of registers and addresses in bits (rule R5). -/
def Params.xlen (p : Params) : Nat :=
  match p.variant with
  | .leg32 => 32
  | .leg64 => 64

/-- WB, bytes per register (rule R5). -/
def Params.wb (p : Params) : Nat :=
  match p.variant with
  | .leg32 => 4
  | .leg64 => 8

/-- RESERVED_END, the first address after the reserved region (rules R5, R88). -/
def Params.reservedEnd (p : Params) : Nat :=
  match p.variant with
  | .leg32 => 0x3F8
  | .leg64 => 0x5F4

/-- RESET_RIP (rules R5, R60). -/
def Params.resetRip (p : Params) : Nat := p.reservedEnd

/-- PAGE_BYTES, the size of a Page Structure (rule R94). -/
def Params.pageBytes (p : Params) : Nat := 6 * p.wb

/-- TASK_BYTES, the size of a Task Structure (rule R50). -/
def Params.taskBytes (p : Params) : Nat := 28 * p.wb + 4

/-- EXT_BYTES (rule R137): 4 on LEG32; on LEG64 the parameter, or nothing where it is not supplied. -/
def Params.extBytes (p : Params) : Option Nat :=
  match p.variant with
  | .leg32 => some 4
  | .leg64 =>
    match p.extWidth with
    | some .four => some 4
    | some .eight => some 8
    | none => none

/-- The parameters fit together: memory reaches past the reserved region and every address fits in XLEN bits
(rule R80), and IMPL_INTS lies in 21 .. 31 (rule R6). -/
def Params.wf (p : Params) : Bool :=
  p.reservedEnd < p.memSize && p.memSize ≤ 2 ^ p.xlen &&
    p.implInts.all fun x => 21 ≤ x.id.toNat && x.id.toNat ≤ 31

/-- The four relations of RCMP bits 1 to 4 (rule R39). -/
inductive Relation
  | notEqual
  | greaterThan
  | lesserThan
  | equal
deriving DecidableEq, Repr

namespace Config

/-! ### The FP configuration (rule R226, D23)

Each constant takes the variant, RARTH as the instruction found it less bits 6 and 7, and the operand values. -/

/-- The value an ARTH on two RFP registers stores in its target `a`, with source `b` (log entry 12). -/
opaque fpResult : (v : Variant) → (rarth : BitVec 64) → (a b : BitVec 64) → BitVec 64

/-- The value it stores in the extended FPU operand, where one is active (log entry 13). -/
opaque fpExtended : (v : Variant) → (rarth : BitVec 64) → (a b : BitVec 64) → BitVec 64

/-- Whether it reports Overflow in RARTH bit 6, with no extended operand active (log entry 13). -/
opaque fpOverflow : (v : Variant) → (rarth : BitVec 64) → (a b : BitVec 64) → Bool

/-- Whether it reports Underflow in RARTH bit 7, with no extended operand active (log entry 13). -/
opaque fpUnderflow : (v : Variant) → (rarth : BitVec 64) → (a b : BitVec 64) → Bool

/-- Whether it raises the Floating Point Unit Fault for a cause other than division by zero (log entry 12). -/
opaque fpFaults : (v : Variant) → (rarth : BitVec 64) → (a b : BitVec 64) → Bool

/-- Whether a value is a zero of the floating-point format, which the source does not name (log entry 12). -/
opaque fpIsZero : (v : Variant) → (b : BitVec 64) → Bool

/-- Whether the relation holds between two RFP values, source first (rule R191; log entry 12). -/
opaque fpRelation : (v : Variant) → Relation → (a b : BitVec 64) → Bool

/-! ### Free choices and free bytes -/

/-- The `n`-th free choice, once the choices listed in the state are used up (U26, U27; log entry 10). -/
opaque choice : (n : Nat) → Nat

/-- What byte `i` of the target range of the `n`-th failed Storage I/O transfer holds afterwards (rule R328, U25;
log entry 17). -/
opaque residue : (n i : Nat) → BitVec 8

end Config

end Sys2Proof
end

