-- ==== Sys2Proof/Syntax.lean ====
section
/-! DEFINITION. The registers and the instructions: one constructor of `Instr` for each row of the opcode table. -/

namespace Sys2Proof

/-- The 28 registers (rules R20, R21), in the order of Table 4.3 and of a Task Structure. -/
inductive Reg
  | rip | rst | rff | rfa | rbt | rct | rpa | rra | rsa | rcmp | rlgic | rarth
  | rgp1 | rgp2 | rgp3 | rgp4 | rgp5 | rgp6 | rgp7 | rgp8
  | ral1 | ral2 | ral3 | ral4
  | rfp1 | rfp2 | rfp3 | rfp4
deriving DecidableEq, Repr

/-- The instructions in their forms (rules R132, R140). `rs` is the source register, `rt` the target register; `n` and
`k` are the first and the second extension word, zero-extended. -/
inductive Instr
  /-- `CPVR rs, N`: register to memory. -/
  | cpvrFrm (rs : Reg) (n : Word)
  /-- `CPVR rs, rt`: register to register. -/
  | cpvrFrr (rs rt : Reg)
  /-- `CPVL N, K`: literal N to memory K. -/
  | cpvlFmm (n k : Word)
  /-- `CPVL N, rt`: literal to register. -/
  | cpvlFmr (n : Word) (rt : Reg)
  /-- `CPR N, K`: memory to memory. -/
  | cprFmm (n k : Word)
  /-- `CPR rs, N`: memory at rs to memory N. -/
  | cprFrm (rs : Reg) (n : Word)
  /-- `CPR N, rt`: memory to register. -/
  | cprFmr (n : Word) (rt : Reg)
  /-- `CPR rs, rt`: memory at rs to register. -/
  | cprFrr (rs rt : Reg)
  /-- `CPRR rs, rt`: register to memory at rt. -/
  | cprr (rs rt : Reg)
  | cmp (rs rt : Reg)
  | jmpFm (n : Word)
  | jmpFr (rs : Reg)
  | callFm (n : Word)
  | callFr (rs : Reg)
  | ret
  | arth (rs rt : Reg)
  | lgic (rs rt : Reg)
  /-- `INTR id`: the Special Literal is the Interrupt ID. -/
  | intr (id : Byte)
  /-- `CEB N, K`: block start N, block end K. -/
  | cebFmm (n k : Word)
  /-- `CEB rs, N`: block start in rs, block end N. -/
  | cebFrm (rs : Reg) (n : Word)
  /-- `CEB N, rt`: block start N, block end in rt. -/
  | cebFmr (n : Word) (rt : Reg)
  /-- `CEB rs, rt`: block start in rs, block end in rt. -/
  | cebFrr (rs rt : Reg)
  | nop
  | ltsk
deriving DecidableEq, Repr

end Sys2Proof
end

