-- ==== Sys2Proof/WellFormed.lean ====
section
/-! DEFINITION. Which terms of `Instr` have an encoding, under given parameters. -/

namespace Sys2Proof

/-- An extension word fits in EXT_BYTES bytes; without an EXT_BYTES there is no extension word (rules R136, R137). -/
def extWordOk (p : Params) (n : Word) : Bool :=
  match p.extBytes with
  | some e => n.toNat < 256 ^ e
  | none => false

/-- A register that stands in a slot where the byte 0x00 means "in an extension word" (rule R139). -/
def slotRegOk (r : Reg) : Bool := r != .rip

/-- The operands the encoding admits (rules R139, R140, R153). In CPVR between registers the source may be RIP only
where the target's byte tells the form apart, so not with RR_FIELD_ORDER = examples (log entry 18). -/
def Instr.wf (p : Params) (i : Instr) : Bool :=
  match i with
  | .cpvrFrm _ n => extWordOk p n
  | .cpvrFrr rs rt =>
    slotRegOk rt &&
      match p.fieldOrder with
      | .table => true
      | .examples => slotRegOk rs
  | .cpvlFmm n k => extWordOk p n && extWordOk p k
  | .cpvlFmr n rt => extWordOk p n && slotRegOk rt
  | .cprFmm n k => extWordOk p n && extWordOk p k
  | .cprFrm rs n => slotRegOk rs && extWordOk p n
  | .cprFmr n rt => extWordOk p n && slotRegOk rt
  | .cprFrr rs rt => slotRegOk rs && slotRegOk rt
  | .cprr _ _ => true
  | .cmp _ _ => true
  | .jmpFm n => extWordOk p n
  | .jmpFr rs => slotRegOk rs
  | .callFm n => extWordOk p n
  | .callFr rs => slotRegOk rs
  | .ret => true
  | .arth _ _ => true
  | .lgic _ _ => true
  | .intr _ => true
  | .cebFmm n k => extWordOk p n && extWordOk p k
  | .cebFrm rs n => slotRegOk rs && extWordOk p n
  | .cebFmr n rt => extWordOk p n && slotRegOk rt
  | .cebFrr rs rt => slotRegOk rs && slotRegOk rt
  | .nop => true
  | .ltsk => true

end Sys2Proof
end

