-- ==== Sys2Proof/Decode.lean ====
section
/-! DEFINITION. Bytes to instructions (rules R130 to R148), total on any bytes and refusing by name; and the encoder,
from the same tables (rules R140, R153). -/

namespace Sys2Proof

/-! ### Byte order (rule R82) -/

/-- The `n` big-endian bytes of `v`, most significant first. -/
def beBytes : (n : Nat) → (v : Nat) → List Byte
  | 0, _ => []
  | n + 1, v => BitVec.ofNat 8 (v >>> (8 * n)) :: beBytes n v

/-- The unsigned value of big-endian bytes. -/
def beValue (bs : List Byte) : Nat :=
  bs.foldl (fun acc b => acc * 256 + b.toNat) 0

/-! ### Register IDs (Table 4.3, rule R21) -/

/-- The registers in the order of Table 4.3. -/
def allRegs : List Reg :=
  [.rip, .rst, .rff, .rfa, .rbt, .rct, .rpa, .rra, .rsa, .rcmp, .rlgic, .rarth,
   .rgp1, .rgp2, .rgp3, .rgp4, .rgp5, .rgp6, .rgp7, .rgp8,
   .ral1, .ral2, .ral3, .ral4, .rfp1, .rfp2, .rfp3, .rfp4]

/-- The register's index in Table 4.3 and in a Task Structure (rules R21, R50). -/
def regIndex (r : Reg) : Nat :=
  match r with
  | .rip => 0 | .rst => 1 | .rff => 2 | .rfa => 3 | .rbt => 4 | .rct => 5 | .rpa => 6 | .rra => 7
  | .rsa => 8 | .rcmp => 9 | .rlgic => 10 | .rarth => 11
  | .rgp1 => 12 | .rgp2 => 13 | .rgp3 => 14 | .rgp4 => 15 | .rgp5 => 16 | .rgp6 => 17 | .rgp7 => 18 | .rgp8 => 19
  | .ral1 => 20 | .ral2 => 21 | .ral3 => 22 | .ral4 => 23
  | .rfp1 => 24 | .rfp2 => 25 | .rfp3 => 26 | .rfp4 => 27

/-- The Register ID, four times the index (rule R21). -/
def regId (r : Reg) : Byte := BitVec.ofNat 8 (4 * regIndex r)

/-- The register a byte names; none for an invalid Register ID (rule R146). -/
def regOfId (b : Byte) : Option Reg :=
  if b.toNat % 4 = 0 then allRegs[b.toNat / 4]? else none

/-! ### The opcode word -/

/-- Why bytes are no instruction. -/
inductive DecodeError
  /-- An unspecified Instruction ID, or a nonzero byte where the format has zeros (rules R143, R144). -/
  | illegalInstruction
  /-- A register slot holds an invalid Register ID (rule R146). -/
  | badRegister
  /-- The instruction has extension words and EXT_BYTES is not supplied (rule R137). -/
  | extWidthOpen
  /-- The bytes end before the instruction does. -/
  | truncated
deriving DecidableEq, Repr

/-- Byte `i` of the opcode word, byte 0 the least significant: ZZ, YY, XX and the byte that is always 0 (rule R130). -/
def opByte (w : OpWord) (i : Nat) : Byte := (w >>> (8 * i)).setWidth 8

/-- One register slot (rule R142). -/
def withReg (b : Byte) (mk : Reg → Instr) : Except DecodeError Instr :=
  match regOfId b with
  | some r => .ok (mk r)
  | none => .error .badRegister

/-- The two register slots of format FRR: `XX` and `YY` as the opcode word has them, and the source and the target as
RR_FIELD_ORDER assigns them (rule R134). -/
def withRegs (p : Params) (xx yy : Byte) (mk : (rs rt : Reg) → Instr) : Except DecodeError Instr :=
  match regOfId xx, regOfId yy with
  | some x, some y =>
    match p.fieldOrder with
    | .table => .ok (mk y x)
    | .examples => .ok (mk x y)
  | _, _ => .error .badRegister

/-- The row of rule R140 an opcode word selects and its registers, with zeros for the extension words, or the fault of
rules R143, R144, R146. -/
def decodeHead (p : Params) (w : OpWord) : Except DecodeError Instr :=
  let xx := opByte w 2
  let yy := opByte w 1
  if opByte w 3 ≠ 0 then .error .illegalInstruction
  else
    match (opByte w 0).toNat with
    | 0x01 =>
      if xx = 0 then withReg yy (fun rs => .cpvrFrm rs 0)
      else if p.fieldOrder = .examples ∧ yy = 0 then .error .illegalInstruction
      else withRegs p xx yy .cpvrFrr
    | 0x02 =>
      if yy ≠ 0 then .error .illegalInstruction
      else if xx = 0 then .ok (.cpvlFmm 0 0)
      else withReg xx (.cpvlFmr 0)
    | 0x03 =>
      if yy = 0 then
        if xx = 0 then .ok (.cprFmm 0 0) else withReg xx (.cprFmr 0)
      else if xx = 0 then withReg yy (fun rs => .cprFrm rs 0)
      else withRegs p xx yy .cprFrr
    | 0x04 => withRegs p xx yy .cprr
    | 0x05 => withRegs p xx yy .cmp
    | 0x06 =>
      if xx ≠ 0 then .error .illegalInstruction
      else if yy = 0 then .ok (.jmpFm 0)
      else withReg yy .jmpFr
    | 0x07 =>
      if xx ≠ 0 then .error .illegalInstruction
      else if yy = 0 then .ok (.callFm 0)
      else withReg yy .callFr
    | 0x08 => if xx = 0 ∧ yy = 0 then .ok .ret else .error .illegalInstruction
    | 0x09 => withRegs p xx yy .arth
    | 0x0A => withRegs p xx yy .lgic
    | 0x0B => if xx = 0 then .ok (.intr yy) else .error .illegalInstruction
    | 0x0C =>
      if yy = 0 then
        if xx = 0 then .ok (.cebFmm 0 0) else withReg xx (.cebFmr 0)
      else if xx = 0 then withReg yy (fun rs => .cebFrm rs 0)
      else withRegs p xx yy .cebFrr
    | 0x0D => if xx = 0 ∧ yy = 0 then .ok .nop else .error .illegalInstruction
    | 0x0E => if xx = 0 ∧ yy = 0 then .ok .ltsk else .error .illegalInstruction
    | _ => .error .illegalInstruction

/-! ### Extension words (rules R136, R140) -/

/-- The instruction with its extension words put in; an instruction that has fewer ignores the rest. -/
def Instr.withExt (i : Instr) (n k : Word) : Instr :=
  match i with
  | .cpvrFrm rs _ => .cpvrFrm rs n
  | .cpvrFrr rs rt => .cpvrFrr rs rt
  | .cpvlFmm _ _ => .cpvlFmm n k
  | .cpvlFmr _ rt => .cpvlFmr n rt
  | .cprFmm _ _ => .cprFmm n k
  | .cprFrm rs _ => .cprFrm rs n
  | .cprFmr _ rt => .cprFmr n rt
  | .cprFrr rs rt => .cprFrr rs rt
  | .cprr rs rt => .cprr rs rt
  | .cmp rs rt => .cmp rs rt
  | .jmpFm _ => .jmpFm n
  | .jmpFr rs => .jmpFr rs
  | .callFm _ => .callFm n
  | .callFr rs => .callFr rs
  | .ret => .ret
  | .arth rs rt => .arth rs rt
  | .lgic rs rt => .lgic rs rt
  | .intr id => .intr id
  | .cebFmm _ _ => .cebFmm n k
  | .cebFrm rs _ => .cebFrm rs n
  | .cebFmr _ rt => .cebFmr n rt
  | .cebFrr rs rt => .cebFrr rs rt
  | .nop => .nop
  | .ltsk => .ltsk

/-- The extension words in the order they stand in memory: N, then K. -/
def Instr.extList (i : Instr) : List Word :=
  match i with
  | .cpvrFrm _ n => [n]
  | .cpvrFrr _ _ => []
  | .cpvlFmm n k => [n, k]
  | .cpvlFmr n _ => [n]
  | .cprFmm n k => [n, k]
  | .cprFrm _ n => [n]
  | .cprFmr n _ => [n]
  | .cprFrr _ _ => []
  | .cprr _ _ => []
  | .cmp _ _ => []
  | .jmpFm n => [n]
  | .jmpFr _ => []
  | .callFm n => [n]
  | .callFr _ => []
  | .ret => []
  | .arth _ _ => []
  | .lgic _ _ => []
  | .intr _ => []
  | .cebFmm n k => [n, k]
  | .cebFrm _ n => [n]
  | .cebFmr n _ => [n]
  | .cebFrr _ _ => []
  | .nop => []
  | .ltsk => []

/-- How many extension words follow the opcode word. -/
def Instr.extWords (i : Instr) : Nat := i.extList.length

/-- Takes a big-endian value of `n` bytes off the front. -/
def takeValue (n : Nat) (bs : List Byte) : Option (Nat × List Byte) :=
  if bs.length < n then none else some (beValue (bs.take n), bs.drop n)

/-- Takes `k` extension words of `e` bytes off the front. -/
def takeExt (e : Nat) : (k : Nat) → List Byte → Option (List Word × List Byte)
  | 0, bs => some ([], bs)
  | k + 1, bs =>
    match takeValue e bs with
    | none => none
    | some (v, rest) =>
      match takeExt e k rest with
      | none => none
      | some (vs, rest') => some (BitVec.ofNat 64 v :: vs, rest')

/-- Reads one instruction from the front of a list of bytes and gives the bytes that follow it (rule R142). -/
def decode (p : Params) (bs : List Byte) : Except DecodeError (Instr × List Byte) :=
  match takeValue 4 bs with
  | none => .error .truncated
  | some (w, rest) =>
    match decodeHead p (BitVec.ofNat 32 w) with
    | .error e => .error e
    | .ok i =>
      match i.extWords with
      | 0 => .ok (i, rest)
      | k + 1 =>
        match p.extBytes with
        | none => .error .extWidthOpen
        | some e =>
          match takeExt e (k + 1) rest with
          | none => .error .truncated
          | some (ws, rest') => .ok (i.withExt (ws.getD 0 0) (ws.getD 1 0), rest')

/-! ### The encoder (rules R133, R140, R153) -/

/-- The opcode word `0x00XXYYZZ`. -/
def opWord (xx yy zz : Byte) : OpWord := (0#8 ++ xx ++ yy ++ zz : BitVec 32)

/-- The opcode word of format FRR (rules R134, R153). -/
def opRegs (p : Params) (rs rt : Reg) (zz : Byte) : OpWord :=
  match p.fieldOrder with
  | .table => opWord (regId rt) (regId rs) zz
  | .examples => opWord (regId rs) (regId rt) zz

/-- The opcode word of an instruction. -/
def encodeHead (p : Params) (i : Instr) : OpWord :=
  match i with
  | .cpvrFrm rs _ => opWord 0 (regId rs) 0x01
  | .cpvrFrr rs rt => opRegs p rs rt 0x01
  | .cpvlFmm _ _ => opWord 0 0 0x02
  | .cpvlFmr _ rt => opWord (regId rt) 0 0x02
  | .cprFmm _ _ => opWord 0 0 0x03
  | .cprFrm rs _ => opWord 0 (regId rs) 0x03
  | .cprFmr _ rt => opWord (regId rt) 0 0x03
  | .cprFrr rs rt => opRegs p rs rt 0x03
  | .cprr rs rt => opRegs p rs rt 0x04
  | .cmp rs rt => opRegs p rs rt 0x05
  | .jmpFm _ => opWord 0 0 0x06
  | .jmpFr rs => opWord 0 (regId rs) 0x06
  | .callFm _ => opWord 0 0 0x07
  | .callFr rs => opWord 0 (regId rs) 0x07
  | .ret => opWord 0 0 0x08
  | .arth rs rt => opRegs p rs rt 0x09
  | .lgic rs rt => opRegs p rs rt 0x0A
  | .intr id => opWord 0 id 0x0B
  | .cebFmm _ _ => opWord 0 0 0x0C
  | .cebFrm rs _ => opWord 0 (regId rs) 0x0C
  | .cebFmr _ rt => opWord (regId rt) 0 0x0C
  | .cebFrr rs rt => opRegs p rs rt 0x0C
  | .nop => opWord 0 0 0x0D
  | .ltsk => opWord 0 0 0x0E

/-- The bytes of an instruction as they stand in memory, the first at the lowest address (rules R82, R136). -/
def encode (p : Params) (i : Instr) : List Byte :=
  beBytes 4 (encodeHead p i).toNat ++
    i.extList.flatMap fun v => beBytes (p.extBytes.getD 4) v.toNat

/-- The length in bytes (rule R140). -/
def Instr.length (p : Params) (i : Instr) : Nat := 4 + i.extWords * p.extBytes.getD 4

/-! ### The opcode table's numbering of an instruction's bits -/

/-- The bytes of the longest instruction whose bits are `w` as opcode_table.json numbers them: the opcode word in the
lowest 32 bits, then the extension words, each stored big endian. -/
def bytesOfTableWord (p : Params) (w : Nat) : List Byte :=
  let e := p.extBytes.getD 4
  beBytes 4 (w % 2 ^ 32) ++
    (beBytes e ((w / 2 ^ 32) % 256 ^ e) ++ beBytes e ((w / 2 ^ 32 / 256 ^ e) % 256 ^ e))

/-- The instruction the decoder reads from the bits of a row of opcode_table.json, under the default parameters. Bits
from `nbits` up are zero. -/
def decodeTableWord (nbits w : Nat) : Option Instr :=
  match decode Params.default (bytesOfTableWord Params.default (w % 2 ^ nbits)) with
  | .ok (i, _) => some i
  | .error _ => none

end Sys2Proof
end

