-- ==== Sys2Proof/Machine/State.lean ====
section
/-! DEFINITION. The state of the machine as plain data, its outcomes, and the machine right after reset. -/

namespace Sys2Proof.Machine

/-! ### Faults of the architecture

A fault of the spec is an event with defined effects, a step of the machine (rule R13). -/

/-- The thirteen faults, RFF bits 0 to 12 (rule R32, Table 2.2). -/
inductive ArchFault
  | machineCheck
  | badMemoryReference
  | badRegisterReference
  | badRegisterValue
  | badOperationValue
  | illegalInterrupt
  | illegalInstruction
  | floatingPointUnit
  | arithmeticLogicUnit
  | pagePermission
  | page
  | privilege
  | inputOutput
deriving DecidableEq, Repr

/-- What a rule raises: `raise F` or `raise F(id)` (rule R300). -/
structure Trap where
  fault : ArchFault
  /-- The Interrupt ID for RFF bits 31:24, where the fault is marked by bit 13 (rules R299, R316). -/
  marker : Option Byte
deriving DecidableEq, Repr

/-! ### Stops of the model -/

/-- Why the machine stops with a fault of the model. -/
inductive Fault
  /-- Raised by a read of a byte of memory that nothing has written and no image placed (rule R60: "a read before a
  write is a model-level fault"). Safe: the hardware reads some byte and goes on (log entry 6). -/
  | uninitializedMemory (address : Nat)
  /-- Raised by a page lookup whose Next chain loops with no matching page: the lookup never ends, the machine is
  stuck (U12, rule R95). Safe: the hardware makes no further progress either (log entry 21). -/
  | lookupNeverEnds
deriving DecidableEq, Repr

/-- Why the model refuses to give a step a meaning. All but the first are the refusals the spec itself asks for. -/
inductive Refusal
  /-- Raised by an arm of `exec` whose instruction has no meaning yet. Safe. -/
  | notModelled (mnemonic : String)
  /-- Raised by an access whose address is not a multiple of its width, with MISALIGNED = refuse (rule R84, U11).
  Safe. -/
  | misaligned
  /-- Raised by an access that starts in a page's region and runs past its end (rule R98, U13). Safe. -/
  | crossesPageRegion
  /-- Raised by CMP with no relation selected in RCMP (rule R191, U5). Safe. -/
  | cmpNoRelation
  /-- Raised by ARTH with no operation selected in RARTH (rule R212, U5). Safe. -/
  | arthNoOperation
  /-- Raised by LGIC with no operation selected in RLGIC (rule R228, U5). Safe. -/
  | lgicNoOperation
  /-- Raised by an RFP register in CPR, CPRR, LGIC or the memory form of CPVR (rules R173, R228, U3). Safe. -/
  | fpOperand
  /-- Raised by ARTH or CMP on one RFP and one other register (rules R191, R213, U4). Safe. -/
  | mixedFpOperands
  /-- Raised by ARTH with an extended operand that rules R213 and R224 do not describe (U6). Safe. -/
  | extendedOperand
  /-- Raised by ARTH whose target is RARTH (rule R213, U7). Safe. -/
  | arthTargetsRarth
  /-- Raised by a CEB that passes its checks, with the CEB switch off (rule R256, U16). Safe. -/
  | cebBlock
  /-- Raised by an instruction with extension words on LEG64 where EXT_BYTES is not supplied (rule R137, U19). Safe. -/
  | extensionWidth
  /-- Raised by INTR 0x01 with a reserved vector flag bit set in RGP2 (rule R322, U22). Safe. -/
  | vectorFlags
  /-- Raised by INTR 0x0B with paging on where STORAGE_ADDR_SPACE is not supplied (rule R327, U24). Safe. -/
  | storageAddressSpace
deriving DecidableEq, Repr

/-! ### The pieces of state -/

/-- The 28 registers (rule R20). -/
structure Regs where
  rip : Word
  rst : Word
  rff : Word
  rfa : Word
  rbt : Word
  rct : Word
  rpa : Word
  rra : Word
  rsa : Word
  rcmp : Word
  rlgic : Word
  rarth : Word
  rgp1 : Word
  rgp2 : Word
  rgp3 : Word
  rgp4 : Word
  rgp5 : Word
  rgp6 : Word
  rgp7 : Word
  rgp8 : Word
  ral1 : Word
  ral2 : Word
  ral3 : Word
  ral4 : Word
  rfp1 : Word
  rfp2 : Word
  rfp3 : Word
  rfp4 : Word
deriving DecidableEq, Repr

/-- System memory (rule R80): the bytes that hold a value, addresses strictly rising. An address that is not listed
holds no value (rule R60, log entry 6). -/
abbrev Memory := List Host.Cell

/-- One entry of the Interrupt Vector (rule R53). -/
structure VectorEntry where
  flags : Word
  handler : Word
deriving DecidableEq, Repr

/-- Timer granularities (Table 9.1, rule R335). -/
inductive Granularity
  | nanoseconds
  | microseconds
  | milliseconds
  | seconds
deriving DecidableEq, Repr

/-- An active timer (rule R55): its granularity and its Time to Expiration. -/
structure Timer where
  granularity : Granularity
  tte : Word
deriving DecidableEq, Repr

/-- A pending hardware interrupt request (rule R56). -/
structure Request where
  id : Byte
  datum : Word
deriving DecidableEq, Repr

/-- A copy of a Page Structure, its six fields (rules R58, R94). No rule reads `previous`; it is none where the bytes
of that field hold no value (log entry 22). -/
structure PageCopy where
  baseLogical : Word
  basePhysical : Word
  size : Word
  flags : Word
  next : Word
  previous : Option Word
deriving DecidableEq, Repr

/-- State no program can read: the page cache (rule R58), and the model's own source of free choices. -/
structure Hidden where
  /-- The page cache, a set with no repeats (rule R100). -/
  cache : List PageCopy
  /-- The free choices to come; the model's own field (log entry 10). -/
  choices : List Nat
  /-- How many values have been drawn from the opaque constants; the model's own field (log entries 10 and 17). -/
  draws : Nat
deriving DecidableEq, Repr

/-- One event of the outside world (rules R12, R384). -/
inductive HostEvent
  /-- A key press with its datum (rule R324). -/
  | key (datum : Word)
  /-- The expiry of a timer (rule R336). -/
  | timerExpiry (timer : Fin 8)
  /-- A request of an implementation-specific hardware interrupt (rules R56, R333). -/
  | implRequest (id : Byte) (datum : Word)
  /-- A hardware failure: Machine Check (rule R286). -/
  | badHardware
deriving DecidableEq, Repr

/-- What the internal routine of an implementation-specific interrupt does, which the implementation supplies (rule
R333, U21; log entry 24). -/
structure RoutineEffect where
  /-- The fault it raises, in place of all else. -/
  fault : Option ArchFault
  /-- The data registers it writes, in order. -/
  writes : List (Reg × Word)
  /-- The bytes of system memory it stores, at physical addresses, in order. -/
  stores : List Host.Cell
deriving DecidableEq, Repr

/-- A routine that does nothing. -/
def RoutineEffect.nothing : RoutineEffect := ⟨none, [], []⟩

/-- What is settled from outside for one step: the events before it, in order, whether a device operation in it fails
(rules R298, R312), and what an implementation-specific interrupt taken in it does (rule R333). -/
structure Tick where
  events : List HostEvent
  deviceFails : Bool
  routine : RoutineEffect
deriving DecidableEq, Repr

/-- The tick of a step for which nothing is listed: no event, no failure, no effect (log entry 8). -/
def Tick.quiet : Tick := ⟨[], false, .nothing⟩

/-- A storage device: an array of bytes with a Storage ID (rules R326, R328). -/
structure StorageDevice where
  id : BitVec 16
  bytes : List Byte
deriving DecidableEq, Repr

/-- What belongs to the host (rule R59): the devices, and what the outside world will do. -/
structure World where
  /-- The bytes sent to Display Output, oldest first (rule R325). -/
  display : List Byte
  storage : List StorageDevice
  /-- The ticks to come, one a step; past the end nothing happens (log entry 8). -/
  inputs : List Tick
  /-- What the tick of the current step says of device failures (log entry 8). -/
  deviceFails : Bool
  /-- What the tick of the current step says of an implementation's routine (log entry 24). -/
  routine : RoutineEffect
deriving DecidableEq, Repr

/-- The state of the machine. -/
structure State where
  /-- The implementation parameters of rule R5; no step writes them (log entry 1). -/
  params : Params
  regs : Regs
  mem : Memory
  /-- The Interrupt Vector; entry `n` is at index `n - 1` (rule R53). -/
  vector : Vector VectorEntry 127
  /-- The eight timers, none where inactive (rule R55). -/
  timers : Vector (Option Timer) 8
  /-- Pending hardware interrupts, oldest first (rule R56). -/
  pending : List Request
  /-- The halted flag (rule R57). -/
  halted : Bool
  hidden : Hidden
  world : World
deriving DecidableEq, Repr

/-! ### Reset -/

/-- Bytes at consecutive addresses. -/
def imageAt : (address : Nat) → List Byte → Memory
  | _, [] => []
  | a, b :: bs => (a, b) :: imageAt (a + 1) bs

/-- The registers after CPU initialization (rule R60): RIP, RST and RFF as the spec gives them; the others, which it
leaves unspecified, zero (DESIGN CHOICE, log entry 4). -/
def Regs.init (rip : Word) : Regs where
  rip := rip
  rst := 0
  rff := 0
  rfa := 0
  rbt := 0
  rct := 0
  rpa := 0
  rra := 0
  rsa := 0
  rcmp := 0
  rlgic := 0
  rarth := 0
  rgp1 := 0
  rgp2 := 0
  rgp3 := 0
  rgp4 := 0
  rgp5 := 0
  rgp6 := 0
  rgp7 := 0
  rgp8 := 0
  ral1 := 0
  ral2 := 0
  ral3 := 0
  ral4 := 0
  rfp1 := 0
  rfp2 := 0
  rfp3 := 0
  rfp4 := 0

/-- CPU initialization, or restart (rules R60, R380): parameters `p`, the boot image at RESET_RIP (rule R382), the
storage devices the host has, and `inputs`, what the host does from then on: an argument of the model (rule R5), here
one list of ticks for the keyboard, the timer expiries and the device failures (log entry 8). Nothing is preserved. -/
def State.init (p : Params) (image : List Byte) (storage : List StorageDevice) (inputs : List Tick) : State where
  params := p
  regs := Regs.init (BitVec.ofNat 64 p.resetRip)
  mem := imageAt p.resetRip image
  vector := Vector.replicate 127 ⟨0, 0⟩
  timers := Vector.replicate 8 none
  pending := []
  halted := false
  hidden := ⟨[], [], 0⟩
  world := ⟨[], storage, inputs, false, .nothing⟩

/-- The machine right after reset (rule R60): LEG32 with the default parameters, no boot image, no storage device, and
a host that does nothing: no key, no timer expiry, no request and no device failure. The spec leaves all of these open;
they are the model's choice (DESIGN CHOICE, log entries 3, 7, 8 and 27). -/
def State.reset : State := State.init Params.default [] [] []

end Sys2Proof.Machine
end

