-- ==== Sys2Proof/Machine/Flags.lean ====
section
/-! DEFINITION. Bit fields, and every flag computation: the fault bits of RFF, the relations of RCMP, and the control
words RARTH and RLGIC (10_state.md, 41_compare_and_flow.md, 42_arith_logic.md). -/

namespace Sys2Proof.Machine

/-! ### Bit fields -/

/-- `v` with bit `i` set to `b`. -/
def withBit (v : Word) (i : Nat) (b : Bool) : Word :=
  if b then v ||| (1#64 <<< i) else v &&& ~~~(1#64 <<< i)

/-- The bits `lo + n - 1` to `lo` of `v`, as a number. -/
def bitField (v : Word) (lo n : Nat) : Nat := v.toNat / 2 ^ lo % 2 ^ n

/-- The bits from `lo` up, as a number. -/
def bitsFrom (v : Word) (lo : Nat) : Nat := v.toNat / 2 ^ lo

/-- How many of the bits `lo + n - 1` to `lo` are set. -/
def bitCount (v : Word) (lo n : Nat) : Nat := ((List.range' lo n).filter v.getLsbD).length

/-! ### RFF -/

/-- The RFF bit of a fault (Table 2.2, rule R32). -/
def faultBit (f : ArchFault) : Nat :=
  match f with
  | .machineCheck => 0
  | .badMemoryReference => 1
  | .badRegisterReference => 2
  | .badRegisterValue => 3
  | .badOperationValue => 4
  | .illegalInterrupt => 5
  | .illegalInstruction => 6
  | .floatingPointUnit => 7
  | .arithmeticLogicUnit => 8
  | .pagePermission => 9
  | .page => 10
  | .privilege => 11
  | .inputOutput => 12

/-- The bit of the Interrupt Fault marker (rule R299). -/
def markerBit : Nat := 13

/-- RFF with the fault's bit set; with a marker, bit 13 set and bits 31:24 holding the Interrupt ID (rules R299, R301,
R303: no bit is cleared but those of the ID field). -/
def rffWith (rff : Word) (t : Trap) : Word :=
  let v := withBit rff (faultBit t.fault) true
  match t.marker with
  | none => v
  | some id => (withBit v markerBit true &&& ~~~(0xFF000000#64)) ||| (id.setWidth 64 <<< 24)

/-! ### RCMP (rules R39, R191) -/

/-- The outcome of checking a control word before the instruction that reads it. -/
inductive ControlCheck
  | valid
  /-- Bad Register Value Fault. -/
  | badValue
  /-- No operation or relation is selected. -/
  | unselected
deriving DecidableEq, Repr

/-- Checks RCMP: reserved bits, then whether a relation is selected (rule R191). -/
def checkRcmp (c : Word) : ControlCheck :=
  if bitsFrom c 5 ≠ 0 then .badValue
  else if bitField c 1 4 = 0 then .unselected
  else .valid

/-- The RCMP bit of a relation (Table 2.3). -/
def relationBit (r : Relation) : Nat :=
  match r with
  | .notEqual => 1
  | .greaterThan => 2
  | .lesserThan => 3
  | .equal => 4

/-- Whether any selected relation holds: the relations are OR-ed (rule R191). -/
def anyRelation (c : Word) (holds : Relation → Bool) : Bool :=
  (c.getLsbD 1 && holds .notEqual) || (c.getLsbD 2 && holds .greaterThan) ||
    (c.getLsbD 3 && holds .lesserThan) || (c.getLsbD 4 && holds .equal)

/-- A relation between two numbers, source first (rule R191). -/
def intRelation (r : Relation) (a b : Int) : Bool :=
  match r with
  | .notEqual => a ≠ b
  | .greaterThan => b < a
  | .lesserThan => a < b
  | .equal => a = b

/-! ### The width flags of RARTH and RLGIC (rules R40, R41, R215) -/

/-- The width bits 18:16 select for RAL operands: 8, 16, 32 or all XLEN bits. -/
def flagWidth (p : Params) (c : Word) : Nat :=
  if c.getLsbD 16 then 8 else if c.getLsbD 17 then 16 else if c.getLsbD 18 then 32 else p.xlen

/-- The checks RARTH and RLGIC share: reserved bits 19 up, bit 18 on LEG32, more than one width (rules R212, R228). -/
def widthFlagsBad (p : Params) (c : Word) : Bool :=
  bitsFrom c 19 ≠ 0 || (p.variant = .leg32 && c.getLsbD 18) || 1 < bitCount c 16 3

/-! ### RARTH (rules R41, R212) -/

/-- The arithmetic operations (RARTH bits 0 to 4). -/
inductive ArthOp
  | mul
  | div
  | sub
  | add
  | mod
deriving DecidableEq, Repr

/-- Checks RARTH, first match wins (rule R212). -/
def checkRarth (p : Params) (c : Word) : ControlCheck :=
  if widthFlagsBad p c || 1 < bitCount c 0 5 || 1 < bitCount c 8 8 then .badValue
  else if bitField c 0 5 = 0 then .unselected
  else .valid

/-- The operation a checked RARTH selects. -/
def arthOp (c : Word) : ArthOp :=
  if c.getLsbD 0 then .mul
  else if c.getLsbD 1 then .div
  else if c.getLsbD 2 then .sub
  else if c.getLsbD 3 then .add
  else .mod

/-- The extended operand a checked RARTH names in bits 15:8 (rules R213, R224). -/
def arthExtended (c : Word) : Option Reg :=
  if c.getLsbD 8 then some .ral1
  else if c.getLsbD 9 then some .ral2
  else if c.getLsbD 10 then some .ral3
  else if c.getLsbD 11 then some .ral4
  else if c.getLsbD 12 then some .rfp1
  else if c.getLsbD 13 then some .rfp2
  else if c.getLsbD 14 then some .rfp3
  else if c.getLsbD 15 then some .rfp4
  else none

/-- Overflow of the exact result `r` at `w` bits, with no extended operand (rule R222). -/
def overflows (signed : Bool) (w : Nat) (r : Int) : Bool :=
  if signed then (2 : Int) ^ (w - 1) ≤ r else (2 : Int) ^ w ≤ r

/-- Underflow of the exact result `r` at `w` bits, with no extended operand (rule R222). -/
def underflows (signed : Bool) (w : Nat) (r : Int) : Bool :=
  if signed then r < -(2 : Int) ^ (w - 1) else r < 0

/-- RARTH as ARTH leaves it: bits 6 and 7 cleared, then set as the result says (rules R210, R211). -/
def rarthAfter (c : Word) (ovf unf : Bool) : Word := withBit (withBit c 6 ovf) 7 unf

/-! ### RLGIC (rules R40, R228) -/

/-- Checks RLGIC, first match wins (rule R228). -/
def checkRlgic (p : Params) (c : Word) : ControlCheck :=
  if widthFlagsBad p c || bitField c 8 8 ≠ 0 || 1 < bitCount c 1 7 || (c.getLsbD 0 && bitField c 4 4 ≠ 0) then .badValue
  else if bitField c 0 8 = 0 then .unselected
  else .valid

end Sys2Proof.Machine
end

