-- ==== Sys2Proof/Machine/Operands.lean ====
section
/-! DEFINITION. Operand classes, widths and values, and the results of the arithmetic and logic operations
(42_arith_logic.md). -/

namespace Sys2Proof.Machine

/-! ### Register classes (rules R21, R22) -/

/-- RFP1 to RFP4. -/
def isRfp (r : Reg) : Bool :=
  match r with
  | .rfp1 | .rfp2 | .rfp3 | .rfp4 => true
  | _ => false

/-- RAL1 to RAL4. -/
def isRal (r : Reg) : Bool :=
  match r with
  | .ral1 | .ral2 | .ral3 | .ral4 => true
  | _ => false

/-- The control registers only Privilege Level 0 may write (rule R26). -/
def isProtected (r : Reg) : Bool :=
  match r with
  | .rst | .rff | .rfa | .rbt | .rct | .rpa | .rra => true
  | _ => false

/-! ### Operand values -/

/-- The XLEN-bit word of a number, reduced mod 2^XLEN (`trunc_XLEN` of rule R9). -/
def toWord (p : Params) (n : Nat) : Word := BitVec.ofNat 64 (n % 2 ^ p.xlen)

/-- The width of a register operand under width `k` from the flags (rule R215). -/
def operandWidth (p : Params) (k : Nat) (r : Reg) : Nat := if isRal r then k else p.xlen

/-- The low `w` bits, unsigned. -/
def lowBits (w : Nat) (v : Word) : Nat := v.toNat % 2 ^ w

/-- The number `n`, below 2^w, read as two's complement of `w` bits (rule R216). -/
def signedValue (w n : Nat) : Int := if n < 2 ^ (w - 1) then (n : Int) else (n : Int) - 2 ^ w

/-- An operand's value at width `w` (rule R216). -/
def operandValue (signed : Bool) (w : Nat) (v : Word) : Int :=
  if signed then signedValue w (lowBits w v) else (lowBits w v : Int)

/-- The `w`-bit wrap of an exact result (rule R222). -/
def wrap (w : Nat) (r : Int) : Nat := (r % 2 ^ w).toNat

/-- `v` with its low `w` bits replaced by those of `n`; the upper bits stay (rule R223). -/
def replaceLow (w : Nat) (v : Word) (n : Nat) : Word :=
  BitVec.ofNat 64 (v.toNat / 2 ^ w * 2 ^ w + n % 2 ^ w)

/-! ### Arithmetic (rules R217 to R221) -/

/-- The exact result of target `a` OP source `b`; none for division and modulus by zero. -/
def arthExact (op : ArthOp) (a b : Int) : Option Int :=
  match op with
  | .mul => some (a * b)
  | .div => if b = 0 then none else some (a.tdiv b)
  | .sub => some (a - b)
  | .add => some (a + b)
  | .mod => if b = 0 then none else some (a - b * a.tdiv b)

/-! ### Logic (rules R229 to R231) -/

/-- The complement of the low `w` bits. -/
def notBits (w n : Nat) : Nat := 2 ^ w - 1 - n % 2 ^ w

/-- Rotation left of a `w`-bit value by `n` positions, `n < w`. -/
def rotateLeftBits (w a n : Nat) : Nat := (a * 2 ^ n + a / 2 ^ (w - n)) % 2 ^ w

/-- The result of the operation a checked RLGIC selects, at target width `w`: target value `a`, below 2^w, and source
value `b` (rules R229 to R231). -/
def logicResult (c : Word) (w a b : Nat) : Nat :=
  if c.getLsbD 1 then
    let x := a ^^^ (b % 2 ^ w)
    if c.getLsbD 0 then notBits w x else x
  else if c.getLsbD 2 then
    let x := a &&& (b % 2 ^ w)
    if c.getLsbD 0 then notBits w x else x
  else if c.getLsbD 3 then
    let x := a ||| (b % 2 ^ w)
    if c.getLsbD 0 then notBits w x else x
  else if c.getLsbD 4 then
    if w ≤ b then 0 else a * 2 ^ b % 2 ^ w
  else if c.getLsbD 5 then
    if w ≤ b then 0 else a / 2 ^ b
  else if c.getLsbD 6 then rotateLeftBits w a (b % w)
  else if c.getLsbD 7 then rotateLeftBits w a ((w - b % w) % w)
  else notBits w b

end Sys2Proof.Machine
end

