-- ==== Sys2Proof/Machine/Ops.lean ====
section
/-! DEFINITION. The named operations over registers and memory, address translation, context switching, and taking a
fault: every meaning is written over these (10_state.md, 20_memory.md, 60_exceptions.md). -/

namespace Sys2Proof.Machine

/-! ### The result of a part of a step -/

/-- A part of a step goes on with a value and a state, raises a fault of the architecture (rule R300), or stops the
model. The state of `raise` is the one fault entry starts from: what the rule says was written before the raise, and
what the page cache took in. -/
inductive Res (α : Type) where
  | ok (a : α) (s : State)
  | raise (t : Trap) (s : State)
  | refuse (r : Refusal)
  | stop (f : Fault)
deriving DecidableEq, Repr

/-- Goes on with `f` where `x` went on. -/
def Res.bind {α β : Type} (x : Res α) (f : α → State → Res β) : Res β :=
  match x with
  | .ok a s => f a s
  | .raise t s => .raise t s
  | .refuse r => .refuse r
  | .stop e => .stop e

/-- `raise F` with no Interrupt ID. -/
def raiseFault {α : Type} (f : ArchFault) (s : State) : Res α := .raise ⟨f, none⟩ s

/-- `raise F(id)` (rule R316). -/
def raiseMarked {α : Type} (f : ArchFault) (id : Byte) (s : State) : Res α := .raise ⟨f, some id⟩ s

/-! ### Registers -/

/-- The value of a register. -/
def Regs.get (g : Regs) (r : Reg) : Word :=
  match r with
  | .rip => g.rip
  | .rst => g.rst
  | .rff => g.rff
  | .rfa => g.rfa
  | .rbt => g.rbt
  | .rct => g.rct
  | .rpa => g.rpa
  | .rra => g.rra
  | .rsa => g.rsa
  | .rcmp => g.rcmp
  | .rlgic => g.rlgic
  | .rarth => g.rarth
  | .rgp1 => g.rgp1
  | .rgp2 => g.rgp2
  | .rgp3 => g.rgp3
  | .rgp4 => g.rgp4
  | .rgp5 => g.rgp5
  | .rgp6 => g.rgp6
  | .rgp7 => g.rgp7
  | .rgp8 => g.rgp8
  | .ral1 => g.ral1
  | .ral2 => g.ral2
  | .ral3 => g.ral3
  | .ral4 => g.ral4
  | .rfp1 => g.rfp1
  | .rfp2 => g.rfp2
  | .rfp3 => g.rfp3
  | .rfp4 => g.rfp4

/-- The registers with one of them replaced. -/
def Regs.set (g : Regs) (r : Reg) (v : Word) : Regs :=
  match r with
  | .rip => { g with rip := v }
  | .rst => { g with rst := v }
  | .rff => { g with rff := v }
  | .rfa => { g with rfa := v }
  | .rbt => { g with rbt := v }
  | .rct => { g with rct := v }
  | .rpa => { g with rpa := v }
  | .rra => { g with rra := v }
  | .rsa => { g with rsa := v }
  | .rcmp => { g with rcmp := v }
  | .rlgic => { g with rlgic := v }
  | .rarth => { g with rarth := v }
  | .rgp1 => { g with rgp1 := v }
  | .rgp2 => { g with rgp2 := v }
  | .rgp3 => { g with rgp3 := v }
  | .rgp4 => { g with rgp4 := v }
  | .rgp5 => { g with rgp5 := v }
  | .rgp6 => { g with rgp6 := v }
  | .rgp7 => { g with rgp7 := v }
  | .rgp8 => { g with rgp8 := v }
  | .ral1 => { g with ral1 := v }
  | .ral2 => { g with ral2 := v }
  | .ral3 => { g with ral3 := v }
  | .ral4 => { g with ral4 := v }
  | .rfp1 => { g with rfp1 := v }
  | .rfp2 => { g with rfp2 := v }
  | .rfp3 => { g with rfp3 := v }
  | .rfp4 => { g with rfp4 := v }

/-- `x[r]` (rules R9, R27). While an instruction executes, RIP holds its address (rule R28). -/
def State.reg (s : State) (r : Reg) : Word := s.regs.get r

/-- What a write of register `r` does to the page cache: a write of RPA empties it (rule R100). -/
def hiddenAfterWrite (r : Reg) (h : Hidden) : Hidden :=
  match r with
  | .rpa => { h with cache := [] }
  | _ => h

/-- `x[r] <- v` with no check: the register takes the XLEN low bits of `v`. -/
def State.setReg (s : State) (r : Reg) (v : Word) : State :=
  { s with
    regs := s.regs.set r (toWord s.params v.toNat)
    hidden := hiddenAfterWrite r s.hidden }

/-- Interrupts are enabled: RST bit 0 (rule R30). -/
def State.interruptsOn (s : State) : Bool := (s.reg .rst).getLsbD 0

/-- Fault handling is enabled: RST bit 1 (rule R30). -/
def State.faultsOn (s : State) : Bool := (s.reg .rst).getLsbD 1

/-- Task registers are enabled: RST bit 2 (rules R30, R340). -/
def State.tasksOn (s : State) : Bool := (s.reg .rst).getLsbD 2

/-- The privilege level is 1: RST bit 3 (rule R280). -/
def State.level1 (s : State) : Bool := (s.reg .rst).getLsbD 3

/-- Paging is enabled: RST bit 4 (rules R30, R93). -/
def State.pagingOn (s : State) : Bool := (s.reg .rst).getLsbD 4

/-- The fault of an explicit write of `v` to the target register `r`, first match wins (rule R26). -/
def writeFault (s : State) (r : Reg) (v : Word) : Option ArchFault :=
  if r = .rip then some .illegalInstruction
  else if s.level1 && isProtected r then some .privilege
  else if r = .rst && bitsFrom v 5 ≠ 0 then some .badRegisterValue
  else none

/-- An explicit register write: the check of rule R26, then the write. -/
def writeReg (r : Reg) (v : Word) (s : State) : Res Unit :=
  match writeFault s r v with
  | some f => raiseFault f s
  | none => .ok () (s.setReg r v)

/-- The address of the instruction after this one, which has `k` extension words (rules R29, R140). -/
def nextPc (k : Nat) (s : State) : Res Word :=
  match k with
  | 0 => .ok (toWord s.params ((s.reg .rip).toNat + 4)) s
  | k + 1 =>
    match s.params.extBytes with
    | none => .refuse .extensionWidth
    | some e => .ok (toWord s.params ((s.reg .rip).toNat + 4 + (k + 1) * e)) s

/-! ### Physical memory (rules R80 to R89) -/

/-- The byte at an address, if one is held there. -/
def Memory.read? (m : Memory) (a : Nat) : Option Byte :=
  match m with
  | [] => none
  | (k, b) :: rest => if k = a then some b else Memory.read? rest a

/-- The memory with the byte at an address replaced. -/
def Memory.write (m : Memory) (a : Nat) (b : Byte) : Memory :=
  match m with
  | [] => [(a, b)]
  | (k, c) :: rest =>
    if a < k then (a, b) :: (k, c) :: rest
    else if a = k then (a, b) :: rest
    else (k, c) :: Memory.write rest a b

/-- The canonical form: addresses strictly rising. (An unlisted address holds no value, so no entry can equal what it
reads as.) -/
def Memory.wf (m : Memory) : Bool :=
  match m with
  | [] => true
  | [_] => true
  | (a, _) :: (b, y) :: rest => decide (a < b) && Memory.wf ((b, y) :: rest)

/-- Bytes written at addresses, in order. -/
def Memory.writeAll (m : Memory) : (addrs : List Nat) → (bytes : List Byte) → Memory
  | a :: addrs, b :: bytes => Memory.writeAll (m.write a b) addrs bytes
  | _, _ => m

/-- The bytes at addresses, in order; stops at one that holds no value (rule R60). -/
def readAll : (addrs : List Nat) → (s : State) → Res (List Byte)
  | [], s => .ok [] s
  | a :: addrs, s =>
    match s.mem.read? a with
    | none => .stop (.uninitializedMemory a)
    | some b => (readAll addrs s).bind fun bs s' => .ok (b :: bs) s'

/-- The range check of rule R87, true where the access is in memory and clear of the reserved region. -/
def inMemory (p : Params) (pa n : Nat) : Bool := p.reservedEnd ≤ pa && pa + n ≤ p.memSize

/-- A big-endian WB-byte field at a physical address: its value, or the first address that holds none. -/
def readField (m : Memory) (wb pa : Nat) : Except Nat Word :=
  match (List.range' pa wb).find? (fun a => (m.read? a).isNone) with
  | some a => .error a
  | none => .ok (BitVec.ofNat 64 (beValue ((List.range' pa wb).filterMap m.read?)))

/-! ### Free choices (U26, U27) -/

/-- A free choice among `n` things: the next one listed in the state, or past the list an opaque one (log
entry 10). -/
def pick (n : Nat) (h : Hidden) : Nat × Hidden :=
  match h.choices with
  | c :: cs => (c % n, { h with choices := cs })
  | [] => (Config.choice h.draws % n, { h with draws := h.draws + 1 })

/-! ### Paging (rules R93 to R100) -/

/-- The four kinds of access (rule R90, R91). -/
inductive Access
  | read
  | write
  | exec
  /-- The access CALL and RET make through RRA (rule R99). -/
  | ras
deriving DecidableEq, Repr

/-- The strict range test of the lookup (rule R95). -/
def covers (c : PageCopy) (la : Nat) : Bool :=
  c.baseLogical.toNat < la && la < c.baseLogical.toNat + c.size.toNat

/-- The Page Structure at a physical address (rule R94); an error names an address that holds no value. The Previous
field is copied as it is (log entry 22). -/
def readPage (m : Memory) (wb pa : Nat) : Except Nat PageCopy :=
  match readField m wb pa, readField m wb (pa + wb), readField m wb (pa + 2 * wb), readField m wb (pa + 3 * wb),
    readField m wb (pa + 4 * wb) with
  | .ok bl, .ok bp, .ok sz, .ok fl, .ok nx =>
    .ok ⟨bl, bp, sz, fl, nx, (readField m wb (pa + 5 * wb)).toOption⟩
  | .error a, _, _, _, _ => .error a
  | _, .error a, _, _, _ => .error a
  | _, _, .error a, _, _ => .error a
  | _, _, _, .error a, _ => .error a
  | _, _, _, _, .error a => .error a

/-- How a walk of the page list ends. -/
inductive Walk
  | found (c : PageCopy)
  | fault (f : ArchFault)
  | refused (r : Refusal)
  | stopped (f : Fault)
deriving DecidableEq, Repr

/-- The walk of the page list from the Page Structure at `ptr` (rule R95): a pointer of 0 ends the list with a Page
Fault (D27), and a pointer met before never ends (U12). Every structure lies at an address of its own in memory, so
the fuel MEM_SIZE is never used up first (log entry 21). -/
def walkPages (p : Params) (m : Memory) (la : Nat) : (fuel : Nat) → (visited : List Nat) → (ptr : Nat) → Walk
  | 0, _, _ => .stopped .lookupNeverEnds
  | fuel + 1, visited, ptr =>
    if ptr = 0 then .fault .page
    else if visited.contains ptr then .stopped .lookupNeverEnds
    else if p.misaligned = .refuse ∧ ptr % p.wb ≠ 0 then .refused .misaligned
    else if inMemory p ptr p.pageBytes then
      match readPage m p.wb ptr with
      | .error a => .stopped (.uninitializedMemory a)
      | .ok c => if covers c la then .found c else walkPages p m la fuel (ptr :: visited) c.next.toNat
    else .fault .badMemoryReference

/-- The walk from RPA. -/
def walkFromRpa (s : State) (la : Nat) : Walk :=
  walkPages s.params s.mem la (s.params.memSize + 1) [] (s.reg .rpa).toNat

/-- The page cache with a copy added, where it is not there yet. -/
def cacheAdd (h : Hidden) (c : PageCopy) : Hidden :=
  if c ∈ h.cache then h else { h with cache := c :: h.cache }

/-- The end of a lookup that walked memory: the page found goes into the page cache (rule R100). -/
def lookupWalked (s : State) (w : Walk) : Res PageCopy :=
  match w with
  | .found c => .ok c { s with hidden := cacheAdd s.hidden c }
  | .fault f => raiseFault f s
  | .refused r => .refuse r
  | .stopped f => .stop f

/-- Page Lookup (rules R95, R100): the walk, or any cached copy that matches. Where copies that differ from what the
walk gives match, which is used is a free choice (log entry 10). -/
def lookupPage (la : Nat) (s : State) : Res PageCopy :=
  let w := walkFromRpa s la
  match s.hidden.cache.filter (fun c => covers c la && w ≠ .found c) with
  | [] => lookupWalked s w
  | c :: cs =>
    let (k, h) := pick (cs.length + 2) s.hidden
    match k with
    | 0 => lookupWalked { s with hidden := h } w
    | k + 1 => .ok ((c :: cs).getD k c) { s with hidden := h }

/-- The Permission Check, true where the access is permitted (rules R96, R97, R99). -/
def permits (c : PageCopy) (acc : Access) : Bool :=
  let ro := c.flags.getLsbD 0
  let rw := c.flags.getLsbD 1
  let ex := c.flags.getLsbD 2
  !(ro && rw) &&
    match acc with
    | .read => ro || rw
    | .write => rw
    | .exec => ex
    | .ras => ro

/-- Address Translation of the `n` bytes at logical address `la` (rule R98). -/
def translate (la n : Nat) (acc : Access) (s : State) : Res Nat :=
  (lookupPage la s).bind fun c s =>
    if permits c acc then
      if c.baseLogical.toNat + c.size.toNat < la + n then .refuse .crossesPageRegion
      else .ok ((c.basePhysical.toNat + (la - c.baseLogical.toNat)) % 2 ^ s.params.xlen) s
    else raiseFault .pagePermission s

/-! ### Memory access (rules R90, R91) -/

/-- The physical addresses of `n` bytes at `a`, translated when paging is on and range-checked always. -/
def resolveRange (a n : Nat) (acc : Access) (s : State) : Res (List Nat) :=
  (if s.pagingOn then translate a n acc s else .ok a s).bind fun pa s =>
    if inMemory s.params pa n then .ok (List.range' pa n) s else raiseFault .badMemoryReference s

/-- The physical addresses of `n` bytes at `a`, each byte resolved by itself (rule R84, MISALIGNED = bytes). -/
def resolveBytes (acc : Access) : (n a : Nat) → (s : State) → Res (List Nat)
  | 0, _, s => .ok [] s
  | n + 1, a, s =>
    (resolveRange a 1 acc s).bind fun pas s =>
      (resolveBytes acc n ((a + 1) % 2 ^ s.params.xlen) s).bind fun rest s => .ok (pas ++ rest) s

/-- The physical addresses of an access of `n` bytes at `a` that wants alignment `align` (rule R84). -/
def resolve (a n align : Nat) (acc : Access) (s : State) : Res (List Nat) :=
  if a % align = 0 then resolveRange a n acc s
  else
    match s.params.misaligned with
    | .refuse => .refuse .misaligned
    | .bytes => resolveBytes acc n a s

/-- `MemRead` (rule R90): the unsigned big-endian value. -/
def memRead (a n align : Nat) (acc : Access) (s : State) : Res Nat :=
  (resolve a n align acc s).bind fun addrs s =>
    (readAll addrs s).bind fun bs s => .ok (beValue bs) s

/-- `MemWrite` (rule R91). Every check comes before the first byte is written. -/
def memWrite (a n align v : Nat) (acc : Access) (s : State) : Res Unit :=
  (resolve a n align acc s).bind fun addrs s =>
    .ok () { s with mem := s.mem.writeAll addrs (beBytes n v) }

/-- A data read of WB bytes (rule R83). -/
def loadWord (a : Word) (acc : Access) (s : State) : Res Word :=
  (memRead a.toNat s.params.wb s.params.wb acc s).bind fun v s => .ok (BitVec.ofNat 64 v) s

/-- A data write of WB bytes (rule R83). -/
def storeWord (a v : Word) (acc : Access) (s : State) : Res Unit :=
  memWrite a.toNat s.params.wb s.params.wb v.toNat acc s

/-! ### Task Structures (rules R50 to R52) -/

/-- The address of the slot of index `i` in the Task Structure at `base`. -/
def slotAddress (p : Params) (base : Word) (i : Nat) : Word := toWord p (base.toNat + i * p.wb)

/-- Writes values into slots of the Task Structure at `base`, in order. -/
def storeSlots (base : Word) : (slots : List (Nat × Word)) → (s : State) → Res Unit
  | [], s => .ok () s
  | (i, v) :: rest, s =>
    (storeWord (slotAddress s.params base i) v .write s).bind fun _ s => storeSlots base rest s

/-- `SaveContext` (rule R51): all 28 registers, with `ripValue` in the slot of RIP. -/
def saveContext (base ripValue : Word) (s : State) : Res Unit :=
  storeSlots base (allRegs.map fun r => (regIndex r, if r = .rip then ripValue else s.reg r)) s

/-- The access to the slot of one register: a read, or, where the value is ignored, the access alone, with its faults
but no need for the bytes to hold a value (log entry 15). -/
def accessSlot (a : Word) (keep : Bool) (s : State) : Res Word :=
  if keep then loadWord a .read s
  else (resolve a.toNat s.params.wb s.params.wb .read s).bind fun _ s => .ok 0 s

/-- Accesses the slots of registers `rs` in the Task Structure at `base`, in order; gives the values of those in
`keep`. -/
def loadSlots (base : Word) (keep : List Reg) : (rs : List Reg) → (s : State) → Res (List (Reg × Word))
  | [], s => .ok [] s
  | r :: rest, s =>
    (accessSlot (slotAddress s.params base (regIndex r)) (keep.contains r) s).bind fun v s =>
      (loadSlots base keep rest s).bind fun vs s => .ok (if keep.contains r then (r, v) :: vs else vs) s

/-- Registers written together. -/
def setRegs (s : State) : List (Reg × Word) → State
  | [] => s
  | (r, v) :: rest => setRegs (s.setReg r v) rest

/-- Reads all 28 slots first, then writes the registers of `keep`, in Table 4.3's order (rule R52). -/
def loadContext (base : Word) (keep : List Reg) (s : State) : Res Unit :=
  (loadSlots base keep allRegs s).bind fun vs s => .ok () (setRegs s vs)

/-- The nine control registers a Base Task Context load writes (rule R52). -/
def baseRegs : List Reg := [.rst, .rfa, .rbt, .rpa, .rra, .rsa, .rcmp, .rlgic, .rarth]

/-! ### Taking a fault (rules R300 to R304, R341, R344) -/

/-- RFF with a fault recorded in it (rule R303). -/
def State.recordFault (s : State) (t : Trap) : State := s.setReg .rff (rffWith (s.reg .rff) t)

/-- The CPU halts (rule R345). -/
def State.halt (s : State) : State := { s with halted := true }

/-- A fault during a context switch is a Machine Check, and the bit of the fault itself is set as well (rule R344). -/
def contextFault {α : Type} (x : Res α) : Res α :=
  match x with
  | .raise t s => raiseFault .machineCheck (s.recordFault t)
  | x => x

/-- The trap-entry context switch (rule R341): save all at [RCT], load the base control registers from [RBT], and
Machine Check if the base task is not at Privilege Level 0. -/
def enterBase (ripValue : Word) (s : State) : Res Unit :=
  contextFault <|
    (saveContext (s.reg .rct) ripValue s).bind fun _ s1 =>
      (loadContext (s.reg .rbt) baseRegs s1).bind fun _ s2 =>
        if s2.level1 then raiseFault .machineCheck s2 else .ok () s2

/-- The context switch of a trap entry where RST bit 2 asks for one (rules R301, R311, R312, R340). -/
def switchToBase (ripValue : Word) (s : State) : Res Unit :=
  if s.tasksOn then enterBase ripValue s else .ok () s

/-- Fault entry (rule R301), from a state whose RIP is the address that is saved: the instruction that faulted, or the
one that would have run next. -/
def faultEntry (t : Trap) (s : State) : Host.Outcome State Fault Refusal :=
  let s1 := s.recordFault t
  if t.fault = .machineCheck then .next s1.halt
  else if s1.faultsOn then
    match switchToBase (s1.reg .rip) s1 with
    | .ok _ s2 => .next (s2.setReg .rip (s2.reg .rfa))
    | .raise t2 s2 => .next (s2.recordFault t2).halt
    | .refuse r => .refused r
    | .stop f => .fault f
  else .next s1.halt

/-- The outcome of an instruction: a fault it raised is taken (rule R300). -/
def finish (x : Res Unit) : Host.Outcome State Fault Refusal :=
  match x with
  | .ok _ s => .next s
  | .raise t s => faultEntry t s
  | .refuse r => .refused r
  | .stop f => .fault f

/-- The return from a handler (rules R260, R343): save all at [RBT] with `ripValue` in the slot of RIP, then load all
28 registers from [RCT]. -/
def loadTask (ripValue : Word) (s : State) : Res Unit :=
  contextFault <|
    (saveContext (s.reg .rbt) ripValue s).bind fun _ s1 => loadContext (s.reg .rct) allRegs s1

/-- An instruction that completes at `next` with no transfer of control (rule R29). -/
def thenGoTo (next : Word) (x : Res Unit) : Res Unit :=
  x.bind fun _ s => .ok () (s.setReg .rip next)

end Sys2Proof.Machine
end

