-- ==== Sys2Proof/Machine/Arith.lean ====
section
/-! DEFINITION. ARTH and LGIC (42_arith_logic.md). Both compute target OP source (rules R211, R228). -/

namespace Sys2Proof.Machine

/-! ### ARTH -/

/-- What an ARTH computed: the target's new value, the extended operand's, and the two flags. -/
structure ArthResult where
  target : Word
  extended : Option (Reg × Word)
  overflow : Bool
  underflow : Bool
deriving DecidableEq, Repr

/-- The write check of the target, then all the writes (rule R211, steps 6 and 7). -/
def arthCommit (rt : Reg) (x : ArthResult) (next : Word) (s : State) : Res Unit :=
  match writeFault s rt x.target with
  | some f => raiseFault f s
  | none =>
    let s1 := s.setReg rt x.target
    let s2 := match x.extended with
      | some (e, v) => s1.setReg e v
      | none => s1
    .ok () ((s2.setReg .rarth (rarthAfter (s.reg .rarth) x.overflow x.underflow)).setReg .rip next)

/-- The extended operand a checked RARTH names may be used: it is of the operands' class, no width flag is set, and it
is neither operand (rules R213, R224). -/
def extendedAllowed (rs rt : Reg) (c : Word) : Bool :=
  match arthExtended c with
  | none => true
  | some e => isRfp e = isRfp rt && bitField c 16 3 = 0 && e ≠ rs && e ≠ rt

/-- The results of an integer ARTH; none for division or modulus by zero (rules R215 to R224). -/
def arthInteger (p : Params) (c : Word) (rs rt : Reg) (target source : Word) : Option ArthResult :=
  let k := flagWidth p c
  let w := operandWidth p k rt
  let signed := c.getLsbD 5
  match arthExact (arthOp c) (operandValue signed w target)
      (operandValue signed (operandWidth p k rs) source) with
  | none => none
  | some r =>
    match arthExtended c with
    | none => some ⟨replaceLow w target (wrap w r), none, overflows signed w r, underflows signed w r⟩
    | some e =>
      let full := wrap (2 * p.xlen) r
      some ⟨toWord p full, some (e, toWord p (full / 2 ^ p.xlen)), false, false⟩

/-- The results of an ARTH on two RFP registers, by the FP configuration; none where it raises the Floating Point Unit
Fault, which division by zero always does (rule R226, log entries 12 and 13). At most one of the two flags is set (rule
R222). -/
def arthFloat (p : Params) (c : Word) (target source : Word) : Option ArthResult :=
  let v := p.variant
  let c := rarthAfter c false false
  if arthOp c = .div ∧ Config.fpIsZero v source = true then none
  else if Config.fpFaults v c target source then none
  else
    match arthExtended c with
    | none =>
      let ovf := Config.fpOverflow v c target source
      some ⟨Config.fpResult v c target source, none, ovf, !ovf && Config.fpUnderflow v c target source⟩
    | some e =>
      some ⟨Config.fpResult v c target source, some (e, Config.fpExtended v c target source), false, false⟩

/-- The end of an ARTH: its fault where there is no result (rules R220, R226), else the commit. -/
def arthEnd (f : ArchFault) (rt : Reg) (x : Option ArthResult) (next : Word) (s : State) : Res Unit :=
  match x with
  | none => raiseFault f s
  | some x => arthCommit rt x next s

/-- ARTH (rule R211): RARTH's validity, the operand classes, the result, the write check, the commit. -/
def execArth (rs rt : Reg) (s : State) : Host.Outcome State Fault Refusal :=
  finish <| (nextPc 0 s).bind fun next s =>
    let c := s.reg .rarth
    match checkRarth s.params c with
    | .badValue => raiseFault .badRegisterValue s
    | .unselected => .refuse .arthNoOperation
    | .valid =>
      if rt = .rarth then .refuse .arthTargetsRarth
      else if isRfp rs ≠ isRfp rt then .refuse .mixedFpOperands
      else if extendedAllowed rs rt c then
        if isRfp rt then
          arthEnd .floatingPointUnit rt (arthFloat s.params c (s.reg rt) (s.reg rs)) next s
        else
          arthEnd .arithmeticLogicUnit rt (arthInteger s.params c rs rt (s.reg rt) (s.reg rs)) next s
      else .refuse .extendedOperand

/-! ### LGIC -/

/-- The new value of the target of an LGIC (rules R228 to R232). -/
def lgicValue (p : Params) (c : Word) (rs rt : Reg) (target source : Word) : Word :=
  let k := flagWidth p c
  let w := operandWidth p k rt
  replaceLow w target (logicResult c w (lowBits w target) (lowBits (operandWidth p k rs) source))

/-- LGIC (rule R228). -/
def execLgic (rs rt : Reg) (s : State) : Host.Outcome State Fault Refusal :=
  finish <| (nextPc 0 s).bind fun next s =>
    let c := s.reg .rlgic
    match checkRlgic s.params c with
    | .badValue => raiseFault .badRegisterValue s
    | .unselected => .refuse .lgicNoOperation
    | .valid =>
      if isRfp rs || isRfp rt then .refuse .fpOperand
      else thenGoTo next (writeReg rt (lgicValue s.params c rs rt (s.reg rt) (s.reg rs)) s)

end Sys2Proof.Machine
end

