-- ==== Sys2Proof/Machine/Copy.lean ====
section
/-! DEFINITION. The copy instructions CPVR, CPVL, CPR and CPRR (40_copy.md). The source is evaluated, its memory read
and faults included, before the target is checked (rule R171). -/

namespace Sys2Proof.Machine

/-- CPVR, register to memory (rule R174). An RFP source is refused (rule R173). -/
def execCpvrFrm (rs : Reg) (n : Word) (s : State) : Host.Outcome State Fault Refusal :=
  finish <| (nextPc 1 s).bind fun next s =>
    if isRfp rs then .refuse .fpOperand
    else thenGoTo next (storeWord n (s.reg rs) .write s)

/-- CPVR, register to register (rules R173, R174). -/
def execCpvrFrr (rs rt : Reg) (s : State) : Host.Outcome State Fault Refusal :=
  finish <| (nextPc 0 s).bind fun next s => thenGoTo next (writeReg rt (s.reg rs) s)

/-- CPVL, literal to memory (rule R175). -/
def execCpvlFmm (n k : Word) (s : State) : Host.Outcome State Fault Refusal :=
  finish <| (nextPc 2 s).bind fun next s => thenGoTo next (storeWord k n .write s)

/-- CPVL, literal to register (rules R138, R175). -/
def execCpvlFmr (n : Word) (rt : Reg) (s : State) : Host.Outcome State Fault Refusal :=
  finish <| (nextPc 1 s).bind fun next s => thenGoTo next (writeReg rt n s)

/-- CPR, memory to memory (rule R176). -/
def execCprFmm (n k : Word) (s : State) : Host.Outcome State Fault Refusal :=
  finish <| (nextPc 2 s).bind fun next s =>
    (loadWord n .read s).bind fun v s => thenGoTo next (storeWord k v .write s)

/-- CPR, memory at the address in a register to memory (rules R173, R176). -/
def execCprFrm (rs : Reg) (n : Word) (s : State) : Host.Outcome State Fault Refusal :=
  finish <| (nextPc 1 s).bind fun next s =>
    if isRfp rs then .refuse .fpOperand
    else (loadWord (s.reg rs) .read s).bind fun v s => thenGoTo next (storeWord n v .write s)

/-- CPR, memory to register (rules R173, R176). -/
def execCprFmr (n : Word) (rt : Reg) (s : State) : Host.Outcome State Fault Refusal :=
  finish <| (nextPc 1 s).bind fun next s =>
    if isRfp rt then .refuse .fpOperand
    else (loadWord n .read s).bind fun v s => thenGoTo next (writeReg rt v s)

/-- CPR, memory at the address in a register to register (rules R173, R176). -/
def execCprFrr (rs rt : Reg) (s : State) : Host.Outcome State Fault Refusal :=
  finish <| (nextPc 0 s).bind fun next s =>
    if isRfp rs || isRfp rt then .refuse .fpOperand
    else (loadWord (s.reg rs) .read s).bind fun v s => thenGoTo next (writeReg rt v s)

/-- CPRR, register to memory at the address in the target register, which is only read (rules R173, R177). -/
def execCprr (rs rt : Reg) (s : State) : Host.Outcome State Fault Refusal :=
  finish <| (nextPc 0 s).bind fun next s =>
    if isRfp rs || isRfp rt then .refuse .fpOperand
    else thenGoTo next (storeWord (s.reg rt) (s.reg rs) .write s)

end Sys2Proof.Machine
end

