-- ==== Sys2Proof/Machine/Flow.lean ====
section
/-! DEFINITION. Comparison and control flow: CMP, JMP, CALL and RET (41_compare_and_flow.md). -/

namespace Sys2Proof.Machine

/-! ### CMP -/

/-- Whether a relation holds between two register values that are not floating point, source first: on all XLEN bits,
unsigned unless CMP_SIGNED (rule R191). -/
def intCompare (p : Params) (r : Relation) (a b : Word) : Bool :=
  intRelation r (operandValue p.cmpSigned p.xlen a) (operandValue p.cmpSigned p.xlen b)

/-- RCMP bit 0 written with the result of a comparison; its other bits stay (rule R191). -/
def compareResult (holds : Relation → Bool) (next : Word) (s : State) : Res Unit :=
  let c := s.reg .rcmp
  .ok () ((s.setReg .rcmp (withBit c 0 (anyRelation c holds))).setReg .rip next)

/-- CMP (rule R191). Two RFP operands compare by the FP configuration (rule R226, log entry 12). -/
def execCmp (rs rt : Reg) (s : State) : Host.Outcome State Fault Refusal :=
  finish <| (nextPc 0 s).bind fun next s =>
    match checkRcmp (s.reg .rcmp) with
    | .badValue => raiseFault .badRegisterValue s
    | .unselected => .refuse .cmpNoRelation
    | .valid =>
      match isRfp rs, isRfp rt with
      | false, false => compareResult (fun r => intCompare s.params r (s.reg rs) (s.reg rt)) next s
      | true, true =>
        compareResult (fun r => Config.fpRelation s.params.variant r (s.reg rs) (s.reg rt)) next s
      | _, _ => .refuse .mixedFpOperands

/-! ### JMP -/

/-- JMP to `target`: taken when RCMP bit 0 is set, else on to the next instruction (rule R193). The target is not
checked. -/
def jumpTo (target next : Word) (s : State) : Res Unit :=
  .ok () (s.setReg .rip (if (s.reg .rcmp).getLsbD 0 then target else next))

/-- JMP to a memory address (rule R193). -/
def execJmpFm (n : Word) (s : State) : Host.Outcome State Fault Refusal :=
  finish <| (nextPc 1 s).bind fun next s => jumpTo n next s

/-- JMP to the address in a register (rule R193). -/
def execJmpFr (rs : Reg) (s : State) : Host.Outcome State Fault Refusal :=
  finish <| (nextPc 0 s).bind fun next s => jumpTo (s.reg rs) next s

/-! ### CALL and RET -/

/-- CALL to `target`, which was read before RRA changes (rules R195, R196). -/
def callTo (target next : Word) (s : State) : Res Unit :=
  (storeWord (s.reg .rra) next .ras s).bind fun _ s =>
    .ok () ((s.setReg .rra (toWord s.params ((s.reg .rra).toNat + s.params.wb))).setReg .rip target)

/-- CALL of a memory address (rule R196). -/
def execCallFm (n : Word) (s : State) : Host.Outcome State Fault Refusal :=
  finish <| (nextPc 1 s).bind fun next s => callTo n next s

/-- CALL of the address in a register (rules R196, R197). -/
def execCallFr (rs : Reg) (s : State) : Host.Outcome State Fault Refusal :=
  finish <| (nextPc 0 s).bind fun next s => callTo (s.reg rs) next s

/-- The slot RET pops: RRA - WB mod 2^XLEN (rule R198). -/
def popAddress (s : State) : Word :=
  toWord s.params ((s.reg .rra).toNat + 2 ^ s.params.xlen - s.params.wb)

/-- RET (rule R198). -/
def execRet (s : State) : Host.Outcome State Fault Refusal :=
  finish <| (loadWord (popAddress s) .ras s).bind fun t s1 =>
    .ok () ((s1.setReg .rra (popAddress s)).setReg .rip t)

end Sys2Proof.Machine
end

