-- ==== Sys2Proof/Machine/Interrupts.lean ====
section
/-! DEFINITION. Interrupts: the validation of INTR, the internal routines of the architecture-specific interrupts, and
the delivery of hardware interrupts (43_system.md, 60_exceptions.md). -/

namespace Sys2Proof.Machine

/-! ### The Interrupt Vector (rules R53, R314) -/

/-- The entry of an Interrupt ID; IDs outside 1 .. 127 have none and read as disabled. -/
def vectorEntry (s : State) (id : Nat) : VectorEntry :=
  if id = 0 then ⟨0, 0⟩ else (s.vector[id - 1]?).getD ⟨0, 0⟩

/-- An entry is disabled when both of its fields are zero (rule R53). -/
def VectorEntry.disabled (e : VectorEntry) : Bool := e.flags = 0 && e.handler = 0

/-! ### Interrupt IDs (rule R313) -/

/-- The software interrupts the architecture defines (rule R251). -/
def archSoftwareIds : List Byte := [0x01, 0x03, 0x0A, 0x0B, 0x0D, 0x0F]

/-- The implementation declares `id`, within 21 .. 31, as an interrupt of this kind (rule R333). -/
def isImplInt (p : Params) (kind : ImplKind) (id : Byte) : Bool :=
  21 ≤ id.toNat && id.toNat ≤ 31 && p.implInts.any fun x => x.id = id && x.kind = kind

/-- The "arch software IDs" of rule R251. -/
def isArchSoftware (p : Params) (id : Byte) : Bool := archSoftwareIds.contains id || isImplInt p .software id

/-- The fault of the validation of `INTR id`, first match wins; none where the request is granted (rule R251). -/
def intrFault (s : State) (id : Byte) : Option Trap :=
  let n := id.toNat
  if n = 0 ∨ 127 < n then some ⟨.illegalInterrupt, none⟩
  else if n ≤ 31 then
    if s.level1 then some ⟨.privilege, if isArchSoftware s.params id then some id else none⟩
    else if isArchSoftware s.params id then none
    else some ⟨.illegalInterrupt, none⟩
  else if s.level1 && !(vectorEntry s n).flags.getLsbD 0 then some ⟨.privilege, none⟩
  else if (vectorEntry s n).disabled then some ⟨.illegalInterrupt, none⟩
  else none

/-! ### Display Output, 0x0A (rule R325) -/

/-- Sends the low byte of RGP1 to the display, or reports the device's failure. -/
def displayOutput (s : State) : Res Unit :=
  if s.world.deviceFails then raiseMarked .inputOutput 0x0A s
  else
    .ok () { s with world := { s.world with display := s.world.display ++ [(s.reg .rgp1).setWidth 8] } }

/-! ### Storage I/O, 0x0B (rules R326 to R328) -/

/-- The device with a Storage ID. -/
def findDevice (w : World) (id : BitVec 16) : Option StorageDevice := w.storage.find? fun d => d.id = id

/-- The devices with the bytes of one of them replaced. -/
def setDevice (id : BitVec 16) (bytes : List Byte) : List StorageDevice → List StorageDevice
  | [] => []
  | d :: ds => if d.id = id then { d with bytes := bytes } :: ds else d :: setDevice id bytes ds

/-- The flags of RGP1 are not one of the two operations, or an undefined bit is set (rules R326, R327). Bit 18 is
allowed on LEG64, which ignores it. -/
def storageFlagsBad (rgp1 : Word) : Bool :=
  rgp1.getLsbD 16 = rgp1.getLsbD 17 || bitsFrom rgp1 19 ≠ 0

/-- The data offset on the device (rule R326). -/
def storageOffset (s : State) : Nat :=
  match s.params.variant with
  | .leg32 =>
    if (s.reg .rgp1).getLsbD 18 then (s.reg .rgp5).toNat * 2 ^ 32 + (s.reg .rgp2).toNat else (s.reg .rgp2).toNat
  | .leg64 => (s.reg .rgp2).toNat

/-- The same fault, marked with an Interrupt ID (rule R316). -/
def marked {α : Type} (id : Byte) (x : Res α) : Res α :=
  match x with
  | .raise t s => .raise ⟨t.fault, some id⟩ s
  | x => x

/-- The physical addresses of the `len` bytes at `base` that a transfer reaches with access `acc` (rule R327). -/
def storageAddresses (acc : Access) (base len : Nat) (s : State) : Res (List Nat) :=
  if s.pagingOn && s.params.storageSpace = none then .refuse .storageAddressSpace
  else if len = 0 then .ok [] s
  else if 2 ^ s.params.xlen < base + len then raiseFault .badMemoryReference s
  else if s.pagingOn && s.params.storageSpace = some .logical then resolveBytes acc len base s
  else if inMemory s.params base len then .ok (List.range' base len) s
  else raiseFault .badMemoryReference s

/-- The free bytes of a failed transfer, for `len` places (rule R328, log entry 17). -/
def residueBytes (draw len : Nat) : List Byte := (List.range' 0 len).map (Config.residue draw)

/-- A device's bytes after a failed write of `len` bytes at `off`: those of the range that are on the device are free. -/
def residueOnDevice (draw off len : Nat) (bytes : List Byte) : List Byte :=
  (List.range' 0 bytes.length).map fun i =>
    if off ≤ i ∧ i < off + len then Config.residue draw i else bytes.getD i 0

/-- One free value drawn. -/
def drawOne (s : State) : State := { s with hidden := { s.hidden with draws := s.hidden.draws + 1 } }

/-- The state after a transfer that failed, with the target range free (rule R328, U25). -/
def storageFailed (toMemory : Bool) (d : StorageDevice) (addrs : List Nat) (s : State) : State :=
  let n := s.hidden.draws
  if toMemory then drawOne { s with mem := s.mem.writeAll addrs (residueBytes n addrs.length) }
  else
    drawOne { s with world := { s.world with
      storage := setDevice d.id (residueOnDevice n (storageOffset s) addrs.length d.bytes) s.world.storage } }

/-- The transfer between device `d` and the memory at `addrs`, in increasing address order (rule R328). A length of 0
transfers nothing and succeeds. -/
def storageTransfer (toMemory : Bool) (d : StorageDevice) (addrs : List Nat) (s : State) : Res Unit :=
  let off := storageOffset s
  let len := addrs.length
  if len = 0 then .ok () s
  else if s.world.deviceFails || d.bytes.length < off + len then
    raiseMarked .inputOutput 0x0B (storageFailed toMemory d addrs s)
  else if toMemory then .ok () { s with mem := s.mem.writeAll addrs ((d.bytes.drop off).take len) }
  else
    (readAll addrs s).bind fun bs s =>
      .ok () { s with world := { s.world with
        storage := setDevice d.id (d.bytes.take off ++ bs ++ d.bytes.drop (off + len)) s.world.storage } }

/-- The Storage I/O interrupt: its checks in order, then the transfer (rules R327, R328). -/
def storageIo (s : State) : Res Unit :=
  let g := s.reg .rgp1
  if storageFlagsBad g then raiseMarked .badOperationValue 0x0B s
  else
    match findDevice s.world (g.setWidth 16) with
    | none => raiseMarked .badOperationValue 0x0B s
    | some d =>
      let toMemory := g.getLsbD 16
      (marked 0x0B (storageAddresses (if toMemory then .write else .read) (s.reg .rgp4).toNat
        (s.reg .rgp3).toNat s)).bind fun addrs s => storageTransfer toMemory d addrs s

/-! ### Timer Configuration, 0x0F (rule R331) -/

/-- The granularity a value of RGP2 names (Table 9.1). -/
def granularityOf (g : Word) : Option Granularity :=
  match g.toNat with
  | 0x01 => some .nanoseconds
  | 0x02 => some .microseconds
  | 0x04 => some .milliseconds
  | 0x08 => some .seconds
  | _ => none

/-! ### Implementation-specific interrupts, 21 to 31 (rule R333)

The implementation supplies the routine. What it does in a step is data of the step's tick (`world.routine`), so that a
statement over all states holds for every implementation (log entry 24). -/

/-- The data registers: general purpose, arithmetic logic and floating point (rule R20). -/
def isData (r : Reg) : Bool :=
  [Reg.rgp1, .rgp2, .rgp3, .rgp4, .rgp5, .rgp6, .rgp7, .rgp8, .ral1, .ral2, .ral3, .ral4, .rfp1, .rfp2, .rfp3,
    .rfp4].contains r

/-- What a routine leaves: its writes of data registers, and its bytes at addresses in memory outside the reserved
region (rules R87, R88). -/
def applyRoutine (e : RoutineEffect) (s : State) : State :=
  let cells := e.stores.filter fun c => inMemory s.params c.1 1
  let s1 := setRegs s (e.writes.filter fun x => isData x.1)
  { s1 with mem := s1.mem.writeAll (cells.map Prod.fst) (cells.map Prod.snd) }

/-- Step 1 for a declared interrupt: the fault of its routine, where it raises one (rules R311, R316). -/
def routineCheck (id : Byte) (s : State) : Res Unit :=
  match s.world.routine.fault with
  | some f => raiseMarked f id s
  | none => .ok () s

/-! ### The software interrupt sequence (rule R311) -/

/-- Step 1: the parameter checks of an architecture-specific interrupt with RIP still at the INTR, and the device
operation itself (rules R311, R322 to R331, R333; log entry 16). -/
def intrPrepare (id : Byte) (s : State) : Res Unit :=
  match id.toNat with
  | 0x01 =>
    if (s.reg .rgp1).toNat = 0 ∨ 127 < (s.reg .rgp1).toNat then raiseMarked .badOperationValue 0x01 s
    else if bitsFrom (s.reg .rgp2) 1 ≠ 0 then .refuse .vectorFlags
    else .ok () s
  | 0x0A => displayOutput s
  | 0x0B => storageIo s
  | 0x0F =>
    if 7 < (s.reg .rgp1).toNat ∨ granularityOf (s.reg .rgp2) = none then raiseMarked .badOperationValue 0x0F s
    else .ok () s
  | _ => if isImplInt s.params .software id then routineCheck id s else .ok () s

/-- Step 4: the internal routines that act on the CPU's own state (rules R322, R323, R330, R331), or the
implementation's (rule R333). -/
def intrRoutine (id : Byte) (s : State) : State :=
  match id.toNat with
  | 0x01 =>
    { s with vector := s.vector.setIfInBounds ((s.reg .rgp1).toNat - 1) ⟨s.reg .rgp2, s.reg .rgp3⟩ }
  | 0x03 => s.halt
  | 0x0D =>
    { s with hidden := { s.hidden with
      cache := s.hidden.cache.filter fun c => c.basePhysical ≠ s.reg .rgp1 } }
  | 0x0F =>
    match granularityOf (s.reg .rgp2) with
    | some g => { s with timers := s.timers.setIfInBounds (s.reg .rgp1).toNat (some ⟨g, s.reg .rgp3⟩) }
    | none => s
  | _ => if isImplInt s.params .software id then applyRoutine s.world.routine s else s

/-- The software interrupts that may go to a handler: the user-defined ones and the declared implementation-specific
ones; none of the architecture's own software interrupts is trappable (rules R310, R313). -/
def isTrappable (p : Params) (id : Byte) : Bool := 32 ≤ id.toNat || isImplInt p .software id

/-- Execution goes on at the handler of an Interrupt ID, or where it was if its entry is disabled (rules R311, R312,
R314). -/
def enterHandler (id : Byte) (s : State) : State :=
  let e := vectorEntry s id.toNat
  if e.disabled then s else s.setReg .rip e.handler

/-- Step 5 (rules R311, R313). -/
def intrHandler (id : Byte) (s : State) : State :=
  if isTrappable s.params id then enterHandler id s else s

/-- The sequence of a granted INTR (rule R311). -/
def intrSequence (id : Byte) (next : Word) (s : State) : Res Unit :=
  (intrPrepare id s).bind fun _ s1 =>
    (switchToBase next (s1.setReg .rip next)).bind fun _ s2 =>
      .ok () (intrHandler id (intrRoutine id s2))

/-! ### Hardware interrupts (rules R312, R318) -/

/-- The first request of each ID, in the order they were raised. -/
def firstOfEach : List Request → List Request
  | [] => []
  | r :: rs => r :: (firstOfEach rs).filter fun x => x.id ≠ r.id

/-- The request of the lowest ID, where `r` is the lowest so far. -/
def lowestId (r : Request) : List Request → Request
  | [] => r
  | x :: xs => lowestId (if x.id.toNat < r.id.toNat then x else r) xs

/-- The pending request to deliver (rule R318): of each ID the oldest; among IDs a free choice, or the lowest ID where
HW_PRIORITY says so. -/
def choosePending (p : Params) (pending : List Request) (h : Hidden) : Option (Request × Hidden) :=
  match firstOfEach pending with
  | [] => none
  | [r] => some (r, h)
  | r :: rs =>
    match p.priority with
    | .lowestIdFirst => some (lowestId r rs, h)
    | .none =>
      let (k, h) := pick (rs.length + 1) h
      some ((r :: rs).getD k r, h)

/-- The fault that takes the place of a delivery: a keyboard failure (rule R324), or the fault of an implementation's
routine (rule R333, log entry 24). -/
def deliveryFault (id : Byte) (s : State) : Option ArchFault :=
  if id = 0x09 then if s.world.deviceFails then some .inputOutput else none
  else if isImplInt s.params .hardware id then s.world.routine.fault
  else none

/-- The internal routine of a hardware interrupt: the datum into RGP1 (rules R312, R315), then the implementation's own
effects where it is one of its interrupts (rule R333, log entry 24). -/
def deliveryRoutine (r : Request) (s : State) : State :=
  let s1 := s.setReg .rgp1 r.datum
  if isImplInt s.params .hardware r.id then applyRoutine s.world.routine s1 else s1

/-- The delivery of a request that was removed from the pending set (rule R312): a fault in place of it; else the
context switch, the internal routine, and the handler if one is configured. -/
def deliver (r : Request) (s : State) : Host.Outcome State Fault Refusal :=
  match deliveryFault r.id s with
  | some f => faultEntry ⟨f, some r.id⟩ s
  | none =>
    finish <| (switchToBase (s.reg .rip) s).bind fun _ s1 => .ok () (enterHandler r.id (deliveryRoutine r s1))

/-! ### Events of the outside world (rules R12, R336, R384) -/

/-- A request added to the pending set (rule R56). -/
def addRequest (s : State) (id : Byte) (datum : Word) : State :=
  { s with pending := s.pending ++ [⟨id, toWord s.params datum.toNat⟩] }

/-- What one event adds to the state. An expiry of an inactive timer and a request of an undeclared interrupt do not
occur (rules R333, R336); bad hardware is taken by the cycle. -/
def arrive (s : State) (e : HostEvent) : State :=
  match e with
  | .key d => addRequest s 0x09 d
  | .timerExpiry t =>
    match s.timers[t.val] with
    | none => s
    | some _ => addRequest { s with timers := s.timers.setIfInBounds t.val none } 0x10 (BitVec.ofNat 64 t.val)
  | .implRequest id d => if isImplInt s.params .hardware id then addRequest s id d else s
  | .badHardware => s

end Sys2Proof.Machine
end

