-- ==== Sys2Proof/Machine/System.lean ====
section
/-! DEFINITION. The system instructions INTR, CEB, NOP and LTSK (43_system.md). -/

namespace Sys2Proof.Machine

/-- INTR: the validation, with RIP at the INTR, then the sequence (rules R250, R251, R311). -/
def execIntr (id : Byte) (s : State) : Host.Outcome State Fault Refusal :=
  finish <| (nextPc 0 s).bind fun next s =>
    match intrFault s id with
    | some t => .raise t s
    | none => intrSequence id next s

/-! ### CEB -/

/-- CEB on the block from `start` to `stop` (rules R254 to R256): the checks, then the refusal; with the CEB switch on,
the block runs sequentially, which is a jump to its start (log entry 14). -/
def cebBlock (start stop : Word) (s : State) : Res Unit :=
  if stop.toNat ≤ start.toNat then raiseFault .illegalInstruction s
  else if start.toNat % 4 ≠ 0 then raiseFault .illegalInstruction s
  else
    match s.params.ceb with
    | .refuse => .refuse .cebBlock
    | .sequential => .ok () (s.setReg .rip start)

/-- CEB, both bounds in extension words (rule R254). -/
def execCebFmm (n k : Word) (s : State) : Host.Outcome State Fault Refusal :=
  finish <| (nextPc 2 s).bind fun _ s => cebBlock n k s

/-- CEB, start in a register, end in an extension word (rule R254). -/
def execCebFrm (rs : Reg) (n : Word) (s : State) : Host.Outcome State Fault Refusal :=
  finish <| (nextPc 1 s).bind fun _ s => cebBlock (s.reg rs) n s

/-- CEB, start in an extension word, end in a register (rule R254). -/
def execCebFmr (n : Word) (rt : Reg) (s : State) : Host.Outcome State Fault Refusal :=
  finish <| (nextPc 1 s).bind fun _ s => cebBlock n (s.reg rt) s

/-- CEB, both bounds in registers (rule R254). -/
def execCebFrr (rs rt : Reg) (s : State) : Host.Outcome State Fault Refusal :=
  finish <| (nextPc 0 s).bind fun _ s => cebBlock (s.reg rs) (s.reg rt) s

/-! ### NOP and LTSK -/

/-- NOP (rule R257). -/
def execNop (s : State) : Host.Outcome State Fault Refusal :=
  finish <| (nextPc 0 s).bind fun next s => .ok () (s.setReg .rip next)

/-- LTSK (rule R260): the privilege check comes before the test of RST bit 2. -/
def execLtsk (s : State) : Host.Outcome State Fault Refusal :=
  finish <| (nextPc 0 s).bind fun next s =>
    if s.level1 then raiseFault .privilege s
    else if s.tasksOn then loadTask next s
    else .ok () (s.setReg .rip next)

end Sys2Proof.Machine
end

