-- ==== Sys2Proof/Machine/Dispatch.lean ====
section
/-! DEFINITION. The meaning of each instruction, one arm per constructor. -/

namespace Sys2Proof.Machine

def exec (i : Instr) (s : State) : Host.Outcome State Fault Refusal :=
  match i with
  | .cpvrFrm rs n => Sys2Proof.Machine.execCpvrFrm rs n s
  | .cpvrFrr rs rt => Sys2Proof.Machine.execCpvrFrr rs rt s
  | .cpvlFmm n k => Sys2Proof.Machine.execCpvlFmm n k s
  | .cpvlFmr n rt => Sys2Proof.Machine.execCpvlFmr n rt s
  | .cprFmm n k => Sys2Proof.Machine.execCprFmm n k s
  | .cprFrm rs n => Sys2Proof.Machine.execCprFrm rs n s
  | .cprFmr n rt => Sys2Proof.Machine.execCprFmr n rt s
  | .cprFrr rs rt => Sys2Proof.Machine.execCprFrr rs rt s
  | .cprr rs rt => Sys2Proof.Machine.execCprr rs rt s
  | .cmp rs rt => Sys2Proof.Machine.execCmp rs rt s
  | .jmpFm n => Sys2Proof.Machine.execJmpFm n s
  | .jmpFr rs => Sys2Proof.Machine.execJmpFr rs s
  | .callFm n => Sys2Proof.Machine.execCallFm n s
  | .callFr rs => Sys2Proof.Machine.execCallFr rs s
  | .ret => Sys2Proof.Machine.execRet s
  | .arth rs rt => Sys2Proof.Machine.execArth rs rt s
  | .lgic rs rt => Sys2Proof.Machine.execLgic rs rt s
  | .intr id => Sys2Proof.Machine.execIntr id s
  | .cebFmm n k => Sys2Proof.Machine.execCebFmm n k s
  | .cebFrm rs n => Sys2Proof.Machine.execCebFrm rs n s
  | .cebFmr n rt => Sys2Proof.Machine.execCebFmr n rt s
  | .cebFrr rs rt => Sys2Proof.Machine.execCebFrr rs rt s
  | .nop => Sys2Proof.Machine.execNop s
  | .ltsk => Sys2Proof.Machine.execLtsk s

end Sys2Proof.Machine
end

