-- ==== Sys2Proof/Machine/Fetch.lean ====
section
/-! DEFINITION. Fetching and decoding the instruction at RIP (20_memory.md rule R92, 30_encoding.md rule R142). -/

namespace Sys2Proof.Machine

/-- A fetch of `n` bytes, which needs an alignment of 4 whatever `n` is (rule R84, log entry 19). -/
def fetchValue (a n : Nat) (s : State) : Res Nat := memRead a n 4 .exec s

/-- Fetches `k` extension words of `e` bytes from `a` on, in order (rules R92, R136). The rules write no modulus for the
address of an extension word past the top of the address space; it is taken modulo 2^XLEN (DESIGN CHOICE, log entry
37). -/
def fetchExt (e : Nat) : (k a : Nat) → (s : State) → Res (List Word)
  | 0, _, s => .ok [] s
  | k + 1, a, s =>
    (fetchValue (a % 2 ^ s.params.xlen) e s).bind fun v s =>
      (fetchExt e k (a + e) s).bind fun vs s => .ok (BitVec.ofNat 64 v :: vs) s

/-- The instruction at RIP (rule R142), its fetch and decode faults in the order of rule R147. -/
def fetchInstr (s : State) : Res Instr :=
  let pc := (s.reg .rip).toNat
  (fetchValue pc 4 s).bind fun w s =>
    match decodeHead s.params (BitVec.ofNat 32 w) with
    | .error .illegalInstruction => raiseFault .illegalInstruction s
    | .error .badRegister => raiseFault .badRegisterReference s
    | .error .extWidthOpen => .refuse .extensionWidth
    | .error .truncated => .refuse .extensionWidth
    | .ok i =>
      match i.extWords with
      | 0 => .ok i s
      | k + 1 =>
        match s.params.extBytes with
        | none => .refuse .extensionWidth
        | some e =>
          (fetchExt e (k + 1) (pc + 4) s).bind fun ws s => .ok (i.withExt (ws.getD 0 0) (ws.getD 1 0)) s

end Sys2Proof.Machine
end

