-- ==== Sys2Proof/Machine/Cycle.lean ====
section
/-! DEFINITION. One step of the machine (70_reset_and_hazards.md rule R384), which Machine/Step.lean calls. -/

namespace Sys2Proof.Machine

/-- What the outside world does at this step; past the end of the list nothing happens (log entry 8). -/
def currentTick (s : State) : Tick := s.world.inputs.headD .quiet

/-- The state after the events of this step's tick arrived, in order. -/
def arrivals (s : State) : State :=
  let t := currentTick s
  t.events.foldl arrive { s with
    world := { s.world with inputs := s.world.inputs.tail, deviceFails := t.deviceFails, routine := t.routine } }

/-- Fetch, decode and execute (rules R142, R384); a fetch or decode fault is taken with RIP at the instruction. -/
def runInstr (s : State) : Host.Outcome State Fault Refusal :=
  match fetchInstr s with
  | .ok i s1 => exec i s1
  | .raise t s1 => faultEntry t s1
  | .refuse r => .refused r
  | .stop f => .fault f

/-- A step between two instruction boundaries, once the events arrived: a pending hardware interrupt is delivered if
RST bit 0 is set, and that is the whole step; else an instruction runs (rules R312, R384). -/
def runBoundary (s : State) : Host.Outcome State Fault Refusal :=
  if s.interruptsOn then
    match choosePending s.params s.pending s.hidden with
    | some (r, h) => deliver r { s with pending := s.pending.erase r, hidden := h }
    | none => runInstr s
  else runInstr s

/-- One step (rule R384). A halted CPU does nothing (rule R345); bad hardware is a Machine Check (rule R286). -/
def cycle (s : State) : Host.Outcome State Fault Refusal :=
  if s.halted then .next s
  else if (currentTick s).events.contains .badHardware then faultEntry ⟨.machineCheck, none⟩ (arrivals s)
  else runBoundary (arrivals s)

/-! ### Placing an instruction (for the host's own questions) -/

/-- The physical address the next fetch reads: RIP, translated by the page walk when paging is on. -/
def fetchAddress (s : State) : Nat :=
  let pc := (s.reg .rip).toNat
  if s.pagingOn then
    match walkFromRpa s pc with
    | .found c => (c.basePhysical.toNat + (pc - c.baseLogical.toNat)) % 2 ^ s.params.xlen
    | _ => pc
  else pc

/-- The state with bytes stored where the next fetch reads them, and nothing that keeps the next step from fetching: not
halted, no request pending, no event to come, no stale page copy (log entry 31). -/
def placeInstr (bytes : List Byte) (s : State) : State :=
  { s with
    mem := s.mem.writeAll (List.range' (fetchAddress s) bytes.length) bytes
    halted := false
    pending := []
    hidden := { s.hidden with cache := [] }
    world := { s.world with inputs := [] } }

end Sys2Proof.Machine
end

