-- ==== Sys2Proof/Machine/Step.lean ====
section
/-! DEFINITION. The step function. -/

namespace Sys2Proof.Machine

/-- One step of the machine (rule R384). -/
def step (s : State) : Host.Outcome State Fault Refusal := cycle s

/-- The state with the instruction whose bits are `w`, numbered as opcode_table.json numbers them, stored where the
next step fetches (log entry 31). Bits from `nbits` up are zero. -/
def State.withFetchWord (s : State) (nbits w : Nat) : State :=
  placeInstr (bytesOfTableWord s.params (w % 2 ^ nbits)) s

end Sys2Proof.Machine
end

