-- ==== Sys2Proof/Safety.lean ====
section
/-! DEFINITION. The terms the statements use: the invariant of the machine, what an instruction leaves unchanged, and
what a state must be like for its next step to run a given instruction. -/

namespace Sys2Proof.Machine

/-! ### The invariant -/

/-- A value of XLEN bits (rule R5): on LEG32 its upper half is zero (log entry 1). -/
def fits (p : Params) (v : Word) : Bool := decide (v.toNat < 2 ^ p.xlen)

/-- A page copy holds XLEN-bit values (rule R94). -/
def PageCopy.fits (p : Params) (c : PageCopy) : Bool :=
  Machine.fits p c.baseLogical && Machine.fits p c.basePhysical && Machine.fits p c.size && Machine.fits p c.flags &&
    Machine.fits p c.next && c.previous.all (Machine.fits p)

/-- A vector entry with its reserved flag bits clear (rules R53, R322), and an XLEN-bit handler. -/
def VectorEntry.legal (p : Params) (e : VectorEntry) : Bool :=
  decide (e.flags.toNat ≤ 1) && Machine.fits p e.handler

/-- A request of one of the hardware interrupts there are (rule R56), with an XLEN-bit datum. -/
def Request.legal (p : Params) (r : Request) : Bool :=
  (r.id = 0x09 || r.id = 0x10 || isImplInt p .hardware r.id) && Machine.fits p r.datum

/-- The physical address of a byte software can reach: in memory and outside the reserved region (rules R80, R88). -/
def reachable (p : Params) (a : Nat) : Bool := decide (p.reservedEnd ≤ a) && decide (a < p.memSize)

/-- What holds of every state a run goes through. -/
structure Inv (s : State) : Prop where
  /-- The parameters fit together. -/
  params : s.params.wf = true
  /-- Memory is in its canonical form. -/
  mem : s.mem.wf = true
  /-- No byte outside system memory or in the reserved region holds a value (rules R80, R88). -/
  cells : ∀ c ∈ s.mem, reachable s.params c.1 = true
  /-- Registers are XLEN bits wide (rule R20). -/
  regs : ∀ r : Reg, fits s.params (s.reg r) = true
  /-- No vector entry has a reserved flag (rule R322). -/
  vector : ∀ e ∈ s.vector, e.legal s.params = true
  /-- Times to Expiration are XLEN bits wide (rule R55). -/
  timers : ∀ x ∈ s.timers, ∀ t, x = some t → fits s.params t.tte = true
  /-- Requests are of the hardware interrupts there are (rule R56). -/
  pending : ∀ r ∈ s.pending, r.legal s.params = true
  /-- Cached page copies are XLEN bits wide (rule R58). -/
  cache : ∀ c ∈ s.hidden.cache, c.fits s.params = true

/-! ### Frames -/

/-- What a transition from `s` to `t` leaves unchanged: every register but those listed, every byte of memory but
those at the addresses listed, and all the rest of the machine, but for the page cache and the model's own free
choices (`hidden`), which no program can read. -/
structure Frame (changed : List Reg) (stored : List Nat) (s t : State) : Prop where
  regs : ∀ r, r ∉ changed → t.reg r = s.reg r
  mem : ∀ a, a ∉ stored → t.mem.read? a = s.mem.read? a
  params : t.params = s.params
  vector : t.vector = s.vector
  timers : t.timers = s.timers
  pending : t.pending = s.pending
  halted : t.halted = s.halted
  world : t.world = s.world

/-- The bytes at the addresses are the `n` big-endian bytes of `v` (rule R82). Where one address stands twice in the
list, the later byte is the one that stays, and nothing is said. -/
def bytesAre (s : State) (addrs : List Nat) (n v : Nat) : Prop :=
  addrs.Nodup → addrs.map s.mem.read? = (beBytes n v).map some

/-! ### The register write check (rule R26) -/

/-- An explicit write of `v` to register `r` passes the check of rule R26. -/
abbrev mayWrite (s : State) (r : Reg) (v : Word) : Prop :=
  r ≠ .rip ∧ (s.level1 = true → r ∉ [.rst, .rff, .rfa, .rbt, .rct, .rpa, .rra]) ∧ (r = .rst → v.toNat < 32)

/-! ### Page Structures (rules R94, R95) -/

/-- The Page Structures met on the way from pointer `ptr` to pointer `q` are `cs`: each is in memory, aligned where
MISALIGNED = refuse asks for it, and its bytes hold values (rules R84, R94). Nothing is said of what is at `q`. -/
def pagePath (p : Params) (m : Memory) (q : Nat) : (ptr : Nat) → List PageCopy → Prop
  | ptr, [] => ptr = q
  | ptr, c :: cs =>
    ptr ≠ 0 ∧ (p.misaligned = .refuse → ptr % p.wb = 0) ∧ inMemory p ptr p.pageBytes = true ∧
      readPage m p.wb ptr = .ok c ∧ pagePath p m q c.next.toNat cs

/-- The list of Page Structures from `ptr` to the Next field that is 0 is `cs`. -/
abbrev pageChain (p : Params) (m : Memory) (ptr : Nat) (cs : List PageCopy) : Prop := pagePath p m 0 ptr cs

/-- The addresses of the Page Structures `cs` that are met from `ptr` on. -/
def pagePointers : (ptr : Nat) → List PageCopy → List Nat
  | _, [] => []
  | ptr, c :: cs => ptr :: pagePointers c.next.toNat cs

/-- The page that `c` copies matches the logical address `la`; both bounds are strict (rule R95). -/
def pageMatches (la : Nat) (c : PageCopy) : Bool :=
  decide (c.baseLogical.toNat < la) && decide (la < c.baseLogical.toNat + c.size.toNat)

/-- The flags of page `c` permit an access of kind `acc` (rules R96, R97, R99). -/
abbrev mayAccess (c : PageCopy) (acc : Access) : Prop :=
  let readOnly := c.flags.getLsbD 0 = true
  let readWrite := c.flags.getLsbD 1 = true
  let executable := c.flags.getLsbD 2 = true
  ¬(readOnly ∧ readWrite) ∧ (acc = .read → readOnly ∨ readWrite) ∧ (acc = .write → readWrite) ∧
    (acc = .exec → executable) ∧ (acc = .ras → readOnly)

/-- The copies in the page cache say of address `la` what the list `cs` says: a cached copy that matches is the first
match on the list (rule R100). -/
abbrev cacheCurrent (cached cs : List PageCopy) (la : Nat) : Prop :=
  ∀ q ∈ cached, pageMatches la q = true → cs.find? (pageMatches la) = some q

/-- How an access in state `s` ends, with outcome `x`, where no page on the path `cs` to `q` matches (rules R84, R87,
R95): a pointer of 0 is a Page Fault, a Page Structure outside memory or in the reserved region a Bad Memory Reference
Fault, a misaligned one is refused under the default policy, and a pointer met before makes the lookup never end, which
is a stuck machine (U12; that the model sees it is log entry 21). The range of a Page Structure is all its six fields
(log entry 22). One with a byte that holds no value stops the model (log entry 6). -/
structure NoPage (s : State) (cs : List PageCopy) (q : Nat) (x : Res (List Nat)) : Prop where
  null : q = 0 → x = .raise ⟨.page, none⟩ s
  outside : q ≠ 0 → (s.params.misaligned = .refuse → q % s.params.wb = 0) →
    inMemory s.params q s.params.pageBytes = false → x = .raise ⟨.badMemoryReference, none⟩ s
  misaligned : q ≠ 0 → s.params.misaligned = .refuse → q % s.params.wb ≠ 0 → x = .refuse .misaligned
  loops : q ∈ pagePointers (s.reg .rpa).toNat cs → x = .stop .lookupNeverEnds
  unwritten : ∀ a, q ≠ 0 → (s.params.misaligned = .refuse → q % s.params.wb = 0) →
    inMemory s.params q s.params.pageBytes = true → readPage s.mem s.params.wb q = .error a →
    x = .stop (.uninitializedMemory a)

/-- The physical address page `c` gives a logical address (rule R98). -/
def pageAddress (p : Params) (c : PageCopy) (la : Nat) : Nat :=
  (c.basePhysical.toNat + (la - c.baseLogical.toNat)) % 2 ^ p.xlen

/-- The address of byte `k` of an access at `a`, past the top of the address space at its bottom (log entry 20). -/
def byteAddress (p : Params) (a k : Nat) : Nat := (a + k) % 2 ^ p.xlen

/-! ### Task Structures (rules R50 to R52) -/

/-- The 28 registers as `SaveContext` stores them, with `ripValue` for RIP (rule R51). -/
def savedBytes (s : State) (ripValue : Word) : List Byte :=
  allRegs.flatMap fun r => beBytes s.params.wb (if r = .rip then ripValue else s.reg r).toNat

/-- The memory after a `SaveContext` at physical address `base`. -/
def savedMemory (s : State) (base : Nat) (ripValue : Word) : Memory :=
  s.mem.writeAll (List.range' base (28 * s.params.wb)) (savedBytes s ripValue)

/-- The value in the slot of register `r` of the Task Structure at physical address `base`. -/
def slotValue (p : Params) (m : Memory) (base : Nat) (r : Reg) : Word :=
  BitVec.ofNat 64 (beValue ((List.range' (base + regIndex r * p.wb) p.wb).filterMap m.read?))

/-- The 28 register slots at physical address `base` are aligned, in memory and clear of the reserved region. -/
abbrev taskAt (p : Params) (base : Nat) : Prop := base % p.wb = 0 ∧ inMemory p base (28 * p.wb) = true

/-- The slots of the registers `rs` in the Task Structure at physical address `base` hold values. -/
abbrev slotsHeld (s : State) (base : Nat) (rs : List Reg) : Prop :=
  ∀ r ∈ rs, ∀ a ∈ List.range' (base + regIndex r * s.params.wb) s.params.wb, s.mem.read? a ≠ none

/-- With paging on: the 28 register slots of the Task Structure at logical address `la` lie in page `c` of the list
`cs`, the first match for each of them, which permits the access; `pa` is where they are. -/
structure taskInPage (s : State) (cs : List PageCopy) (c : PageCopy) (acc : Access) (la pa : Nat) : Prop where
  first : ∀ k, k < 28 → cs.find? (pageMatches (la + k * s.params.wb)) = some c
  permitted : mayAccess c acc
  aligned : la % s.params.wb = 0
  inside : la + 28 * s.params.wb ≤ c.baseLogical.toNat + c.size.toNat
  top : la + 28 * s.params.wb ≤ 2 ^ s.params.xlen
  place : pa = pageAddress s.params c la
  memory : inMemory s.params pa (28 * s.params.wb) = true

/-- The context switch that saves at address `saved` and then loads from address `loaded` meets no fault, and finds the
register slots at the physical addresses `ps` and `pl`. With paging on, no Page Structure on the list is overwritten by
the save, and no stale page copy stands in the cache for a slot. -/
def taskPlaces (s : State) (saved loaded : Word) (ps pl : Nat) : Prop :=
  (s.pagingOn = false ∧ ps = saved.toNat ∧ pl = loaded.toNat ∧ taskAt s.params ps ∧ taskAt s.params pl) ∨
  (s.pagingOn = true ∧ ∃ cs c d, pageChain s.params s.mem (s.reg .rpa).toNat cs ∧
    taskInPage s cs c .write saved.toNat ps ∧ taskInPage s cs d .read loaded.toNat pl ∧
    (∀ q ∈ (s.reg .rpa).toNat :: cs.map (fun c => c.next.toNat),
      q + s.params.pageBytes ≤ ps ∨ ps + 28 * s.params.wb ≤ q) ∧
    ∀ k, k < 28 → cacheCurrent (c :: s.hidden.cache) cs (saved.toNat + k * s.params.wb) ∧
      cacheCurrent (c :: s.hidden.cache) cs (loaded.toNat + k * s.params.wb))

/-- The nine registers a Base Task Context load writes (rule R52). -/
abbrev baseControl : List Reg := [.rst, .rfa, .rbt, .rpa, .rra, .rsa, .rcmp, .rlgic, .rarth]

/-- `t` is `s` after the trap-entry context switch (rules R51, R52, R341, R342): all registers are saved at `ps`, with
`ripValue` for RIP; the nine control registers have the values of the structure at `pl`; nothing else is changed but the
registers listed. -/
structure Switched (changed : List Reg) (s : State) (ps pl : Nat) (ripValue : Word) (t : State) : Prop where
  mem : t.mem = savedMemory s ps ripValue
  base : ∀ r ∈ baseControl, t.reg r = slotValue s.params (savedMemory s ps ripValue) pl r
  frame : Frame (changed ++ baseControl) (List.range' ps (28 * s.params.wb)) s t
  cache : t.hidden.cache = []

/-- The base task that a switch at `ps` and `pl` loads is of Privilege Level 1 (rule R341). -/
abbrev baseLevel1 (s : State) (ps pl : Nat) (ripValue : Word) : Prop :=
  (slotValue s.params (savedMemory s ps ripValue) pl .rst).getLsbD 3 = true

/-- The CPU is halted by a Machine Check. -/
abbrev machineChecked (t : State) : Prop := t.halted = true ∧ (t.reg .rff).getLsbD 0 = true

/-- In the context switch that saves at `saved`, with `ripValue` for RIP, and loads the registers `keep` from `loaded`,
an access raises `tr`; `u` is the state it is raised in. -/
def switchFails (s : State) (saved loaded ripValue : Word) (keep : List Reg) (tr : Trap) (u : State) : Prop :=
  saveContext saved ripValue s = .raise tr u ∨
    ∃ s1, saveContext saved ripValue s = .ok () s1 ∧ loadContext loaded keep s1 = .raise tr u

/-- `t` is the halted state that a context switch from `s` leaves when an access in it raises `tr` in state `u`: the
Machine Check bit and the bit of the access's fault are set, and a partial save stays (rule R344, the spec's decision
D11). That RIP stays as it was in `u` is the model's choice (log entry 32). -/
structure SwitchHalts (tr : Trap) (s u t : State) : Prop where
  checked : machineChecked t
  bit : (t.reg .rff).getLsbD (faultBit tr.fault) = true
  partialSave : u = { s with mem := u.mem, hidden := u.hidden }
  frame : Frame [.rff] [] { u with halted := true } t

/-! ### Storage I/O (rule R327) -/

/-- The `len` bytes that a transfer at `base` reaches with access `acc` are at the physical addresses `addrs`; `s1` is
the state once they are resolved. -/
def storagePlaces (s : State) (acc : Access) (base len : Nat) (addrs : List Nat) (s1 : State) : Prop :=
  (len = 0 ∧ (s.pagingOn = true → s.params.storageSpace ≠ none) ∧ addrs = [] ∧ s1 = s) ∨
  ((s.pagingOn = false ∨ s.params.storageSpace = some .physical) ∧ 0 < len ∧
    inMemory s.params base len = true ∧ addrs = List.range' base len ∧ s1 = s) ∨
  (s.pagingOn = true ∧ s.params.storageSpace = some .logical ∧ 0 < len ∧ base + len ≤ 2 ^ s.params.xlen ∧
    resolveBytes acc len base s = .ok addrs s1)

/-! ### Implementation-specific interrupts (rule R333) -/

/-- The implementation declares the ID as an interrupt of this kind. -/
abbrev declared (s : State) (kind : ImplKind) (id : Byte) : Prop :=
  21 ≤ id.toNat ∧ id.toNat ≤ 31 ∧ ⟨id, kind⟩ ∈ s.params.implInts

/-- The registers an implementation's routine may write (log entry 24). -/
abbrev dataRegs : List Reg :=
  [.rgp1, .rgp2, .rgp3, .rgp4, .rgp5, .rgp6, .rgp7, .rgp8, .ral1, .ral2, .ral3, .ral4, .rfp1, .rfp2, .rfp3, .rfp4]

/-- `t` is `v` after the routine with effect `e`, but for RIP: each data register holds the last value the routine
writes to it, and its bytes are stored at the addresses software can reach (log entry 24). -/
structure RoutineRuns (e : RoutineEffect) (v t : State) : Prop where
  regs : ∀ q ∈ dataRegs, t.reg q = match e.writes.reverse.find? (fun x => x.1 = q) with
    | some x => toWord v.params x.2.toNat
    | none => v.reg q
  mem : t.mem = v.mem.writeAll ((e.stores.filter fun c => reachable v.params c.1).map Prod.fst)
    ((e.stores.filter fun c => reachable v.params c.1).map Prod.snd)
  frame : Frame (.rip :: dataRegs) ((e.stores.filter fun c => reachable v.params c.1).map Prod.fst) v t
  hidden : t.hidden = v.hidden

/-! ### Control words (rules R212, R215, R228) -/

/-- Two of the bits `lo` to `hi - 1` of `v` are set. -/
def twoSet (v : Word) (lo hi : Nat) : Prop :=
  ∃ i j, lo ≤ i ∧ i < j ∧ j < hi ∧ v.getLsbD i = true ∧ v.getLsbD j = true

/-- The width flags of a control word, bits 18:16 in place, and the width they select (rule R215). -/
abbrev widthSelected (p : Params) (flags k : Nat) : Prop :=
  (flags = 0 ∧ k = p.xlen) ∨ (flags = 0x10000 ∧ k = 8) ∨ (flags = 0x20000 ∧ k = 16) ∨
    (p.variant = .leg64 ∧ flags = 0x40000 ∧ k = 32)

/-- The low `w` bits of a register as a number, in two's complement where `signed` (rules R215, R216). -/
def operandAt (signed : Bool) (w : Nat) (v : Word) : Int :=
  let u := v.toNat % 2 ^ w
  if signed = true ∧ 2 ^ (w - 1) ≤ u then (u : Int) - 2 ^ w else u

/-- `r` is the exact result of the operation with bit `op` of RARTH on target value `a` and source value `b` (rules
R217 to R221): multiplication, division, subtraction, addition, modulus. -/
abbrev exactResult (op : Nat) (a b r : Int) : Prop :=
  (op = 0 ∧ r = a * b) ∨ (op = 1 ∧ b ≠ 0 ∧ r = a.tdiv b) ∨ (op = 2 ∧ r = a - b) ∨ (op = 3 ∧ r = a + b) ∨
    (op = 4 ∧ b ≠ 0 ∧ r = a.tmod b)

/-- A control word without bits 6 and 7, which ARTH clears (rule R210). -/
def withoutFlags (c : Word) : Word := c &&& ~~~0xC0#64

/-- The word with bit 6 set for an overflow and bit 7 for an underflow (rule R211). -/
def withFlags (c : Word) (ovf unf : Bool) : Word :=
  c ||| (if ovf then 0x40 else 0) ||| (if unf then 0x80 else 0)

/-! ### Before a step -/

/-- The next step runs the instruction at RIP: the CPU is not halted, no bad hardware is reported, and once this
step's events arrived no hardware interrupt is delivered (rules R312, R345, R384). -/
abbrev runsNext (s : State) : Prop :=
  s.halted = false ∧ (currentTick s).events.contains .badHardware = false ∧
    ((arrivals s).interruptsOn = false ∨ (arrivals s).pending = [])

/-- The bytes at physical address `a` on are `bs`, all of them in memory and clear of the reserved region. -/
abbrev holds (s : State) (a : Nat) (bs : List Byte) : Prop :=
  inMemory s.params a bs.length = true ∧ (List.range' a bs.length).map s.mem.read? = bs.map some

/-- `next`, the address after instruction `i` at RIP (rule R29). -/
def nextAddress (s : State) (i : Instr) : Word := toWord s.params ((s.reg .rip).toNat + i.length s.params)

/-- An instruction with extension words has an EXT_BYTES (rule R137); on LEG32 it always has. -/
abbrev extKnown (s : State) : Prop := s.params.extBytes ≠ none

end Sys2Proof.Machine
end

