-- ==== Sys2Proof/Certificates/Slice0/Obligations.lean ====
section
/-! DEFINITION. The statements for the provers, drawn from the numbered rules of spec/. Statements about an
instruction say, for every state and operands that meet their hypotheses, that `exec` answers a next state, what that
state holds, and (`Frame`) what it leaves unchanged. The page cache and the model's free choices (`hidden`) are named
apart: a memory access under paging may change them. -/

open Sys2Proof Sys2Proof.Machine

/-! ### Encoding -/

/-- Table 4.3 (rule R21): the names, the IDs and the order of the registers; a byte is a Register ID exactly when it
is a multiple of 4 up to 0x6C. -/
def Obligations.RegisterIds : Prop :=
  allRegs.map (fun r => (r, regId r)) =
      [(.rip, 0x00), (.rst, 0x04), (.rff, 0x08), (.rfa, 0x0C), (.rbt, 0x10), (.rct, 0x14), (.rpa, 0x18), (.rra, 0x1C),
        (.rsa, 0x20), (.rcmp, 0x24), (.rlgic, 0x28), (.rarth, 0x2C), (.rgp1, 0x30), (.rgp2, 0x34), (.rgp3, 0x38),
        (.rgp4, 0x3C), (.rgp5, 0x40), (.rgp6, 0x44), (.rgp7, 0x48), (.rgp8, 0x4C), (.ral1, 0x50), (.ral2, 0x54),
        (.ral3, 0x58), (.ral4, 0x5C), (.rfp1, 0x60), (.rfp2, 0x64), (.rfp3, 0x68), (.rfp4, 0x6C)] ∧
    (∀ r : Reg, r ∈ allRegs ∧ (regId r).toNat = 4 * regIndex r ∧ regOfId (regId r) = some r) ∧
    ∀ b : Byte, (regOfId b).isSome = true ↔ b.toNat % 4 = 0 ∧ b.toNat ≤ 0x6C

/-- Words of the spec's worked encodings, one of each family, read under the default field order. -/
def Obligations.SampleOpcodeWords : Prop :=
  decode .default [0x00, 0x04, 0x30, 0x01] = .ok (.cpvrFrr .rgp1 .rst, []) ∧
  decode .default [0x00, 0x00, 0x34, 0x01, 0xAA, 0xBB, 0xCC, 0xDD] = .ok (.cpvrFrm .rgp2 0xAABBCCDD, []) ∧
  decode .default [0x00, 0x50, 0x00, 0x02, 0x00, 0x00, 0x00, 0x12] = .ok (.cpvlFmr 0x12 .ral1, []) ∧
  decode .default [0x00, 0x00, 0x00, 0x03, 0x00, 0x00, 0xAA, 0xBB, 0x00, 0x00, 0xCC, 0xDD] =
    .ok (.cprFmm 0xAABB 0xCCDD, []) ∧
  decode .default [0x00, 0x20, 0x38, 0x04] = .ok (.cprr .rgp3 .rsa, []) ∧
  decode .default [0x00, 0x40, 0x54, 0x05] = .ok (.cmp .ral2 .rgp5, []) ∧
  decode .default [0x00, 0x00, 0x4C, 0x06] = .ok (.jmpFr .rgp8, []) ∧
  decode .default [0x00, 0x00, 0x00, 0x07, 0xAA, 0xCC, 0xBB, 0xDD] = .ok (.callFm 0xAACCBBDD, []) ∧
  decode .default [0x00, 0x58, 0x50, 0x09] = .ok (.arth .ral1 .ral3, []) ∧
  decode .default [0x00, 0x54, 0x58, 0x0A] = .ok (.lgic .ral3 .ral2, []) ∧
  decode .default [0x00, 0x00, 0x0A, 0x0B] = .ok (.intr 0x0A, []) ∧
  decode .default [0x00, 0x38, 0x00, 0x0C, 0x00, 0x00, 0x45, 0x67] = .ok (.cebFmr 0x4567 .rgp3, []) ∧
  decode .default [0x00, 0x00, 0x00, 0x0E] = .ok (.ltsk, [])

/-- Decoding the bytes of a well-formed instruction gives it back, with every operand at every value its encoding
admits, under all parameters (rules R134, R136, R140, R153). -/
def Obligations.DecodeOfEncode : Prop :=
  ∀ (p : Params) (i : Instr) (rest : List Byte), i.wf p = true → decode p (encode p i ++ rest) = .ok (i, rest)

/-- Bytes that decode to an instruction are its encoding, and the instruction is well formed: no two words mean the
same (rule R148). -/
def Obligations.EncodeOfDecode : Prop :=
  ∀ (p : Params) (bs rest : List Byte) (i : Instr), decode p bs = .ok (i, rest) →
    i.wf p = true ∧ bs = encode p i ++ rest

/-- A fetched opcode word whose Instruction ID no instruction has is an Illegal Instruction Fault, and one of a row of
rule R140 with a register byte that is no Register ID a Bad Register Reference Fault, taken with RIP at the word (rules
R143, R146). -/
def Obligations.DecodeFaults : Prop :=
  ∀ (s s1 : State) (w : OpWord), runsNext s →
    fetchValue ((arrivals s).reg .rip).toNat 4 (arrivals s) = .ok w.toNat s1 →
    let xx := (opByte w 2).toNat
    let yy := (opByte w 1).toNat
    let zz := (opByte w 0).toNat
    let noRow := opByte w 3 ≠ 0 ∨ (zz = 0x02 ∧ yy ≠ 0) ∨ (zz ∈ [0x06, 0x07, 0x0B] ∧ xx ≠ 0) ∨
      (zz ∈ [0x08, 0x0D, 0x0E] ∧ (xx ≠ 0 ∨ yy ≠ 0)) ∨
      (s.params.fieldOrder = .examples ∧ zz = 0x01 ∧ xx ≠ 0 ∧ yy = 0)
    let badId := fun b : Nat => b % 4 ≠ 0 ∨ 0x6C < b
    (zz = 0 ∨ 0x0E < zz → step s = faultEntry ⟨.illegalInstruction, none⟩ s1) ∧
    (1 ≤ zz → zz ≤ 0x0E → ¬noRow → ((zz ≠ 0x0B ∧ badId yy) ∨ badId xx) →
      step s = faultEntry ⟨.badRegisterReference, none⟩ s1)

/-- A fetched opcode word with a nonzero bit where its format has zeros is an Illegal Instruction Fault (rule R144, the
spec's decision D4); and so is a CPVR between registers whose target byte is 0x00 under the printed field order, which
is the model's choice (log entry 18). -/
def Obligations.NonZeroFormatBits : Prop :=
  ∀ (s s1 : State) (w : OpWord), runsNext s →
    fetchValue ((arrivals s).reg .rip).toNat 4 (arrivals s) = .ok w.toNat s1 →
    let xx := (opByte w 2).toNat
    let yy := (opByte w 1).toNat
    let zz := (opByte w 0).toNat
    opByte w 3 ≠ 0 ∨ (zz = 0x02 ∧ yy ≠ 0) ∨ (zz ∈ [0x06, 0x07, 0x0B] ∧ xx ≠ 0) ∨
      (zz ∈ [0x08, 0x0D, 0x0E] ∧ (xx ≠ 0 ∨ yy ≠ 0)) ∨
      (s.params.fieldOrder = .examples ∧ zz = 0x01 ∧ xx ≠ 0 ∧ yy = 0) →
    step s = faultEntry ⟨.illegalInstruction, none⟩ s1

/-! ### Steps, reset and invariants -/

/-- A step that delivers no interrupt runs the instruction it fetched: whatever the fetch gives, through paging too,
and a fault of the fetch is taken with nothing changed but the page cache; and with paging off, whatever the bytes at
RIP decode to (rules R84, R92, R142, R147, R384). That an extension word of 8 bytes, too, needs an address that is a
multiple of 4 only is read from rule R84 by the model (log entry 19). -/
def Obligations.StepRunsDecoded : Prop :=
  (∀ (s s1 : State) (i : Instr), runsNext s → fetchInstr (arrivals s) = .ok i s1 → step s = exec i s1) ∧
  (∀ (s s1 : State) (tr : Trap), runsNext s → fetchInstr (arrivals s) = .raise tr s1 →
    step s = faultEntry tr s1 ∧ s1 = { arrivals s with hidden := s1.hidden }) ∧
  ∀ (s : State) (bs : List Byte) (i : Instr), s.params.wf = true → runsNext s → (arrivals s).pagingOn = false →
    ((arrivals s).reg .rip).toNat % 4 = 0 → holds (arrivals s) ((arrivals s).reg .rip).toNat bs →
    decode s.params bs = .ok (i, []) → step s = exec i (arrivals s)

/-- The state after CPU initialization (rule R60, the spec's decision D8 where the source is silent), for all
parameters, any boot image, any storage devices and whatever the host then does. `State.reset` is that state under the
default parameters, with no image, no storage device and a host that does nothing: the model's choice (log entries 2,
3, 7, 8 and 27). -/
def Obligations.CpuInitialization : Prop :=
  ∀ (p : Params) (image : List Byte) (storage : List StorageDevice) (inputs : List Tick),
    let s := State.init p image storage inputs
    (s.reg .rip).toNat = (match p.variant with | .leg32 => 0x3F8 | .leg64 => 0x5F4) ∧ s.reg .rst = 0 ∧
    s.reg .rff = 0 ∧ (∀ e ∈ s.vector, e = ⟨0, 0⟩) ∧ (∀ x ∈ s.timers, x = none) ∧ s.pending = [] ∧
    s.halted = false ∧ s.hidden.cache = [] ∧ s.world.storage = storage ∧ s.world.inputs = inputs ∧
    (∀ k, k < image.length → s.mem.read? (p.resetRip + k) = image[k]?) ∧
    (∀ a, a < p.resetRip ∨ p.resetRip + image.length ≤ a → s.mem.read? a = none) ∧
    State.reset = State.init .default [] [] []

/-- The state after reset has the invariant. -/
def Obligations.ResetHasInvariants : Prop := Inv State.reset

/-- Every step keeps the invariant: memory in canonical form and inside what software can reach, registers, vector
entries, timers, requests and page copies XLEN bits wide, no reserved vector flag set, and no request but of the
hardware interrupts there are (rules R20, R53, R55, R56, R58, R80, R88, R322). For the routine of an interrupt the
implementation declares (rule R333), what it may write is the model's choice (log entry 24). -/
def Obligations.StepKeepsInvariants : Prop :=
  ∀ s t : State, Inv s → step s = .next t → Inv t

/-- No step of any kind changes a byte of the reserved region, or a byte outside system memory: not an instruction, not
a context save, not a device transfer (rule R88). That the routine of an interrupt the implementation declares stores to
no such byte either is the model's choice (log entry 24). -/
def Obligations.ReservedRegionKept : Prop :=
  ∀ s t : State, step s = .next t →
    t.params = s.params ∧ ∀ a, a < s.params.reservedEnd ∨ s.params.memSize ≤ a → t.mem.read? a = s.mem.read? a

/-- At Privilege Level 1 with task registers disabled, no step changes the control registers that hold the mode, the
handler address, the task registers and the page list: nothing raises the privilege level (rules R282, R283). The step
may be the delivery of a hardware interrupt the implementation declares (rule R333); that its routine writes none of
these registers is the model's choice (log entry 24). -/
def Obligations.LevelOneControlKept : Prop :=
  ∀ s t : State, s.level1 = true → s.tasksOn = false → step s = .next t →
    ∀ r ∈ [Reg.rst, .rfa, .rbt, .rct, .rpa], t.reg r = s.reg r

/-- Of the instructions, the fault one takes included, INTR 0x01 alone changes the Interrupt Vector, INTR 0x0F alone
the timers, INTR 0x0A alone the display and INTR 0x0B alone the storage devices, each at Privilege Level 0 only, and
none changes the pending requests (rules R53, R55, R56, R251, R322, R325 to R328, R331). Between instructions an
expiry changes a timer (rule R336), which is `EventsBecomeRequests`. That the routine of an INTR the implementation
declares (rule R333) changes none of these is the model's choice (log entry 24). -/
def Obligations.TablesChangeByIntrOnly : Prop :=
  ∀ (i : Instr) (s t : State), exec i s = .next t →
    (i ≠ .intr 0x01 ∨ s.level1 = true → t.vector = s.vector) ∧
    (i ≠ .intr 0x0F ∨ s.level1 = true → t.timers = s.timers) ∧
    (i ≠ .intr 0x0A ∨ s.level1 = true → t.world.display = s.world.display) ∧
    (i ≠ .intr 0x0B ∨ s.level1 = true → t.world.storage = s.world.storage) ∧
    t.pending = s.pending

/-! ### Memory access -/

/-- With paging off, an aligned access is at its own physical address if that is in memory and clear of the reserved
region, and a Bad Memory Reference Fault otherwise; a misaligned one is refused under the default policy (rules R84,
R87, R90). -/
def Obligations.PhysicalAccess : Prop :=
  ∀ (s : State) (a n align : Nat) (acc : Access), s.pagingOn = false →
    (a % align = 0 → s.params.reservedEnd ≤ a → a + n ≤ s.params.memSize →
      resolve a n align acc s = .ok (List.range' a n) s) ∧
    (a % align = 0 → (a < s.params.reservedEnd ∨ s.params.memSize < a + n) →
      resolve a n align acc s = .raise ⟨.badMemoryReference, none⟩ s) ∧
    (a % align ≠ 0 → s.params.misaligned = .refuse → resolve a n align acc s = .refuse .misaligned)

/-- With paging on, a misaligned access is refused under the default policy. An aligned one, with no stale copy in the
page cache for the address, goes through the first Page Structure on the list from RPA whose strict bounds hold the
address, whatever stands after it on the list: a kind of access its flags do not permit is a Page Permission Fault, a
region that ends inside the access is refused, and the translated range is checked like any other. Where no page
matches, the list ends, is broken, or loops, and each is as `NoPage` says (rules R84, R87, R93 to R99; log entry 21
for a loop, 22 for the range of a Page Structure, 6 for one never written). The copy used is cached (rule R100; that
it always is, is the model's choice, log entry 10). -/
def Obligations.PagedAccess : Prop :=
  ∀ (s : State) (la n align : Nat) (acc : Access), s.pagingOn = true →
    (la % align ≠ 0 → s.params.misaligned = .refuse → resolve la n align acc s = .refuse .misaligned) ∧
    ∀ (cs : List PageCopy) (q : Nat), la % align = 0 → pagePath s.params s.mem q (s.reg .rpa).toNat cs →
      cacheCurrent s.hidden.cache cs la →
      (cs.find? (pageMatches la) = none → NoPage s cs q (resolve la n align acc s)) ∧
      ∀ c, cs.find? (pageMatches la) = some c →
        let s' := { s with hidden := cacheAdd s.hidden c }
        let pa := pageAddress s.params c la
        (¬mayAccess c acc → resolve la n align acc s = .raise ⟨.pagePermission, none⟩ s') ∧
        (mayAccess c acc → c.baseLogical.toNat + c.size.toNat < la + n →
          resolve la n align acc s = .refuse .crossesPageRegion) ∧
        (mayAccess c acc → la + n ≤ c.baseLogical.toNat + c.size.toNat →
          (s.params.reservedEnd ≤ pa → pa + n ≤ s.params.memSize →
            resolve la n align acc s = .ok (List.range' pa n) s') ∧
          (pa < s.params.reservedEnd ∨ s.params.memSize < pa + n →
            resolve la n align acc s = .raise ⟨.badMemoryReference, none⟩ s'))

/-- A misaligned access with MISALIGNED = bytes: each byte is translated and checked by itself, in order, and each in
a page of its own; the first byte that fails, be it for no page, for its page's flags or for its physical address, is
how the access ends (rule R84). A byte with no page ends it as `NoPage` says, by a list that ends, is broken or loops
(log entry 21 for a loop, 22 for the range of a Page Structure, 6 for one never written). A byte address past the top
of the address space is taken modulo 2^XLEN: the model's choice (log entry 20). -/
def Obligations.MisalignedBytes : Prop :=
  ∀ (s : State) (a n align : Nat) (acc : Access), s.params.misaligned = .bytes → a % align ≠ 0 →
    a < 2 ^ s.params.xlen →
    (s.pagingOn = false →
      ((∀ k, k < n → reachable s.params (byteAddress s.params a k) = true) →
        resolve a n align acc s = .ok ((List.range n).map (byteAddress s.params a)) s) ∧
      ((∃ k, k < n ∧ reachable s.params (byteAddress s.params a k) = false) →
        resolve a n align acc s = .raise ⟨.badMemoryReference, none⟩ s)) ∧
    (s.pagingOn = true → ∀ (cs : List PageCopy) (q : Nat) (c : Nat → PageCopy) (m : Nat), m ≤ n →
      pagePath s.params s.mem q (s.reg .rpa).toNat cs →
      let la := byteAddress s.params a
      let pa := fun k => pageAddress s.params (c k) (la k)
      let page := fun k => cs.find? (pageMatches (la k))
      (∀ k, k < n → k ≤ m → cacheCurrent (s.hidden.cache ++ (List.range m).map c) cs (la k)) →
      (∀ k, k < m → page k = some (c k) ∧ mayAccess (c k) acc ∧ reachable s.params (pa k) = true) →
      ∃ s', s' = { s with hidden := s'.hidden } ∧
        (m = n → resolve a n align acc s = .ok ((List.range n).map pa) s') ∧
        (m < n → page m = none → NoPage s' cs q (resolve a n align acc s)) ∧
        (m < n → page m = some (c m) → ¬mayAccess (c m) acc →
          resolve a n align acc s = .raise ⟨.pagePermission, none⟩ s') ∧
        (m < n → page m = some (c m) → mayAccess (c m) acc → reachable s.params (pa m) = false →
          resolve a n align acc s = .raise ⟨.badMemoryReference, none⟩ s'))

/-- A lookup that succeeds gives a page whose strict bounds hold the address, and it is the one the walk of the list
finds or a cached copy; one that does not succeed ends as the walk does. Both hold whichever free choices are made, for
whole, broken and looping lists, and the lookup changes the page cache and the free choices only (rules R95, R100). -/
def Obligations.LookupFromListOrCache : Prop :=
  ∀ (s t : State) (la : Nat),
    (∀ c, lookupPage la s = .ok c t → t = { s with hidden := t.hidden } ∧ pageMatches la c = true ∧
      (walkFromRpa s la = .found c ∨ c ∈ s.hidden.cache)) ∧
    (∀ tr, lookupPage la s = .raise tr t → t = { s with hidden := t.hidden } ∧
      ∃ f, walkFromRpa s la = .fault f ∧ tr = ⟨f, none⟩) ∧
    (∀ r, lookupPage la s = .refuse r → walkFromRpa s la = .refused r) ∧
    ∀ f, lookupPage la s = .stop f → walkFromRpa s la = .stopped f

/-! ### Copy instructions -/

/-- CPVR, register to register, and CPVL, literal to register (rules R174, R175). -/
def Obligations.RegisterCopies : Prop :=
  (∀ (s : State) (rs rt : Reg), fits s.params (s.reg rs) = true → mayWrite s rt (s.reg rs) →
    ∃ t, exec (.cpvrFrr rs rt) s = .next t ∧ t.reg rt = s.reg rs ∧
      t.reg .rip = nextAddress s (.cpvrFrr rs rt) ∧ Frame [rt, .rip] [] s t ∧
      t.hidden = (if rt = .rpa then { s.hidden with cache := [] } else s.hidden)) ∧
  ∀ (s : State) (n : Word) (rt : Reg), extKnown s → fits s.params n = true → mayWrite s rt n →
    ∃ t, exec (.cpvlFmr n rt) s = .next t ∧ t.reg rt = n ∧ t.reg .rip = nextAddress s (.cpvlFmr n rt) ∧
      Frame [rt, .rip] [] s t ∧
      t.hidden = (if rt = .rpa then { s.hidden with cache := [] } else s.hidden)

/-- The explicit writes that rule R26 forbids, for the copies to a register, LGIC and ARTH: the fault is taken from the
state before the instruction, but for the page cache after a memory read. -/
def Obligations.ForbiddenWritesFault : Prop :=
  ∀ (s : State) (rt : Reg) (v : Word) (f : ArchFault), extKnown s →
    ((rt = .rip ∧ f = .illegalInstruction) ∨
      (s.level1 = true ∧ rt ∈ [Reg.rst, .rff, .rfa, .rbt, .rct, .rpa, .rra] ∧ f = .privilege) ∨
      (s.level1 = false ∧ rt = .rst ∧ 32 ≤ v.toNat ∧ f = .badRegisterValue)) →
    (∀ rs, s.reg rs = v → exec (.cpvrFrr rs rt) s = faultEntry ⟨f, none⟩ s) ∧
    exec (.cpvlFmr v rt) s = faultEntry ⟨f, none⟩ s ∧
    (∀ n s1, loadWord n .read s = .ok v s1 → exec (.cprFmr n rt) s = faultEntry ⟨f, none⟩ s1) ∧
    (∀ rs s1, isRfp rs = false → loadWord (s.reg rs) .read s = .ok v s1 →
      exec (.cprFrr rs rt) s = faultEntry ⟨f, none⟩ s1) ∧
    (∀ rs, isRfp rs = false → checkRlgic s.params (s.reg .rlgic) = .valid →
      lgicValue s.params (s.reg .rlgic) rs rt (s.reg rt) (s.reg rs) = v →
      exec (.lgic rs rt) s = faultEntry ⟨f, none⟩ s) ∧
    (∀ rs x, isRfp rs = false → checkRarth s.params (s.reg .rarth) = .valid →
      extendedAllowed rs rt (s.reg .rarth) = true →
      arthInteger s.params (s.reg .rarth) rs rt (s.reg rt) (s.reg rs) = some x → x.target = v →
      exec (.arth rs rt) s = faultEntry ⟨f, none⟩ s)

/-- CPVR and CPVL to memory, and CPRR: the whole word is stored, most significant byte first, at the addresses the
target resolves to, and no other byte changes; a target that does not resolve is a fault, taken from the state before
the instruction but for the page cache (rules R82, R174, R175, R177, the spec's decision D6 for short literals). -/
def Obligations.StoresWriteOneWord : Prop :=
  (∀ (s s1 : State) (addrs : List Nat),
    (∀ rs n, extKnown s → isRfp rs = false → resolve n.toNat s.params.wb s.params.wb .write s = .ok addrs s1 →
      ∃ t, exec (.cpvrFrm rs n) s = .next t ∧ bytesAre t addrs s.params.wb (s.reg rs).toNat ∧
        t.reg .rip = nextAddress s (.cpvrFrm rs n) ∧ Frame [.rip] addrs s t ∧ t.hidden = s1.hidden) ∧
    (∀ n k, extKnown s → resolve k.toNat s.params.wb s.params.wb .write s = .ok addrs s1 →
      ∃ t, exec (.cpvlFmm n k) s = .next t ∧ bytesAre t addrs s.params.wb n.toNat ∧
        t.reg .rip = nextAddress s (.cpvlFmm n k) ∧ Frame [.rip] addrs s t ∧ t.hidden = s1.hidden) ∧
    (∀ rs rt, isRfp rs = false → isRfp rt = false →
      resolve (s.reg rt).toNat s.params.wb s.params.wb .write s = .ok addrs s1 →
      ∃ t, exec (.cprr rs rt) s = .next t ∧ bytesAre t addrs s.params.wb (s.reg rs).toNat ∧
        t.reg .rip = nextAddress s (.cprr rs rt) ∧ Frame [.rip] addrs s t ∧ t.hidden = s1.hidden)) ∧
  ∀ (s s1 : State) (tr : Trap),
    (∀ rs n, extKnown s → isRfp rs = false → resolve n.toNat s.params.wb s.params.wb .write s = .raise tr s1 →
      exec (.cpvrFrm rs n) s = faultEntry tr s1 ∧ s1 = { s with hidden := s1.hidden }) ∧
    (∀ n k, extKnown s → resolve k.toNat s.params.wb s.params.wb .write s = .raise tr s1 →
      exec (.cpvlFmm n k) s = faultEntry tr s1 ∧ s1 = { s with hidden := s1.hidden }) ∧
    (∀ rs rt, isRfp rs = false → isRfp rt = false →
      resolve (s.reg rt).toNat s.params.wb s.params.wb .write s = .raise tr s1 →
      exec (.cprr rs rt) s = faultEntry tr s1 ∧ s1 = { s with hidden := s1.hidden })

/-- CPR to a register: the word at the addresses the source resolves to; a source that does not resolve is a fault,
taken from the state before the instruction but for the page cache (rules R82, R176). -/
def Obligations.LoadsReadOneWord : Prop :=
  (∀ (s s1 : State) (addrs : List Nat) (bs : List Byte) (rt : Reg), isRfp rt = false →
    addrs.map s.mem.read? = bs.map some → mayWrite s rt (BitVec.ofNat 64 (beValue bs)) →
    (∀ n, extKnown s → resolve n.toNat s.params.wb s.params.wb .read s = .ok addrs s1 →
      ∃ t, exec (.cprFmr n rt) s = .next t ∧ (t.reg rt).toNat = beValue bs ∧
        t.reg .rip = nextAddress s (.cprFmr n rt) ∧ Frame [rt, .rip] [] s t ∧
        t.hidden = (if rt = .rpa then { s1.hidden with cache := [] } else s1.hidden)) ∧
    (∀ rs, isRfp rs = false → resolve (s.reg rs).toNat s.params.wb s.params.wb .read s = .ok addrs s1 →
      ∃ t, exec (.cprFrr rs rt) s = .next t ∧ (t.reg rt).toNat = beValue bs ∧
        t.reg .rip = nextAddress s (.cprFrr rs rt) ∧ Frame [rt, .rip] [] s t ∧
        t.hidden = (if rt = .rpa then { s1.hidden with cache := [] } else s1.hidden))) ∧
  ∀ (s s1 : State) (rt : Reg) (tr : Trap), isRfp rt = false →
    (∀ n, extKnown s → resolve n.toNat s.params.wb s.params.wb .read s = .raise tr s1 →
      exec (.cprFmr n rt) s = faultEntry tr s1 ∧ s1 = { s with hidden := s1.hidden }) ∧
    (∀ rs, isRfp rs = false → resolve (s.reg rs).toNat s.params.wb s.params.wb .read s = .raise tr s1 →
      exec (.cprFrr rs rt) s = faultEntry tr s1 ∧ s1 = { s with hidden := s1.hidden })

/-- CPR from memory to memory: the word is read before the target is resolved, so a source that does not resolve is the
fault reported, and a target that does not resolve is a fault with nothing written (rules R171, R176). -/
def Obligations.CopiesMoveOneWord : Prop :=
  (∀ (s s1 s2 : State) (src dst : List Nat) (bs : List Byte), src.map s.mem.read? = bs.map some →
    (∀ n k, extKnown s → resolve n.toNat s.params.wb s.params.wb .read s = .ok src s1 →
      resolve k.toNat s.params.wb s.params.wb .write s1 = .ok dst s2 →
      ∃ t, exec (.cprFmm n k) s = .next t ∧ (dst.Nodup → dst.map t.mem.read? = bs.map some) ∧
        t.reg .rip = nextAddress s (.cprFmm n k) ∧ Frame [.rip] dst s t ∧ t.hidden = s2.hidden) ∧
    (∀ rs n, extKnown s → isRfp rs = false → resolve (s.reg rs).toNat s.params.wb s.params.wb .read s = .ok src s1 →
      resolve n.toNat s.params.wb s.params.wb .write s1 = .ok dst s2 →
      ∃ t, exec (.cprFrm rs n) s = .next t ∧ (dst.Nodup → dst.map t.mem.read? = bs.map some) ∧
        t.reg .rip = nextAddress s (.cprFrm rs n) ∧ Frame [.rip] dst s t ∧ t.hidden = s2.hidden)) ∧
  (∀ (s s1 : State) (tr : Trap),
    (∀ n k, extKnown s → resolve n.toNat s.params.wb s.params.wb .read s = .raise tr s1 →
      exec (.cprFmm n k) s = faultEntry tr s1 ∧ s1 = { s with hidden := s1.hidden }) ∧
    (∀ rs n, extKnown s → isRfp rs = false → resolve (s.reg rs).toNat s.params.wb s.params.wb .read s = .raise tr s1 →
      exec (.cprFrm rs n) s = faultEntry tr s1 ∧ s1 = { s with hidden := s1.hidden })) ∧
  ∀ (s s1 s2 : State) (src : List Nat) (bs : List Byte) (tr : Trap), src.map s.mem.read? = bs.map some →
    (∀ n k, extKnown s → resolve n.toNat s.params.wb s.params.wb .read s = .ok src s1 →
      resolve k.toNat s.params.wb s.params.wb .write s1 = .raise tr s2 →
      exec (.cprFmm n k) s = faultEntry tr s2 ∧ s2 = { s with hidden := s2.hidden }) ∧
    (∀ rs n, extKnown s → isRfp rs = false → resolve (s.reg rs).toNat s.params.wb s.params.wb .read s = .ok src s1 →
      resolve n.toNat s.params.wb s.params.wb .write s1 = .raise tr s2 →
      exec (.cprFrm rs n) s = faultEntry tr s2 ∧ s2 = { s with hidden := s2.hidden })

/-- The copy forms and LGIC refuse an RFP register where it would be moved to or from memory, be an address, or be an
operand of a logic operation (rules R173, R228, U3). -/
def Obligations.RfpOperandsRefused : Prop :=
  ∀ (s : State) (rs rt : Reg) (n : Word),
    (isRfp rs = true → extKnown s →
      exec (.cpvrFrm rs n) s = .refused .fpOperand ∧ exec (.cprFrm rs n) s = .refused .fpOperand) ∧
    (isRfp rt = true → extKnown s → exec (.cprFmr n rt) s = .refused .fpOperand) ∧
    (isRfp rs = true ∨ isRfp rt = true →
      exec (.cprFrr rs rt) s = .refused .fpOperand ∧ exec (.cprr rs rt) s = .refused .fpOperand ∧
      (checkRlgic s.params (s.reg .rlgic) = .valid → exec (.lgic rs rt) s = .refused .fpOperand))

/-! ### Comparison and control flow -/

/-- CMP of registers that are not floating point: the selected relations, source REL target, are OR-ed into RCMP bit 0;
the comparison is unsigned, or two's complement with CMP_SIGNED (rule R191). -/
def Obligations.CmpIntegers : Prop :=
  ∀ (s : State) (rs rt : Reg), isRfp rs = false → isRfp rt = false → 2 ≤ (s.reg .rcmp).toNat →
    (s.reg .rcmp).toNat < 32 → fits s.params (s.reg rs) = true → fits s.params (s.reg rt) = true →
    let a := operandAt s.params.cmpSigned s.params.xlen (s.reg rs)
    let b := operandAt s.params.cmpSigned s.params.xlen (s.reg rt)
    let c := s.reg .rcmp
    ∃ t, exec (.cmp rs rt) s = .next t ∧
      ((t.reg .rcmp).getLsbD 0 = true ↔
        (c.getLsbD 1 = true ∧ a ≠ b) ∨ (c.getLsbD 2 = true ∧ a > b) ∨ (c.getLsbD 3 = true ∧ a < b) ∨
          (c.getLsbD 4 = true ∧ a = b)) ∧
      (∀ i, 1 ≤ i → (t.reg .rcmp).getLsbD i = c.getLsbD i) ∧ t.reg .rip = nextAddress s (.cmp rs rt) ∧
      Frame [.rcmp, .rip] [] s t ∧ t.hidden = s.hidden

/-- CMP of two RFP registers, for every FP configuration (rules R191, R226): the configuration's relations, OR-ed. That
the instruction runs at all, on an open configuration, is the model's choice (log entry 12). -/
def Obligations.CmpFloats : Prop :=
  ∀ (s : State) (rs rt : Reg), isRfp rs = true → isRfp rt = true → 2 ≤ (s.reg .rcmp).toNat →
    (s.reg .rcmp).toNat < 32 →
    let rel := fun r => Config.fpRelation s.params.variant r (s.reg rs) (s.reg rt) = true
    let c := s.reg .rcmp
    ∃ t, exec (.cmp rs rt) s = .next t ∧
      ((t.reg .rcmp).getLsbD 0 = true ↔
        (c.getLsbD 1 = true ∧ rel .notEqual) ∨ (c.getLsbD 2 = true ∧ rel .greaterThan) ∨
          (c.getLsbD 3 = true ∧ rel .lesserThan) ∨ (c.getLsbD 4 = true ∧ rel .equal)) ∧
      (∀ i, 1 ≤ i → (t.reg .rcmp).getLsbD i = c.getLsbD i) ∧ t.reg .rip = nextAddress s (.cmp rs rt) ∧
      Frame [.rcmp, .rip] [] s t ∧ t.hidden = s.hidden

/-- Where CMP does not compare: a reserved bit of RCMP is a Bad Register Value Fault, no relation selected is refused,
and so is one RFP operand with one other (rule R191, U4, U5). -/
def Obligations.CmpStops : Prop :=
  ∀ (s : State) (rs rt : Reg),
    (32 ≤ (s.reg .rcmp).toNat → exec (.cmp rs rt) s = faultEntry ⟨.badRegisterValue, none⟩ s) ∧
    ((s.reg .rcmp).toNat < 2 → exec (.cmp rs rt) s = .refused .cmpNoRelation) ∧
    (2 ≤ (s.reg .rcmp).toNat → (s.reg .rcmp).toNat < 32 → isRfp rs ≠ isRfp rt →
      exec (.cmp rs rt) s = .refused .mixedFpOperands)

/-- JMP: taken when RCMP bit 0 is set, else on to the next instruction; the target is not checked (rule R193). -/
def Obligations.JumpIfCompareBit : Prop :=
  ∀ s : State,
    (∀ n, extKnown s → fits s.params n = true → ∃ t, exec (.jmpFm n) s = .next t ∧
      t.reg .rip = (if (s.reg .rcmp).getLsbD 0 then n else nextAddress s (.jmpFm n)) ∧
      Frame [.rip] [] s t ∧ t.hidden = s.hidden) ∧
    (∀ rs, fits s.params (s.reg rs) = true → ∃ t, exec (.jmpFr rs) s = .next t ∧
      t.reg .rip = (if (s.reg .rcmp).getLsbD 0 then s.reg rs else nextAddress s (.jmpFr rs)) ∧
      Frame [.rip] [] s t ∧ t.hidden = s.hidden)

/-- CALL, in its two forms: the address after the instruction is stored where RRA points, RRA grows by WB, and RIP
takes the target, read before RRA changes, whatever RCMP holds; if the store faults, RRA and RIP are unchanged and the
fault is taken at the CALL (rule R196). -/
def Obligations.CallPushesNext : Prop :=
  ∀ (s : State) (i : Instr) (target : Word), fits s.params target = true →
    ((extKnown s ∧ i = .callFm target) ∨ ∃ rs, s.reg rs = target ∧ i = .callFr rs) →
    (∀ addrs s1, resolve (s.reg .rra).toNat s.params.wb s.params.wb .ras s = .ok addrs s1 →
      ∃ t, exec i s = .next t ∧ bytesAre t addrs s.params.wb (nextAddress s i).toNat ∧
        (t.reg .rra).toNat = ((s.reg .rra).toNat + s.params.wb) % 2 ^ s.params.xlen ∧ t.reg .rip = target ∧
        Frame [.rra, .rip] addrs s t ∧ t.hidden = s1.hidden) ∧
    ∀ tr s1, resolve (s.reg .rra).toNat s.params.wb s.params.wb .ras s = .raise tr s1 →
      exec i s = faultEntry tr s1 ∧ s1 = { s with hidden := s1.hidden }

/-- RET: RIP takes the word below RRA, and RRA goes down by WB; if the read faults, RRA and RIP are unchanged (rule
R198, whose clause about the fault is the spec's own inference from rule R10). -/
def Obligations.RetPopsAddress : Prop :=
  ∀ s : State, fits s.params (s.reg .rra) = true →
    ((popAddress s).toNat = (if s.params.wb ≤ (s.reg .rra).toNat then (s.reg .rra).toNat - s.params.wb
      else (s.reg .rra).toNat + 2 ^ s.params.xlen - s.params.wb)) ∧
    (∀ addrs s1 bs, resolve (popAddress s).toNat s.params.wb s.params.wb .ras s = .ok addrs s1 →
      addrs.map s.mem.read? = List.map some bs →
      ∃ t, exec .ret s = .next t ∧ (t.reg .rip).toNat = beValue bs ∧ t.reg .rra = popAddress s ∧
        Frame [.rra, .rip] [] s t ∧ t.hidden = s1.hidden) ∧
    ∀ tr s1, resolve (popAddress s).toNat s.params.wb s.params.wb .ras s = .raise tr s1 →
      exec .ret s = faultEntry tr s1 ∧ s1 = { s with hidden := s1.hidden }

/-- A RET right after a CALL comes back to the instruction after the CALL with RRA and every other register as they were
(rules R196, R198). -/
def Obligations.RetUndoesCall : Prop :=
  ∀ (s : State) (rs : Reg), s.pagingOn = false → fits s.params (s.reg .rra) = true →
    (s.reg .rra).toNat % s.params.wb = 0 → inMemory s.params (s.reg .rra).toNat s.params.wb = true →
    ∃ t u, exec (.callFr rs) s = .next t ∧ exec .ret t = .next u ∧ u.reg .rip = nextAddress s (.callFr rs) ∧
      (∀ r, r ≠ .rip → u.reg r = s.reg r) ∧ ∀ a, u.mem.read? a = t.mem.read? a

/-! ### ARTH and LGIC -/

/-- ARTH on registers that are not floating point, with no extended operand: target OP source on the operands at their
widths, the low bits of the target replaced by the wrapped exact result, overflow and underflow judged at the target's
width, never both (rules R210, R211, R215 to R223). -/
def Obligations.ArthIntegers : Prop :=
  ∀ (s : State) (rs rt : Reg) (op flags k : Nat) (signed : Bool) (r : Int),
    isRfp rs = false → isRfp rt = false → rt ≠ .rarth → fits s.params (s.reg rt) = true →
    (withoutFlags (s.reg .rarth)).toNat = 2 ^ op + (if signed then 32 else 0) + flags → op ≤ 4 →
    widthSelected s.params flags k →
    let w := if isRal rt then k else s.params.xlen
    let b := operandAt signed (if isRal rs then k else s.params.xlen) (s.reg rs)
    exactResult op (operandAt signed w (s.reg rt)) b r →
    let ovf := decide (if signed then (2 : Int) ^ (w - 1) ≤ r else (2 : Int) ^ w ≤ r)
    let unf := decide (if signed then r < -(2 : Int) ^ (w - 1) else r < 0)
    ¬(ovf = true ∧ unf = true) ∧
    ∃ v : Word, (v.toNat % 2 ^ w : Nat) = r % 2 ^ w ∧ v.toNat / 2 ^ w = (s.reg rt).toNat / 2 ^ w ∧
      (mayWrite s rt v → ∃ t, exec (.arth rs rt) s = .next t ∧ t.reg rt = v ∧
        t.reg .rarth = withFlags (withoutFlags (s.reg .rarth)) ovf unf ∧
        t.reg .rip = nextAddress s (.arth rs rt) ∧ Frame [rt, .rarth, .rip] [] s t ∧
        t.hidden = (if rt = .rpa then { s.hidden with cache := [] } else s.hidden))

/-- ARTH on registers that are not floating point, with an extended ALU operand: the low half of the exact result, taken
as 2*XLEN bits, goes to the target and the high half to the extended operand, and neither flag is set (rules R222,
R224). -/
def Obligations.ArthExtendedOperand : Prop :=
  ∀ (s : State) (rs rt e : Reg) (op j : Nat) (signed : Bool) (r : Int),
    isRfp rs = false → isRfp rt = false → rt ≠ .rarth → e ≠ rs → e ≠ rt →
    [Reg.ral1, .ral2, .ral3, .ral4][j]? = some e →
    (withoutFlags (s.reg .rarth)).toNat = 2 ^ op + (if signed then 32 else 0) + 2 ^ (8 + j) → op ≤ 4 →
    exactResult op (operandAt signed s.params.xlen (s.reg rt)) (operandAt signed s.params.xlen (s.reg rs)) r →
    let full := (r % 2 ^ (2 * s.params.xlen)).toNat
    let low := BitVec.ofNat 64 (full % 2 ^ s.params.xlen)
    mayWrite s rt low →
    ∃ t, exec (.arth rs rt) s = .next t ∧ t.reg rt = low ∧
      t.reg e = BitVec.ofNat 64 (full / 2 ^ s.params.xlen) ∧ t.reg .rarth = withoutFlags (s.reg .rarth) ∧
      t.reg .rip = nextAddress s (.arth rs rt) ∧ Frame [rt, e, .rarth, .rip] [] s t ∧
      t.hidden = (if rt = .rpa then { s.hidden with cache := [] } else s.hidden)

/-- The validity of RARTH and of RLGIC, checked by ARTH and by LGIC before their operands (rules R212, R228, the spec's
decision D19): an invalid control word is a Bad Register Value Fault, one that selects no operation is refused. -/
def Obligations.ControlWords : Prop :=
  ∀ (s : State) (rs rt : Reg),
    let c := s.reg .rarth
    let arthInvalid := c.toNat / 2 ^ 19 ≠ 0 ∨ (s.params.variant = .leg32 ∧ c.getLsbD 18 = true) ∨ twoSet c 16 19 ∨
      twoSet c 0 5 ∨ twoSet c 8 16
    let g := s.reg .rlgic
    let lgicInvalid := g.toNat / 2 ^ 19 ≠ 0 ∨ g.toNat / 2 ^ 8 % 2 ^ 8 ≠ 0 ∨
      (s.params.variant = .leg32 ∧ g.getLsbD 18 = true) ∨ twoSet g 16 19 ∨ twoSet g 1 8 ∨
      (g.getLsbD 0 = true ∧ g.toNat / 2 ^ 4 % 2 ^ 4 ≠ 0)
    (arthInvalid → exec (.arth rs rt) s = faultEntry ⟨.badRegisterValue, none⟩ s) ∧
    (¬arthInvalid → c.toNat % 32 = 0 → exec (.arth rs rt) s = .refused .arthNoOperation) ∧
    (¬arthInvalid → c.toNat % 32 ≠ 0 → checkRarth s.params c = .valid) ∧
    (lgicInvalid → exec (.lgic rs rt) s = faultEntry ⟨.badRegisterValue, none⟩ s) ∧
    (¬lgicInvalid → g.toNat % 256 = 0 → exec (.lgic rs rt) s = .refused .lgicNoOperation) ∧
    (¬lgicInvalid → g.toNat % 256 ≠ 0 → checkRlgic s.params g = .valid)

/-- Where ARTH stops under a valid RARTH: the operands it refuses (rules R213, R224, U4, U6, U7); and integer division
and modulus by zero, which raise the Arithmetic Logic Unit Fault with nothing written, whatever registers are named
(rules R220, R221, R294). -/
def Obligations.ArthRefusalsAndDivision : Prop :=
  ∀ (s : State) (rs rt : Reg), checkRarth s.params (s.reg .rarth) = .valid →
    (rt = .rarth → exec (.arth rs rt) s = .refused .arthTargetsRarth) ∧
    (rt ≠ .rarth → isRfp rs ≠ isRfp rt → exec (.arth rs rt) s = .refused .mixedFpOperands) ∧
    (rt ≠ .rarth → isRfp rs = isRfp rt → ∀ j e,
      [Reg.ral1, .ral2, .ral3, .ral4, .rfp1, .rfp2, .rfp3, .rfp4][j]? = some e →
      (s.reg .rarth).getLsbD (8 + j) = true →
      (isRfp e ≠ isRfp rt ∨ (s.reg .rarth).toNat / 2 ^ 16 ≠ 0 ∨ e = rs ∨ e = rt) →
      exec (.arth rs rt) s = .refused .extendedOperand) ∧
    (isRfp rs = false → isRfp rt = false → rt ≠ .rarth → extendedAllowed rs rt (s.reg .rarth) = true →
      ((s.reg .rarth).getLsbD 1 = true ∨ (s.reg .rarth).getLsbD 4 = true) →
      (s.reg rs).toNat % 2 ^ (if isRal rs then flagWidth s.params (s.reg .rarth) else s.params.xlen) = 0 →
      exec (.arth rs rt) s = faultEntry ⟨.arithmeticLogicUnit, none⟩ s)

/-- ARTH on two RFP registers, for every FP configuration (rules R211, R226, R293): division by a zero, and every other
exception the configuration detects, is a Floating Point Unit Fault, not an Arithmetic Logic Unit Fault; else the
configuration's result is in the target, and in the extended operand where one is active; at most one of the two flags
is set (rule R222), none with an extended operand. That the instruction runs on an open configuration is the model's
choice (log entries 12 and 13). -/
def Obligations.ArthFloats : Prop :=
  ∀ (s : State) (rs rt : Reg), isRfp rs = true → isRfp rt = true →
    checkRarth s.params (s.reg .rarth) = .valid → extendedAllowed rs rt (s.reg .rarth) = true →
    let v := s.params.variant
    let c := withoutFlags (s.reg .rarth)
    let a := s.reg rt
    let b := s.reg rs
    if (c.getLsbD 1 = true ∧ Config.fpIsZero v b = true) ∨ Config.fpFaults v c a b = true then
      exec (.arth rs rt) s = faultEntry ⟨.floatingPointUnit, none⟩ s
    else ∃ t, exec (.arth rs rt) s = .next t ∧
      (t.reg rt).toNat = (Config.fpResult v c a b).toNat % 2 ^ s.params.xlen ∧
      t.reg .rip = nextAddress s (.arth rs rt) ∧ t.hidden = s.hidden ∧
      (arthExtended c = none → ∃ ovf unf, ¬(ovf = true ∧ unf = true) ∧ ovf = Config.fpOverflow v c a b ∧
        (ovf = false → unf = Config.fpUnderflow v c a b) ∧
        t.reg .rarth = withFlags c ovf unf ∧ Frame [rt, .rarth, .rip] [] s t) ∧
      ∀ e, arthExtended c = some e →
        (t.reg e).toNat = (Config.fpExtended v c a b).toNat % 2 ^ s.params.xlen ∧
        t.reg .rarth = c ∧ Frame [rt, e, .rarth, .rip] [] s t

/-- LGIC, bit by bit, for the seven bitwise operations: bits above the target's width stay, and a narrower source is
zero-extended (rules R228, R229, R232). -/
def Obligations.LgicBitwise : Prop :=
  ∀ (s : State) (rs rt : Reg) (op flags k : Nat), isRfp rs = false → isRfp rt = false →
    fits s.params (s.reg rt) = true → op ∈ [0x01, 0x02, 0x03, 0x04, 0x05, 0x08, 0x09] →
    (s.reg .rlgic).toNat = op + flags → widthSelected s.params flags k →
    let w := if isRal rt then k else s.params.xlen
    let a := fun i => (s.reg rt).getLsbD i
    let b := fun i => decide (i < if isRal rs then k else s.params.xlen) && (s.reg rs).getLsbD i
    let f := fun i : Nat => match op with
      | 0x01 => !b i
      | 0x02 => xor (a i) (b i)
      | 0x03 => !(xor (a i) (b i))
      | 0x04 => a i && b i
      | 0x05 => !(a i && b i)
      | 0x08 => a i || b i
      | _ => !(a i || b i)
    ∃ v : Word, (∀ i, i < 64 → v.getLsbD i = if i < w then f i else a i) ∧
      (mayWrite s rt v → ∃ t, exec (.lgic rs rt) s = .next t ∧ t.reg rt = v ∧
        t.reg .rip = nextAddress s (.lgic rs rt) ∧ Frame [rt, .rip] [] s t ∧
        t.hidden = (if rt = .rpa then { s.hidden with cache := [] } else s.hidden))

/-- LGIC, bit by bit, for the shifts and rotates: the count is the whole source value; a shift by the width or more
gives 0, a rotate counts modulo the width (rules R228, R230, R231, R232). -/
def Obligations.LgicShiftsRotates : Prop :=
  ∀ (s : State) (rs rt : Reg) (op flags k : Nat), isRfp rs = false → isRfp rt = false →
    fits s.params (s.reg rt) = true → op ∈ [0x10, 0x20, 0x40, 0x80] →
    (s.reg .rlgic).toNat = op + flags → widthSelected s.params flags k →
    let w := if isRal rt then k else s.params.xlen
    let a := fun i => (s.reg rt).getLsbD i
    let n := (s.reg rs).toNat % 2 ^ (if isRal rs then k else s.params.xlen)
    let f := fun i : Nat => match op with
      | 0x10 => decide (n ≤ i) && a (i - n)
      | 0x20 => decide (i + n < w) && a (i + n)
      | 0x40 => a ((i + (w - n % w)) % w)
      | _ => a ((i + n) % w)
    ∃ v : Word, (∀ i, i < 64 → v.getLsbD i = if i < w then f i else a i) ∧
      (mayWrite s rt v → ∃ t, exec (.lgic rs rt) s = .next t ∧ t.reg rt = v ∧
        t.reg .rip = nextAddress s (.lgic rs rt) ∧ Frame [rt, .rip] [] s t ∧
        t.hidden = (if rt = .rpa then { s.hidden with cache := [] } else s.hidden))

/-! ### INTR -/

/-- The faults of the validation of INTR, with RIP at the INTR (rules R251, R316). -/
def Obligations.IntrValidationFaults : Prop :=
  ∀ (s : State) (id : Byte),
    let n := id.toNat
    let known := id ∈ [0x01, 0x03, 0x0A, 0x0B, 0x0D, 0x0F] ∨
      (21 ≤ n ∧ n ≤ 31 ∧ ⟨id, ImplKind.software⟩ ∈ s.params.implInts)
    (n = 0 ∨ 127 < n → exec (.intr id) s = faultEntry ⟨.illegalInterrupt, none⟩ s) ∧
    (1 ≤ n → n ≤ 31 → s.level1 = true → known → exec (.intr id) s = faultEntry ⟨.privilege, some id⟩ s) ∧
    (1 ≤ n → n ≤ 31 → s.level1 = true → ¬known → exec (.intr id) s = faultEntry ⟨.privilege, none⟩ s) ∧
    (1 ≤ n → n ≤ 31 → s.level1 = false → ¬known → exec (.intr id) s = faultEntry ⟨.illegalInterrupt, none⟩ s) ∧
    ∀ e, 32 ≤ n → n ≤ 127 → s.vector[n - 1]? = some e →
      (s.level1 = true → e.flags.getLsbD 0 = false → exec (.intr id) s = faultEntry ⟨.privilege, none⟩ s) ∧
      (s.level1 = false → e = ⟨0, 0⟩ → exec (.intr id) s = faultEntry ⟨.illegalInterrupt, none⟩ s)

/-- INTR of a trappable interrupt with task registers disabled, with nothing saved (rules R251, R310, R311, R317). A
user-defined one goes on at its configured handler. One of the IDs 21 to 31 that the implementation declares (rule R333)
raises the fault of its routine, with the marker and its ID, or the routine runs and execution goes on at the handler if
one is configured, else at the next instruction; what a routine may do is the model's choice (log entry 24). -/
def Obligations.IntrTrappable : Prop :=
  ∀ (s : State) (id : Byte) (e : VectorEntry), s.vector[id.toNat - 1]? = some e → fits s.params e.handler = true →
    (32 ≤ id.toNat → id.toNat ≤ 127 → e ≠ ⟨0, 0⟩ → (s.level1 = true → e.flags.getLsbD 0 = true) → s.tasksOn = false →
      ∃ t, exec (.intr id) s = .next t ∧ t.reg .rip = e.handler ∧ Frame [.rip] [] s t ∧ t.hidden = s.hidden) ∧
    (declared s .software id → s.level1 = false →
      (∀ f, s.world.routine.fault = some f → exec (.intr id) s = faultEntry ⟨f, some id⟩ s) ∧
      (s.world.routine.fault = none → s.tasksOn = false →
        ∃ t, exec (.intr id) s = .next t ∧ RoutineRuns s.world.routine s t ∧
          t.reg .rip = (if e = ⟨0, 0⟩ then nextAddress s (.intr id) else e.handler)))

/-- INTR of a user-defined interrupt with task registers enabled, whether paging is on or off: the system call of rule
R252. All registers are saved at [RCT] with the address after the INTR for RIP, in the addressing mode of the
interrupted context; the nine base registers come from [RBT] in that mode too; the others stay, and execution goes on
at the handler. A base task of level 1 is a Machine Check (rules R51, R52, R311, R341). -/
def Obligations.SystemCallSwitchesTask : Prop :=
  ∀ (s : State) (id : Byte) (e : VectorEntry) (ps pl : Nat), s.params.wf = true → 32 ≤ id.toNat → id.toNat ≤ 127 →
    s.vector[id.toNat - 1]? = some e → e ≠ ⟨0, 0⟩ → (s.level1 = true → e.flags.getLsbD 0 = true) →
    s.tasksOn = true → fits s.params e.handler = true → taskPlaces s (s.reg .rct) (s.reg .rbt) ps pl →
    slotsHeld s pl baseControl →
    let next := nextAddress s (.intr id)
    (¬baseLevel1 s ps pl next → ∃ t, exec (.intr id) s = .next t ∧ t.reg .rip = e.handler ∧
      Switched [.rip] s ps pl next t) ∧
    (baseLevel1 s ps pl next → ∃ t, exec (.intr id) s = .next t ∧ machineChecked t)

/-- INTR of the architecture's own software interrupts, and of those the implementation declares, with task registers
enabled: once step 1 has passed, giving state `u`, the context switch comes before the internal routine, which finds the
general purpose registers as they were; execution goes on after the INTR with the base task's control registers, or at
the handler of a declared ID (rules R311, R322, R323, R325, R330, R331, R333, R341; log entry 16 for what step 1 does of
0x0A and 0x0B, log entry 24 for the declared IDs). -/
def Obligations.ArchInterruptSwitchesTask : Prop :=
  ∀ (s u : State) (id : Byte) (ps pl : Nat), s.params.wf = true → s.level1 = false →
    intrPrepare id s = .ok () u → u.tasksOn = true → taskPlaces u (u.reg .rct) (u.reg .rbt) ps pl →
    slotsHeld u pl baseControl →
    let next := nextAddress s (.intr id)
    (id ∈ [(0x01 : Byte), 0x03, 0x0D, 0x0F] → u = s) ∧
    (id = 0x0A → u = { s with world := { s.world with
      display := s.world.display ++ [BitVec.ofNat 8 (s.reg .rgp1).toNat] } }) ∧
    (id ∈ [(0x01 : Byte), 0x03, 0x0A, 0x0B, 0x0D, 0x0F] → ¬baseLevel1 u ps pl next →
      ∃ t, exec (.intr id) s = .next t ∧ t.reg .rip = next ∧
        Switched [.rip] { u with vector := t.vector, timers := t.timers, halted := t.halted } ps pl next t ∧
        t.halted = (if id = 0x03 then true else u.halted) ∧
        (∀ k, t.vector[k]? = if id = 0x01 ∧ k + 1 = (u.reg .rgp1).toNat then some ⟨u.reg .rgp2, u.reg .rgp3⟩
          else u.vector[k]?) ∧
        (id ≠ 0x0F → t.timers = u.timers) ∧
        ∀ g, id = 0x0F → ((u.reg .rgp2).toNat, g) ∈
            [(0x01, Granularity.nanoseconds), (0x02, .microseconds), (0x04, .milliseconds), (0x08, .seconds)] →
          ∀ k, t.timers[k]? = if k = (u.reg .rgp1).toNat then some (some ⟨g, u.reg .rgp3⟩) else u.timers[k]?) ∧
    (∀ e, declared s .software id → s.vector[id.toNat - 1]? = some e → fits s.params e.handler = true →
      ¬baseLevel1 u ps pl next → u = s ∧ ∃ v t, Switched [.rip] u ps pl next v ∧ exec (.intr id) s = .next t ∧
        RoutineRuns u.world.routine v t ∧ t.reg .rip = (if e = ⟨0, 0⟩ then next else e.handler)) ∧
    (intrFault s id = none → baseLevel1 u ps pl next → ∃ t, exec (.intr id) s = .next t ∧ machineChecked t)

/-- INTR 0x01 (rule R322), task registers disabled. -/
def Obligations.IntrVectorConfiguration : Prop :=
  ∀ s : State, s.level1 = false →
    ((s.reg .rgp1).toNat = 0 ∨ 127 < (s.reg .rgp1).toNat →
      exec (.intr 0x01) s = faultEntry ⟨.badOperationValue, some 0x01⟩ s) ∧
    (1 ≤ (s.reg .rgp1).toNat → (s.reg .rgp1).toNat ≤ 127 → 2 ≤ (s.reg .rgp2).toNat →
      exec (.intr 0x01) s = .refused .vectorFlags) ∧
    (1 ≤ (s.reg .rgp1).toNat → (s.reg .rgp1).toNat ≤ 127 → (s.reg .rgp2).toNat ≤ 1 → s.tasksOn = false →
      ∃ t, exec (.intr 0x01) s = .next t ∧
        t.vector[(s.reg .rgp1).toNat - 1]? = some ⟨s.reg .rgp2, s.reg .rgp3⟩ ∧
        (∀ k, k ≠ (s.reg .rgp1).toNat - 1 → t.vector[k]? = s.vector[k]?) ∧
        t.reg .rip = nextAddress s (.intr 0x01) ∧ Frame [.rip] [] { s with vector := t.vector } t ∧
        t.hidden = s.hidden)

/-- INTR 0x03 halts, and INTR 0x0A sends the low byte of RGP1 to the display or reports the device's failure (rules
R323, R325), task registers disabled. -/
def Obligations.IntrHaltAndDisplay : Prop :=
  ∀ s : State, s.level1 = false →
    (s.tasksOn = false → ∃ t, exec (.intr 0x03) s = .next t ∧ t.halted = true ∧
      t.reg .rip = nextAddress s (.intr 0x03) ∧ Frame [.rip] [] { s with halted := true } t ∧
      t.hidden = s.hidden) ∧
    (s.tasksOn = false → s.world.deviceFails = false → ∃ t, exec (.intr 0x0A) s = .next t ∧
      t.world = { s.world with display := s.world.display ++ [BitVec.ofNat 8 (s.reg .rgp1).toNat] } ∧
      t.reg .rip = nextAddress s (.intr 0x0A) ∧ Frame [.rip] [] { s with world := t.world } t ∧
      t.hidden = s.hidden) ∧
    (s.world.deviceFails = true → exec (.intr 0x0A) s = faultEntry ⟨.inputOutput, some 0x0A⟩ s)

/-- INTR 0x0B, read operation: the bytes of the device go to memory in increasing address order, wherever the target
range lies, in physical memory or, with paging on and STORAGE_ADDR_SPACE = logical, through the page of each byte (rules
R326 to R328). `u` is the state after step 1, which the context switch, if any, starts from. -/
def Obligations.IntrStorageRead : Prop :=
  ∀ (s s1 : State) (d : StorageDevice) (addrs : List Nat),
    let g := s.reg .rgp1
    let len := (s.reg .rgp3).toNat
    let off := (if s.params.variant = .leg32 ∧ g.getLsbD 18 = true then (s.reg .rgp5).toNat * 2 ^ 32 else 0) +
      (s.reg .rgp2).toNat
    s.params.wf = true → s.level1 = false → s.world.deviceFails = false →
    g.getLsbD 16 = true → g.getLsbD 17 = false → g.toNat < 2 ^ 19 →
    s.world.storage.find? (fun x => x.id = BitVec.ofNat 16 g.toNat) = some d →
    storagePlaces s .write (s.reg .rgp4).toNat len addrs s1 → off + len ≤ d.bytes.length →
    ∃ u, intrPrepare 0x0B s = .ok () u ∧
      (addrs.Nodup → addrs.map u.mem.read? = ((d.bytes.drop off).take len).map some) ∧
      Frame [] addrs s u ∧ u.hidden = s1.hidden ∧
      (s.tasksOn = false → exec (.intr 0x0B) s = .next (u.setReg .rip (nextAddress s (.intr 0x0B))))

/-- INTR 0x0B, write operation: the bytes of memory go to the device, and no other device changes, wherever the range in
memory lies (rules R326 to R328). `u` is the state after step 1, which the context switch, if any, starts from. -/
def Obligations.IntrStorageWrite : Prop :=
  ∀ (s s1 : State) (d : StorageDevice) (addrs : List Nat) (bs : List Byte),
    let g := s.reg .rgp1
    let len := (s.reg .rgp3).toNat
    let off := (if s.params.variant = .leg32 ∧ g.getLsbD 18 = true then (s.reg .rgp5).toNat * 2 ^ 32 else 0) +
      (s.reg .rgp2).toNat
    s.params.wf = true → s.level1 = false → s.world.deviceFails = false →
    g.getLsbD 16 = false → g.getLsbD 17 = true → g.toNat < 2 ^ 19 →
    s.world.storage.find? (fun x => x.id = BitVec.ofNat 16 g.toNat) = some d →
    storagePlaces s .read (s.reg .rgp4).toNat len addrs s1 → addrs.map s.mem.read? = bs.map some →
    off + len ≤ d.bytes.length →
    ∃ u d', intrPrepare 0x0B s = .ok () u ∧
      u.world.storage.find? (fun x => x.id = d.id) = some d' ∧
      d'.bytes = d.bytes.take off ++ bs ++ d.bytes.drop (off + len) ∧
      (∀ id, id ≠ d.id → u.world.storage.find? (fun x => x.id = id) = s.world.storage.find? (fun x => x.id = id)) ∧
      u.world = { s.world with storage := u.world.storage } ∧ Frame [] [] { s with world := u.world } u ∧
      u.hidden = s1.hidden ∧
      (s.tasksOn = false → exec (.intr 0x0B) s = .next (u.setReg .rip (nextAddress s (.intr 0x0B))))

/-- Where INTR 0x0B stops: bad flags or an unknown device; with paging on, an address space that is not supplied,
which is refused; a range outside memory, or a byte that does not resolve; and a transfer that fails, after which the
bytes of the target range, in memory or on that device, hold free values and nothing else is changed, whatever those
values are (rules R327, R328, U24, U25). -/
def Obligations.IntrStorageFaults : Prop :=
  ∀ s : State, s.level1 = false →
    let g := s.reg .rgp1
    let base := (s.reg .rgp4).toNat
    let len := (s.reg .rgp3).toNat
    let off := (if s.params.variant = .leg32 ∧ g.getLsbD 18 = true then (s.reg .rgp5).toNat * 2 ^ 32 else 0) +
      (s.reg .rgp2).toNat
    let acc := if g.getLsbD 16 = true then Access.write else .read
    let badFlags := g.getLsbD 16 = g.getLsbD 17 ∨ 2 ^ 19 ≤ g.toNat
    let found := s.world.storage.find? (fun x => x.id = BitVec.ofNat 16 g.toNat)
    (badFlags ∨ found = none → exec (.intr 0x0B) s = faultEntry ⟨.badOperationValue, some 0x0B⟩ s) ∧
    ∀ d, ¬badFlags → found = some d →
      (s.pagingOn = true → s.params.storageSpace = none → exec (.intr 0x0B) s = .refused .storageAddressSpace) ∧
      (0 < len → s.pagingOn = false ∨ s.params.storageSpace = some .physical →
        base < s.params.reservedEnd ∨ s.params.memSize < base + len →
        exec (.intr 0x0B) s = faultEntry ⟨.badMemoryReference, some 0x0B⟩ s) ∧
      (0 < len → s.pagingOn = true → s.params.storageSpace = some .logical → 2 ^ s.params.xlen < base + len →
        exec (.intr 0x0B) s = faultEntry ⟨.badMemoryReference, some 0x0B⟩ s) ∧
      (∀ tr s1, s.pagingOn = true → s.params.storageSpace = some .logical → base + len ≤ 2 ^ s.params.xlen →
        resolveBytes acc len base s = .raise tr s1 →
        exec (.intr 0x0B) s = faultEntry ⟨tr.fault, some 0x0B⟩ s1 ∧ s1 = { s with hidden := s1.hidden }) ∧
      (∀ addrs s1, s.params.wf = true → 0 < len → storagePlaces s acc base len addrs s1 →
        s.world.deviceFails = true ∨ d.bytes.length < off + len →
        ∃ u, exec (.intr 0x0B) s = faultEntry ⟨.inputOutput, some 0x0B⟩ u ∧ u.hidden.cache = s1.hidden.cache ∧
          (g.getLsbD 16 = true → Frame [] addrs s u) ∧
          (g.getLsbD 16 = false → u.world = { s.world with storage := u.world.storage } ∧
            Frame [] [] { s with world := u.world } u ∧
            (∀ id, id ≠ d.id →
              u.world.storage.find? (fun x => x.id = id) = s.world.storage.find? (fun x => x.id = id)) ∧
            ∃ d', u.world.storage.find? (fun x => x.id = d.id) = some d' ∧ d'.bytes.length = d.bytes.length ∧
              ∀ k, k < off ∨ off + len ≤ k → d'.bytes[k]? = d.bytes[k]?))

/-- INTR 0x0D drops exactly the cached page copies whose Base Physical Address is in RGP1, and INTR 0x0F arms a timer or
faults on a bad Timer ID or granularity (rules R330, R331), task registers disabled. -/
def Obligations.IntrPageCacheAndTimer : Prop :=
  ∀ s : State, s.level1 = false →
    (s.tasksOn = false → ∃ t, exec (.intr 0x0D) s = .next t ∧
      t.hidden.cache = s.hidden.cache.filter (fun c => c.basePhysical ≠ s.reg .rgp1) ∧
      t.reg .rip = nextAddress s (.intr 0x0D) ∧ Frame [.rip] [] s t) ∧
    (7 < (s.reg .rgp1).toNat ∨ (s.reg .rgp2).toNat ∉ [0x01, 0x02, 0x04, 0x08] →
      exec (.intr 0x0F) s = faultEntry ⟨.badOperationValue, some 0x0F⟩ s) ∧
    ∀ g, ((s.reg .rgp2).toNat, g) ∈
        [(0x01, Granularity.nanoseconds), (0x02, .microseconds), (0x04, .milliseconds), (0x08, .seconds)] →
      (s.reg .rgp1).toNat ≤ 7 → s.tasksOn = false →
      ∃ t, exec (.intr 0x0F) s = .next t ∧ t.timers[(s.reg .rgp1).toNat]? = some (some ⟨g, s.reg .rgp3⟩) ∧
        (∀ k, k ≠ (s.reg .rgp1).toNat → t.timers[k]? = s.timers[k]?) ∧
        t.reg .rip = nextAddress s (.intr 0x0F) ∧ Frame [.rip] [] { s with timers := t.timers } t ∧
        t.hidden = s.hidden

/-! ### CEB, NOP, LTSK -/

/-- The faults of CEB's range check, for all four forms (rule R255): the end is not above the start, or the start is not
a multiple of 4. -/
def Obligations.CebRangeFaults : Prop :=
  ∀ (s : State) (start stop : Word), extKnown s → (stop.toNat ≤ start.toNat ∨ start.toNat % 4 ≠ 0) →
    exec (.cebFmm start stop) s = faultEntry ⟨.illegalInstruction, none⟩ s ∧
    (∀ rs, s.reg rs = start → exec (.cebFrm rs stop) s = faultEntry ⟨.illegalInstruction, none⟩ s) ∧
    (∀ rt, s.reg rt = stop → exec (.cebFmr start rt) s = faultEntry ⟨.illegalInstruction, none⟩ s) ∧
    (∀ rs rt, s.reg rs = start → s.reg rt = stop →
      exec (.cebFrr rs rt) s = faultEntry ⟨.illegalInstruction, none⟩ s)

/-- CEB past its checks: refused as rule R256 says, or, with the model's CEB switch on, run sequentially, which is a
jump to the start of the block (the switch is the model's choice, log entry 14). -/
def Obligations.CebPastChecks : Prop :=
  ∀ (s : State) (start stop : Word) (i : Instr), extKnown s → start.toNat < stop.toNat → start.toNat % 4 = 0 →
    fits s.params start = true →
    (i = .cebFmm start stop ∨ (∃ rs, s.reg rs = start ∧ i = .cebFrm rs stop) ∨
      (∃ rt, s.reg rt = stop ∧ i = .cebFmr start rt) ∨
      (∃ rs rt, s.reg rs = start ∧ s.reg rt = stop ∧ i = .cebFrr rs rt)) →
    (s.params.ceb = .refuse → exec i s = .refused .cebBlock) ∧
    (s.params.ceb = .sequential →
      ∃ t, exec i s = .next t ∧ t.reg .rip = start ∧ Frame [.rip] [] s t ∧ t.hidden = s.hidden)

/-- NOP advances RIP by 4 modulo 2^XLEN and changes nothing else (rule R257). -/
def Obligations.NopAdvances : Prop :=
  ∀ s : State, ∃ t, exec .nop s = .next t ∧ (t.reg .rip).toNat = ((s.reg .rip).toNat + 4) % 2 ^ s.params.xlen ∧
    Frame [.rip] [] s t ∧ t.hidden = s.hidden

/-- LTSK (rules R51, R52, R260, R343, the spec's decisions D9 and D30): at Privilege Level 1 a Privilege Fault, whether
task registers are enabled or not; with them disabled, the same as NOP; with them enabled, whether paging is on or off,
all registers are saved at [RBT] with the address after the LTSK for RIP, then all 28 are loaded from [RCT], RIP
included, as the memory after the save has them, both in the addressing mode of the task that executes LTSK. -/
def Obligations.LtskLoadsTask : Prop :=
  ∀ s : State,
    (s.level1 = true → exec .ltsk s = faultEntry ⟨.privilege, none⟩ s) ∧
    (s.level1 = false → s.tasksOn = false → ∃ t, exec .ltsk s = .next t ∧
      (t.reg .rip).toNat = ((s.reg .rip).toNat + 4) % 2 ^ s.params.xlen ∧ Frame [.rip] [] s t ∧
      t.hidden = s.hidden) ∧
    (∀ ps pl, s.params.wf = true → s.level1 = false → s.tasksOn = true →
      taskPlaces s (s.reg .rbt) (s.reg .rct) ps pl → slotsHeld s pl allRegs →
      let m := savedMemory s ps (nextAddress s .ltsk)
      ∃ t, exec .ltsk s = .next t ∧ t.mem = m ∧ (∀ r, t.reg r = slotValue s.params m pl r) ∧
        Frame allRegs (List.range' ps (28 * s.params.wb)) s t ∧ t.hidden.cache = [])

/-! ### Taking a fault, and hardware interrupts -/

/-- Fault entry without a context switch (rules R301, R345): the fault's bit of RFF is set, and the marker with its ID
where there is one; a Machine Check or disabled fault handling halts; else, with task registers disabled, execution goes
on at RFA, and nothing is saved. -/
def Obligations.FaultEntryWithoutSwitch : Prop :=
  ∀ (f : ArchFault) (marker : Option Byte) (s : State), fits s.params (s.reg .rff) = true →
    fits s.params (s.reg .rfa) = true →
    let recorded := fun t : State => (t.reg .rff).getLsbD (faultBit f) = true ∧
      (∀ id, marker = some id → (t.reg .rff).getLsbD 13 = true ∧ (t.reg .rff).toNat / 2 ^ 24 % 256 = id.toNat) ∧
      (∀ k, k ≠ faultBit f → (marker = none ∨ (k ≠ 13 ∧ (k < 24 ∨ 32 ≤ k))) →
        (t.reg .rff).getLsbD k = (s.reg .rff).getLsbD k)
    (f = .machineCheck ∨ s.faultsOn = false → ∃ t, faultEntry ⟨f, marker⟩ s = .next t ∧ recorded t ∧
      t.halted = true ∧ Frame [.rff] [] { s with halted := true } t ∧ t.hidden = s.hidden) ∧
    (f ≠ .machineCheck → s.faultsOn = true → s.tasksOn = false → ∃ t, faultEntry ⟨f, marker⟩ s = .next t ∧
      recorded t ∧ t.reg .rip = s.reg .rfa ∧ Frame [.rff, .rip] [] s t ∧ t.hidden = s.hidden)

/-- Fault entry with a context switch, whether paging is on or off (rules R301, R341, R342): all registers, RFF with
its new bit among them, are saved at [RCT] with the address of the faulting instruction for RIP; the nine base
registers come from [RBT]; execution goes on at the RFA just loaded. A base task of level 1 is a Machine Check. -/
def Obligations.FaultEntrySwitchesTask : Prop :=
  ∀ (tr : Trap) (s : State) (ps pl : Nat), tr.fault ≠ .machineCheck → s.params.wf = true → s.faultsOn = true →
    s.tasksOn = true → taskPlaces s (s.reg .rct) (s.reg .rbt) ps pl → slotsHeld s pl baseControl →
    let u := s.recordFault tr
    (¬baseLevel1 u ps pl (s.reg .rip) → ∃ t, faultEntry tr s = .next t ∧ t.reg .rip = t.reg .rfa ∧
      Switched [.rip] u ps pl (s.reg .rip) t) ∧
    (baseLevel1 u ps pl (s.reg .rip) → ∃ t, faultEntry tr s = .next t ∧ machineChecked t ∧
      (t.reg .rff).getLsbD (faultBit tr.fault) = true)

/-- A fault of any memory access of a context switch halts the CPU, with the Machine Check bit and the bit of the
failing access set (rule R344, the spec's decision D11): in fault entry, whose own bit is set as well, in INTR, in the
delivery of a hardware interrupt, and in LTSK. The last two clauses say, with paging off, when an access of the save
or of the load fails: a save whose first slot, or a load any of whose 28 slots, is outside memory. That RIP stays as
it was is the model's choice (log entry 32), and so is that a delivery is a step of its own (log entry 26). -/
def Obligations.ContextSwitchFaultHalts : Prop :=
  (∀ (tr tx : Trap) (s u : State), tr.fault ≠ .machineCheck → s.faultsOn = true → s.tasksOn = true →
    switchFails (s.recordFault tr) (s.reg .rct) (s.reg .rbt) (s.reg .rip) baseControl tx u →
    ∃ t, faultEntry tr s = .next t ∧ SwitchHalts tx (s.recordFault tr) u t ∧
      (t.reg .rff).getLsbD (faultBit tr.fault) = true) ∧
  (∀ (id : Byte) (tx : Trap) (s s1 u : State), intrFault s id = none → intrPrepare id s = .ok () s1 →
    s1.tasksOn = true →
    let next := nextAddress s (.intr id)
    switchFails (s1.setReg .rip next) (s1.reg .rct) (s1.reg .rbt) next baseControl tx u →
    ∃ t, exec (.intr id) s = .next t ∧ SwitchHalts tx (s1.setReg .rip next) u t) ∧
  (∀ (r : Request) (h : Hidden) (tx : Trap) (s u : State), s.halted = false →
    (currentTick s).events.contains .badHardware = false →
    let a := arrivals s
    let b := { a with pending := a.pending.erase r, hidden := h }
    a.interruptsOn = true → choosePending a.params a.pending a.hidden = some (r, h) → a.tasksOn = true →
    (r.id = 0x09 → a.world.deviceFails = false) → (declared a .hardware r.id → a.world.routine.fault = none) →
    switchFails b (a.reg .rct) (a.reg .rbt) (a.reg .rip) baseControl tx u →
    ∃ t, step s = .next t ∧ SwitchHalts tx b u t) ∧
  (∀ (tx : Trap) (s u : State), s.level1 = false → s.tasksOn = true →
    switchFails s (s.reg .rbt) (s.reg .rct) (nextAddress s .ltsk) allRegs tx u →
    ∃ t, exec .ltsk s = .next t ∧ SwitchHalts tx s u t) ∧
  (∀ (s : State) (saved loaded v : Word) (keep : List Reg), s.pagingOn = false → fits s.params saved = true →
    saved.toNat % s.params.wb = 0 → inMemory s.params saved.toNat s.params.wb = false →
    switchFails s saved loaded v keep ⟨.badMemoryReference, none⟩ s) ∧
  (∀ (s : State) (saved loaded v : Word) (keep : List Reg), s.params.wf = true → s.pagingOn = false →
    taskAt s.params saved.toNat → loaded.toNat % s.params.wb = 0 → loaded.toNat + 28 * s.params.wb ≤ 2 ^ s.params.xlen →
    inMemory s.params loaded.toNat (28 * s.params.wb) = false →
    (∀ a ∈ List.range' loaded.toNat (28 * s.params.wb), reachable s.params a = true → s.mem.read? a ≠ none) →
    switchFails s saved loaded v keep ⟨.badMemoryReference, none⟩ { s with mem := savedMemory s saved.toNat v })

/-- RFF accumulates: fault entry, with or without a context switch, sets the fault's bit and clears no bit outside the
Interrupt ID field, bits 31:24, which a fault with an ID overwrites; on LEG64 that is said of the bits above the field
too (rules R299, R303). -/
def Obligations.FaultBitsAccumulate : Prop :=
  ∀ (tr : Trap) (s t : State), faultEntry tr s = .next t →
    (t.reg .rff).getLsbD (faultBit tr.fault) = true ∧
    ∀ k, k < 24 ∨ (32 ≤ k ∧ k < s.params.xlen) → (s.reg .rff).getLsbD k = true → (t.reg .rff).getLsbD k = true

/-- A halted CPU stays as it is, and bad hardware halts it with the Machine Check bit set (rules R286, R345, R384). -/
def Obligations.HaltIsTerminal : Prop :=
  ∀ s : State, (s.halted = true → step s = .next s) ∧
    (s.halted = false → HostEvent.badHardware ∈ (currentTick s).events → ∃ t, step s = .next t ∧ t.halted = true ∧
      (t.reg .rff).getLsbD 0 = true ∧ t.mem = s.mem ∧ ∀ r, r ≠ .rff → t.reg r = s.reg r)

/-- What the outside world's events add: a key press, the expiry of an active timer and a request of a hardware
interrupt that the implementation declares are pending requests, and the timer is then inactive; an expiry of an
inactive timer and a request of an ID that is not declared do not occur (rules R56, R332, R333, R336). -/
def Obligations.EventsBecomeRequests : Prop :=
  ∀ s : State,
    (∀ d, fits s.params d = true → (arrive s (.key d)).pending = s.pending ++ [⟨0x09, d⟩] ∧
      Frame [] [] { s with pending := s.pending ++ [⟨0x09, d⟩] } (arrive s (.key d)) ∧
      (arrive s (.key d)).hidden = s.hidden) ∧
    (∀ (k : Fin 8), s.timers[k] = none → arrive s (.timerExpiry k) = s) ∧
    (∀ (k : Fin 8) (x : Timer), s.timers[k] = some x →
      let t := arrive s (.timerExpiry k)
      t.pending = s.pending ++ [⟨0x10, BitVec.ofNat 64 k.val⟩] ∧ t.timers[k] = none ∧
      (∀ j : Fin 8, j ≠ k → t.timers[j] = s.timers[j]) ∧
      Frame [] [] { s with pending := t.pending, timers := t.timers } t ∧ t.hidden = s.hidden) ∧
    (∀ id d, declared s .hardware id → fits s.params d = true →
      (arrive s (.implRequest id d)).pending = s.pending ++ [⟨id, d⟩] ∧
      Frame [] [] { s with pending := s.pending ++ [⟨id, d⟩] } (arrive s (.implRequest id d)) ∧
      (arrive s (.implRequest id d)).hidden = s.hidden) ∧
    ∀ id d, ¬declared s .hardware id → arrive s (.implRequest id d) = s

/-- Which pending request is delivered: one of them, never a younger one of the same ID, of the lowest ID where
HW_PRIORITY says so, and none only where none is pending, whichever free choices are made (rule R318). -/
def Obligations.PendingChoice : Prop :=
  ∀ (p : Params) (ps : List Request) (h : Hidden),
    (choosePending p ps h = none ↔ ps = []) ∧
    ∀ r h', choosePending p ps h = some (r, h') → ps.find? (fun x => x.id = r.id) = some r ∧
      (p.priority = .lowestIdFirst → ∀ x ∈ ps, r.id.toNat ≤ x.id.toNat)

/-- The delivery of a pending hardware interrupt with task registers disabled: the request chosen leaves the pending
set and no other does, the datum goes to RGP1, and execution goes on at the handler if one is configured, else where
it was; a keyboard failure is a fault in place of the delivery (rules R312, R318, R324). That it is the whole step is
the model's choice (log entry 26). For the IDs 21 to 31 that the implementation declares (rule R333), the datum in
RGP1, the routine's effects after it and its fault in place of the delivery are the model's choice (log entry 24). -/
def Obligations.HardwareDelivery : Prop :=
  ∀ (s : State) (r : Request) (h : Hidden) (e : VectorEntry), s.halted = false →
    (currentTick s).events.contains .badHardware = false →
    let a := arrivals s
    let b := { a with pending := a.pending.erase r, hidden := h }
    a.interruptsOn = true → choosePending a.params a.pending a.hidden = some (r, h) → 1 ≤ r.id.toNat →
    a.vector[r.id.toNat - 1]? = some e → fits a.params r.datum = true → fits a.params e.handler = true →
    let rip := if e = ⟨0, 0⟩ then a.reg .rip else e.handler
    (r.id = 0x09 → a.world.deviceFails = true → step s = faultEntry ⟨.inputOutput, some 0x09⟩ b) ∧
    (∀ f, declared a .hardware r.id → a.world.routine.fault = some f → step s = faultEntry ⟨f, some r.id⟩ b) ∧
    (¬declared a .hardware r.id → (r.id ≠ 0x09 ∨ a.world.deviceFails = false) → a.tasksOn = false →
      ∃ t, step s = .next t ∧ t.reg .rgp1 = r.datum ∧ t.reg .rip = rip ∧ Frame [.rgp1, .rip] [] b t ∧ t.hidden = h) ∧
    (declared a .hardware r.id → a.world.routine.fault = none → a.tasksOn = false →
      ∃ v t, v.reg .rgp1 = r.datum ∧ Frame [.rgp1] [] b v ∧ v.hidden = h ∧ step s = .next t ∧
        RoutineRuns a.world.routine v t ∧ t.reg .rip = rip)

/-- The delivery of a pending hardware interrupt with task registers enabled, whether paging is on or off: all registers
are saved at [RCT] with the address of the instruction that would have run next for RIP, the nine base registers come
from [RBT], then the datum goes to RGP1, and execution goes on at the handler if one is configured; a base task of level
1 is a Machine Check (rules R312, R318, R341, R342). That the delivery is a step of its own is the model's choice (log
entry 26); for the IDs 21 to 31 that the implementation declares (rule R333), so are the datum in RGP1, the routine's
effects after it and the use of the vector entry (log entry 24). -/
def Obligations.HardwareDeliverySwitchesTask : Prop :=
  ∀ (s : State) (r : Request) (h : Hidden) (e : VectorEntry) (ps pl : Nat), s.halted = false →
    (currentTick s).events.contains .badHardware = false →
    let a := arrivals s
    let b := { a with pending := a.pending.erase r, hidden := h }
    a.params.wf = true → a.interruptsOn = true → choosePending a.params a.pending a.hidden = some (r, h) →
    a.tasksOn = true → 1 ≤ r.id.toNat → a.vector[r.id.toNat - 1]? = some e → fits a.params r.datum = true →
    fits a.params e.handler = true → (r.id = 0x09 → a.world.deviceFails = false) →
    (declared a .hardware r.id → a.world.routine.fault = none) →
    taskPlaces b (a.reg .rct) (a.reg .rbt) ps pl → slotsHeld b pl baseControl →
    let rip := if e = ⟨0, 0⟩ then a.reg .rip else e.handler
    (¬declared a .hardware r.id → ¬baseLevel1 b ps pl (a.reg .rip) → ∃ t, step s = .next t ∧ t.reg .rgp1 = r.datum ∧
      t.reg .rip = rip ∧ Switched [.rip, .rgp1] b ps pl (a.reg .rip) t) ∧
    (declared a .hardware r.id → ¬baseLevel1 b ps pl (a.reg .rip) → ∃ v t, v.reg .rgp1 = r.datum ∧
      Switched [.rgp1] b ps pl (a.reg .rip) v ∧ step s = .next t ∧ RoutineRuns a.world.routine v t ∧
      t.reg .rip = rip) ∧
    (baseLevel1 b ps pl (a.reg .rip) → ∃ t, step s = .next t ∧ machineChecked t)
end

