-- ==== Sys2Proof/Laws/State.lean ====
section
/-! SUPPORT. The small lemmas of the state: what each update leaves in each field, and reading a register after a
write. -/

namespace Sys2Proof.Machine

/-! ### Registers -/

@[simp] theorem Regs.get_set_same (g : Regs) (r : Reg) (v : Word) : (g.set r v).get r = v := by
  cases r <;> rfl

theorem Regs.get_set_other (g : Regs) {r q : Reg} (v : Word) (h : q ≠ r) : (g.set r v).get q = g.get q := by
  cases r <;> cases q <;> first | rfl | exact absurd rfl h

@[simp] theorem State.reg_setReg_same (s : State) (r : Reg) (v : Word) :
    (s.setReg r v).reg r = toWord s.params v.toNat := by
  simp [State.reg, State.setReg]

theorem State.reg_setReg_other (s : State) {r q : Reg} (v : Word) (h : q ≠ r) :
    (s.setReg r v).reg q = s.reg q := by
  simp [State.reg, State.setReg, Regs.get_set_other _ _ h]

/-- Reading a register after a write of any register. -/
theorem State.reg_setReg (s : State) (r q : Reg) (v : Word) :
    (s.setReg r v).reg q = if q = r then toWord s.params v.toNat else s.reg q := by
  split
  · next h => subst h; simp
  · next h => exact s.reg_setReg_other v h

/-! ### The other fields after a register write -/

@[simp] theorem State.setReg_params (s : State) (r : Reg) (v : Word) : (s.setReg r v).params = s.params := rfl
@[simp] theorem State.setReg_mem (s : State) (r : Reg) (v : Word) : (s.setReg r v).mem = s.mem := rfl
@[simp] theorem State.setReg_vector (s : State) (r : Reg) (v : Word) : (s.setReg r v).vector = s.vector := rfl
@[simp] theorem State.setReg_timers (s : State) (r : Reg) (v : Word) : (s.setReg r v).timers = s.timers := rfl
@[simp] theorem State.setReg_pending (s : State) (r : Reg) (v : Word) : (s.setReg r v).pending = s.pending := rfl
@[simp] theorem State.setReg_halted (s : State) (r : Reg) (v : Word) : (s.setReg r v).halted = s.halted := rfl
@[simp] theorem State.setReg_world (s : State) (r : Reg) (v : Word) : (s.setReg r v).world = s.world := rfl

/-- A write of any register but RPA leaves the page cache and the free choices as they are (rule R100). -/
theorem State.setReg_hidden (s : State) {r : Reg} (v : Word) (h : r ≠ .rpa) : (s.setReg r v).hidden = s.hidden := by
  cases r <;> first | rfl | exact absurd rfl h

@[simp] theorem State.setReg_rpa_cache (s : State) (v : Word) : (s.setReg .rpa v).hidden.cache = [] := rfl

/-! ### Registers after the other updates -/

@[simp] theorem State.reg_withMem (s : State) (m : Memory) (r : Reg) : ({ s with mem := m } : State).reg r = s.reg r := rfl
@[simp] theorem State.reg_withHidden (s : State) (h : Hidden) (r : Reg) :
    ({ s with hidden := h } : State).reg r = s.reg r := rfl
@[simp] theorem State.reg_withVector (s : State) (v : Vector VectorEntry 127) (r : Reg) :
    ({ s with vector := v } : State).reg r = s.reg r := rfl
@[simp] theorem State.reg_withTimers (s : State) (t : Vector (Option Timer) 8) (r : Reg) :
    ({ s with timers := t } : State).reg r = s.reg r := rfl
@[simp] theorem State.reg_withPending (s : State) (p : List Request) (r : Reg) :
    ({ s with pending := p } : State).reg r = s.reg r := rfl
@[simp] theorem State.reg_withHalted (s : State) (b : Bool) (r : Reg) :
    ({ s with halted := b } : State).reg r = s.reg r := rfl
@[simp] theorem State.reg_withWorld (s : State) (w : World) (r : Reg) :
    ({ s with world := w } : State).reg r = s.reg r := rfl

/-! ### Halting and recording a fault -/

@[simp] theorem State.halt_params (s : State) : s.halt.params = s.params := rfl
@[simp] theorem State.halt_reg (s : State) (r : Reg) : s.halt.reg r = s.reg r := rfl
@[simp] theorem State.halt_mem (s : State) : s.halt.mem = s.mem := rfl
@[simp] theorem State.halt_vector (s : State) : s.halt.vector = s.vector := rfl
@[simp] theorem State.halt_timers (s : State) : s.halt.timers = s.timers := rfl
@[simp] theorem State.halt_pending (s : State) : s.halt.pending = s.pending := rfl
@[simp] theorem State.halt_halted (s : State) : s.halt.halted = true := rfl
@[simp] theorem State.halt_hidden (s : State) : s.halt.hidden = s.hidden := rfl
@[simp] theorem State.halt_world (s : State) : s.halt.world = s.world := rfl

@[simp] theorem State.recordFault_params (s : State) (t : Trap) : (s.recordFault t).params = s.params := rfl
@[simp] theorem State.recordFault_mem (s : State) (t : Trap) : (s.recordFault t).mem = s.mem := rfl
@[simp] theorem State.recordFault_vector (s : State) (t : Trap) : (s.recordFault t).vector = s.vector := rfl
@[simp] theorem State.recordFault_timers (s : State) (t : Trap) : (s.recordFault t).timers = s.timers := rfl
@[simp] theorem State.recordFault_pending (s : State) (t : Trap) : (s.recordFault t).pending = s.pending := rfl
@[simp] theorem State.recordFault_halted (s : State) (t : Trap) : (s.recordFault t).halted = s.halted := rfl
@[simp] theorem State.recordFault_hidden (s : State) (t : Trap) : (s.recordFault t).hidden = s.hidden := rfl
@[simp] theorem State.recordFault_world (s : State) (t : Trap) : (s.recordFault t).world = s.world := rfl

@[simp] theorem State.recordFault_rff (s : State) (t : Trap) :
    (s.recordFault t).reg .rff = toWord s.params (rffWith (s.reg .rff) t).toNat := by
  simp [State.recordFault]

/-- Recording a fault changes RFF alone. -/
theorem State.recordFault_reg (s : State) (t : Trap) {r : Reg} (h : r ≠ .rff) :
    (s.recordFault t).reg r = s.reg r :=
  s.reg_setReg_other _ h

/-! ### Words of XLEN bits -/

theorem xlen_le (p : Params) : p.xlen ≤ 64 := by
  unfold Params.xlen; split <;> decide

theorem xlen_eq_wb (p : Params) : p.xlen = 8 * p.wb := by
  unfold Params.xlen Params.wb; split <;> rfl

theorem wb_pos (p : Params) : 0 < p.wb := by
  unfold Params.wb; split <;> decide

theorem toWord_toNat (p : Params) (n : Nat) : (toWord p n).toNat = n % 2 ^ p.xlen := by
  have h1 : 2 ^ p.xlen ≤ 2 ^ 64 := Nat.pow_le_pow_right (by decide) (xlen_le p)
  have h2 : n % 2 ^ p.xlen < 2 ^ p.xlen := Nat.mod_lt _ (Nat.two_pow_pos _)
  simp only [toWord, BitVec.toNat_ofNat]
  exact Nat.mod_eq_of_lt (by omega)

theorem toWord_lt (p : Params) (n : Nat) : (toWord p n).toNat < 2 ^ p.xlen := by
  rw [toWord_toNat]; exact Nat.mod_lt _ (Nat.two_pow_pos _)

/-- A value that fits in XLEN bits is stored as it is. -/
theorem toWord_of_lt (p : Params) (v : Word) (h : v.toNat < 2 ^ p.xlen) : toWord p v.toNat = v := by
  apply BitVec.eq_of_toNat_eq
  rw [toWord_toNat, Nat.mod_eq_of_lt h]

end Sys2Proof.Machine
end

