-- ==== Sys2Proof/Laws/Res.lean ====
section
/-! SUPPORT. Reasoning about the parts of a step: `Res.bind`, and a predicate on the state carried along. -/

namespace Sys2Proof.Machine

@[simp] theorem Res.bind_ok {α β : Type} (a : α) (s : State) (f : α → State → Res β) : (Res.ok a s).bind f = f a s := rfl
@[simp] theorem Res.bind_raise {α β : Type} (t : Trap) (s : State) (f : α → State → Res β) :
    (Res.raise t s).bind f = .raise t s := rfl
@[simp] theorem Res.bind_refuse {α β : Type} (r : Refusal) (f : α → State → Res β) :
    (Res.refuse r).bind f = .refuse r := rfl
@[simp] theorem Res.bind_stop {α β : Type} (e : Fault) (f : α → State → Res β) : (Res.stop e).bind f = .stop e := rfl

/-- A sequence that went on went on in both of its parts. -/
theorem Res.bind_eq_ok {α β : Type} {x : Res α} {f : α → State → Res β} {b : β} {s' : State} :
    x.bind f = .ok b s' ↔ ∃ a s, x = .ok a s ∧ f a s = .ok b s' := by
  cases x <;> simp [Res.bind]

theorem Res.bind_assoc {α β γ : Type} (x : Res α) (f : α → State → Res β) (g : β → State → Res γ) :
    (x.bind f).bind g = x.bind fun a s => (f a s).bind g := by
  cases x <;> rfl

/-- `P` holds of the state in which a part of a step goes on or raises a fault. -/
def Res.All {α : Type} (P : State → Prop) (x : Res α) : Prop :=
  match x with
  | .ok _ s => P s
  | .raise _ s => P s
  | .refuse _ => True
  | .stop _ => True

@[simp] theorem Res.all_ok {α : Type} (P : State → Prop) (a : α) (s : State) : (Res.ok a s).All P ↔ P s := Iff.rfl
@[simp] theorem Res.all_raise {α : Type} (P : State → Prop) (t : Trap) (s : State) :
    (Res.raise t s : Res α).All P ↔ P s := Iff.rfl
@[simp] theorem Res.all_raiseFault {α : Type} (P : State → Prop) (f : ArchFault) (s : State) :
    (raiseFault f s : Res α).All P ↔ P s := Iff.rfl
@[simp] theorem Res.all_raiseMarked {α : Type} (P : State → Prop) (f : ArchFault) (id : Byte) (s : State) :
    (raiseMarked f id s : Res α).All P ↔ P s := Iff.rfl
@[simp] theorem Res.all_refuse {α : Type} (P : State → Prop) (r : Refusal) : (Res.refuse r : Res α).All P := trivial
@[simp] theorem Res.all_stop {α : Type} (P : State → Prop) (f : Fault) : (Res.stop f : Res α).All P := trivial

/-- `P` holds at the end of a sequence if it holds after the first part and the second part keeps it. -/
theorem Res.All.bind {α β : Type} {P Q : State → Prop} {x : Res α} {f : α → State → Res β}
    (hx : x.All P) (hok : ∀ a s, P s → (f a s).All Q) (hraise : ∀ s, P s → Q s) : (x.bind f).All Q := by
  cases x with
  | ok a s => exact hok a s hx
  | raise t s => exact hraise s hx
  | refuse r => trivial
  | stop e => trivial

/-- The same with one predicate. -/
theorem Res.All.bind_same {α β : Type} {P : State → Prop} {x : Res α} {f : α → State → Res β}
    (hx : x.All P) (hok : ∀ a s, P s → (f a s).All P) : (x.bind f).All P :=
  Res.All.bind hx hok fun _ h => h

/-- The sequence's second part may use that the first went on with `a` in `s`. -/
theorem Res.All.bind_eq {α β : Type} {P : State → Prop} {x : Res α} {f : α → State → Res β}
    (hx : x.All P) (hok : ∀ a s, x = .ok a s → P s → (f a s).All P) : (x.bind f).All P := by
  cases x with
  | ok a s => exact hok a s rfl hx
  | raise t s => exact hx
  | refuse r => trivial
  | stop e => trivial

theorem Res.All.imp {α : Type} {P Q : State → Prop} {x : Res α} (hx : x.All P) (h : ∀ s, P s → Q s) : x.All Q := by
  cases x with
  | ok a s => exact h s hx
  | raise t s => exact h s hx
  | refuse r => trivial
  | stop e => trivial

theorem Res.All.of_ok {α : Type} {P : State → Prop} {x : Res α} {a : α} {s : State} (hx : x.All P) (h : x = .ok a s) :
    P s := by
  subst h; exact hx

end Sys2Proof.Machine
end

