-- ==== Sys2Proof/Laws/Memory.lean ====
section
/-! SUPPORT. Bytes and memory: reading after writing, the canonical form, and big-endian values. -/

namespace Sys2Proof

/-! ### Big-endian values (rule R82) -/

@[simp] theorem beBytes_length (n v : Nat) : (beBytes n v).length = n := by
  induction n with
  | zero => rfl
  | succ n ih => simp [beBytes, ih]

theorem beValue_foldl (bs : List Byte) (acc : Nat) :
    bs.foldl (fun acc b => acc * 256 + b.toNat) acc = acc * 256 ^ bs.length + beValue bs := by
  induction bs generalizing acc with
  | nil => simp [beValue]
  | cons b bs ih =>
    have h0 : beValue (b :: bs) = (0 * 256 + b.toNat) * 256 ^ bs.length + beValue bs := by
      rw [← ih]; rfl
    rw [List.foldl_cons, ih, h0, List.length_cons, pow_succ]
    ring

theorem beValue_cons (b : Byte) (bs : List Byte) : beValue (b :: bs) = b.toNat * 256 ^ bs.length + beValue bs := by
  have h := beValue_foldl bs (0 * 256 + b.toNat)
  simpa [beValue] using h

theorem beValue_lt (bs : List Byte) : beValue bs < 256 ^ bs.length := by
  induction bs with
  | nil => simp [beValue]
  | cons b bs ih =>
    rw [beValue_cons, List.length_cons, pow_succ]
    have hb := b.isLt
    nlinarith

theorem beValue_beBytes_mod (n v : Nat) : beValue (beBytes n v) = v % 256 ^ n := by
  induction n with
  | zero => simp [beBytes, beValue, Nat.mod_one]
  | succ n ih =>
    have hm : v % 256 ^ (n + 1) = v % 256 ^ n + 256 ^ n * (v / 256 ^ n % 256) := by rw [pow_succ, Nat.mod_mul]
    rw [hm, beBytes, beValue_cons, ih, beBytes_length, BitVec.toNat_ofNat, Nat.shiftRight_eq_div_pow,
      show (2 : Nat) ^ (8 * n) = 256 ^ n by rw [pow_mul]; norm_num, Nat.add_comm, Nat.mul_comm (256 ^ n)]

theorem beValue_beBytes {n v : Nat} (h : v < 256 ^ n) : beValue (beBytes n v) = v := by
  rw [beValue_beBytes_mod, Nat.mod_eq_of_lt h]

theorem beBytes_mod (n v : Nat) {k : Nat} (hk : n ≤ k) : beBytes n (v % 256 ^ k) = beBytes n v := by
  induction n with
  | zero => rfl
  | succ n ih =>
    rw [beBytes, beBytes, ih (by omega)]
    congr 1
    apply BitVec.eq_of_toNat_eq
    have e : (256 : Nat) ^ k = 2 ^ (8 * n) * (256 * 2 ^ (8 * (k - n - 1))) := by
      rw [show (256 : Nat) = 2 ^ 8 by norm_num, ← pow_mul, ← pow_add, ← pow_add]; congr 1; omega
    rw [BitVec.toNat_ofNat, BitVec.toNat_ofNat, Nat.shiftRight_eq_div_pow, Nat.shiftRight_eq_div_pow, e,
      Nat.mod_mul_right_div_self]
    exact Nat.mod_mul_right_mod _ _ _

theorem beBytes_beValue (bs : List Byte) : beBytes bs.length (beValue bs) = bs := by
  induction bs with
  | nil => rfl
  | cons b bs ih =>
    have hlt := beValue_lt bs
    rw [List.length_cons, beBytes]
    congr 1
    · apply BitVec.eq_of_toNat_eq
      rw [beValue_cons, BitVec.toNat_ofNat, Nat.shiftRight_eq_div_pow,
        show (2 : Nat) ^ (8 * bs.length) = 256 ^ bs.length by rw [pow_mul]; norm_num,
        Nat.mul_comm, Nat.mul_add_div (by positivity), Nat.div_eq_of_lt hlt]
      exact Nat.mod_eq_of_lt (by simpa using b.isLt)
    · rw [← beBytes_mod _ _ (Nat.le_refl _), beValue_cons, Nat.add_comm, Nat.add_mul_mod_self_right, Nat.mod_eq_of_lt hlt, ih]

namespace Machine

/-! ### One byte -/

@[simp] theorem Memory.read?_write_same (m : Memory) (a : Nat) (b : Byte) : (m.write a b).read? a = some b := by
  induction m with
  | nil => simp [Memory.write, Memory.read?]
  | cons c m ih =>
    obtain ⟨k, x⟩ := c
    simp only [Memory.write]
    split
    · simp [Memory.read?]
    · split
      · simp [Memory.read?]
      · next h1 h2 => simp [Memory.read?, Ne.symm h2, ih]

theorem Memory.read?_write_other (m : Memory) {a x : Nat} (b : Byte) (h : x ≠ a) :
    (m.write a b).read? x = m.read? x := by
  induction m with
  | nil => simp [Memory.write, Memory.read?, Ne.symm h]
  | cons c m ih =>
    obtain ⟨k, y⟩ := c
    simp only [Memory.write]
    split
    · simp [Memory.read?, Ne.symm h]
    · split
      · next h1 h2 => subst h2; simp [Memory.read?, Ne.symm h]
      · simp only [Memory.read?, ih]

/-! ### Bytes written in order -/

/-- A byte outside the addresses written stays. -/
theorem Memory.read?_writeAll_other (m : Memory) (addrs : List Nat) (bs : List Byte) {x : Nat} (h : x ∉ addrs) :
    (m.writeAll addrs bs).read? x = m.read? x := by
  induction addrs generalizing m bs with
  | nil => rfl
  | cons a addrs ih =>
    simp only [List.mem_cons, not_or] at h
    cases bs with
    | nil => rfl
    | cons b bs => rw [Memory.writeAll, ih _ _ h.2, Memory.read?_write_other _ _ h.1]

/-- At addresses that do not repeat, the bytes written are read back. -/
theorem Memory.map_read?_writeAll (m : Memory) {addrs : List Nat} {bs : List Byte} (hn : addrs.Nodup)
    (hl : addrs.length = bs.length) : addrs.map (m.writeAll addrs bs).read? = bs.map some := by
  induction addrs generalizing m bs with
  | nil => cases bs with
    | nil => rfl
    | cons b bs => simp at hl
  | cons a addrs ih =>
    cases bs with
    | nil => simp at hl
    | cons b bs =>
      rw [List.nodup_cons] at hn
      simp only [Memory.writeAll, List.map_cons]
      rw [Memory.read?_writeAll_other _ _ _ hn.1, Memory.read?_write_same, ih _ hn.2 (by simpa using hl)]

/-! ### The canonical form -/

/-- Every address of `m` is at least `k`. -/
theorem Memory.wf_cons {a : Nat} {b : Byte} {m : Memory} :
    Memory.wf ((a, b) :: m) = true ↔ (∀ c ∈ m, a < c.1) ∧ m.wf = true := by
  induction m generalizing a b with
  | nil => simp [Memory.wf]
  | cons c m ih =>
    obtain ⟨k, y⟩ := c
    simp only [Memory.wf, Bool.and_eq_true, decide_eq_true_eq, List.forall_mem_cons]
    constructor
    · rintro ⟨h1, h2⟩
      exact ⟨⟨h1, fun c hc => lt_trans h1 ((ih.mp h2).1 c hc)⟩, h2⟩
    · rintro ⟨⟨h1, _⟩, h2⟩
      exact ⟨h1, h2⟩

/-- A write adds no cell but its own. -/
theorem Memory.mem_write {m : Memory} {a : Nat} {b : Byte} {c : Host.Cell} (h : c ∈ m.write a b) :
    c = (a, b) ∨ c ∈ m := by
  induction m with
  | nil => simpa [Memory.write] using h
  | cons d m ih =>
    obtain ⟨k, y⟩ := d
    simp only [Memory.write] at h
    split at h
    · simpa using h
    · split at h
      · simp only [List.mem_cons] at h ⊢; tauto
      · simp only [List.mem_cons] at h ⊢
        rcases h with h | h
        · exact .inr (.inl h)
        · rcases ih h with h | h <;> tauto

theorem Memory.write_wf {m : Memory} (h : m.wf = true) (a : Nat) (b : Byte) : (m.write a b).wf = true := by
  induction m with
  | nil => rfl
  | cons d m ih =>
    obtain ⟨k, y⟩ := d
    have hc := Memory.wf_cons.mp h
    simp only [Memory.write]
    split
    · next hlt =>
      refine Memory.wf_cons.mpr ⟨?_, h⟩
      simp only [List.forall_mem_cons]
      exact ⟨hlt, fun c hm => lt_trans hlt (hc.1 c hm)⟩
    · split
      · next _ heq => subst heq; exact Memory.wf_cons.mpr ⟨hc.1, hc.2⟩
      · refine Memory.wf_cons.mpr ⟨fun c hm => ?_, ih hc.2⟩
        rcases Memory.mem_write hm with rfl | hm
        · show k < a; omega
        · exact hc.1 c hm

theorem Memory.writeAll_wf {m : Memory} (h : m.wf = true) (addrs : List Nat) (bs : List Byte) :
    (m.writeAll addrs bs).wf = true := by
  induction addrs generalizing m bs with
  | nil => exact h
  | cons a addrs ih => cases bs with
    | nil => exact h
    | cons b bs => exact ih (Memory.write_wf h a b) bs

/-- A cell after a write in order was there or lies at an address written. -/
theorem Memory.mem_writeAll {m : Memory} {addrs : List Nat} {bs : List Byte} {c : Host.Cell}
    (h : c ∈ m.writeAll addrs bs) : c.1 ∈ addrs ∨ c ∈ m := by
  induction addrs generalizing m bs with
  | nil => exact .inr h
  | cons a addrs ih => cases bs with
    | nil => exact .inr h
    | cons b bs =>
      rcases ih h with h | h
      · exact .inl (List.mem_cons_of_mem _ h)
      · rcases Memory.mem_write h with rfl | h
        · exact .inl List.mem_cons_self
        · exact .inr h

/-- An image of bytes is in canonical form. -/
theorem imageAt_wf (a : Nat) (bs : List Byte) : (imageAt a bs).wf = true := by
  have hge : ∀ (bs : List Byte) (a : Nat), ∀ c ∈ imageAt a bs, a ≤ c.1 := by
    intro bs
    induction bs with
    | nil => simp [imageAt]
    | cons b bs ih =>
      intro a c hc
      simp only [imageAt, List.mem_cons] at hc
      rcases hc with rfl | hc
      · exact le_refl a
      · exact le_trans (by omega) (ih (a + 1) c hc)
  induction bs generalizing a with
  | nil => rfl
  | cons b bs ih => exact Memory.wf_cons.mpr ⟨fun c hc => hge bs (a + 1) c hc, ih (a + 1)⟩

/-! ### Reading bytes in order -/

/-- Reading bytes goes on exactly where every one of them holds a value, and changes nothing (rule R60). -/
theorem readAll_eq_ok {addrs : List Nat} {s t : State} {bs : List Byte} :
    readAll addrs s = .ok bs t ↔ t = s ∧ addrs.map s.mem.read? = bs.map some := by
  induction addrs generalizing bs t with
  | nil =>
    simp only [readAll, Res.ok.injEq, List.map_nil]
    constructor
    · rintro ⟨rfl, rfl⟩; exact ⟨rfl, rfl⟩
    · rintro ⟨rfl, h⟩; exact ⟨(List.map_eq_nil_iff.mp h.symm).symm, rfl⟩
  | cons a addrs ih =>
    simp only [readAll]
    cases h : s.mem.read? a with
    | none => cases bs <;> simp [h]
    | some b =>
      simp only [Res.bind_eq_ok, ih]
      constructor
      · rintro ⟨bs', s', ⟨rfl, h2⟩, h3⟩
        simp only [Res.ok.injEq] at h3
        obtain ⟨rfl, rfl⟩ := h3
        simp [h, h2]
      · rintro ⟨rfl, h2⟩
        cases bs with
        | nil => simp at h2
        | cons c bs =>
          simp only [List.map_cons, h, List.cons.injEq, Option.some.injEq] at h2
          exact ⟨bs, t, ⟨rfl, h2.2⟩, by rw [h2.1]⟩

/-- Reading bytes goes on or stops; it raises nothing. -/
theorem readAll_all (P : State → Prop) (addrs : List Nat) {s : State} (h : P s) : (readAll addrs s).All P := by
  induction addrs with
  | nil => exact h
  | cons a addrs ih =>
    simp only [readAll]
    split
    · trivial
    · exact Res.All.bind_same ih fun _ _ h => h

end Machine

end Sys2Proof
end

