-- ==== Sys2Proof/Laws/Ops.lean ====
section
/-! SUPPORT. What each shared operation over registers and memory can do, said once: the effects it may have on a state,
as closure conditions (`Keeps`), and what it answers when it goes on. -/

namespace Sys2Proof.Machine

/-! ### What the shared operations may do to a state -/

/-- `P` survives every effect a page lookup may have. -/
structure KeepsLookup (P : State → Prop) : Prop where
  /-- A lookup changes the page cache and the free choices; what it adds to the cache is XLEN bits wide. -/
  hidden : ∀ s h, P s → (∀ c ∈ h.cache, c ∈ s.hidden.cache ∨ c.fits s.params = true) → P { s with hidden := h }

/-- `P` survives every effect a memory access may have. -/
structure KeepsAccess (P : State → Prop) : Prop extends KeepsLookup P where
  /-- A store writes bytes at physical addresses that software can reach. -/
  mem : ∀ s addrs bs, P s → (∀ a ∈ addrs, reachable s.params a = true) → P { s with mem := s.mem.writeAll addrs bs }

/-- `P` survives every effect fault entry may have. -/
structure KeepsEntry (P : State → Prop) : Prop extends KeepsAccess P where
  rip : ∀ s v, P s → P (s.setReg .rip v)
  record : ∀ s t, P s → P (s.recordFault t)
  halt : ∀ s, P s → P s.halt
  /-- The Base Task Context load, with RST bit 2 set. -/
  base : ∀ s vs, P s → s.tasksOn = true → vs.map Prod.fst = baseRegs → P (setRegs s vs)

/-! ### Small facts -/

theorem pow_wb (p : Params) : 256 ^ p.wb = 2 ^ p.xlen := by
  rw [xlen_eq_wb, pow_mul]; norm_num

theorem fits_iff (p : Params) (v : Word) : fits p v = true ↔ v.toNat < 2 ^ p.xlen := by simp [fits]

theorem fits_toWord (p : Params) (n : Nat) : fits p (toWord p n) = true := by
  rw [fits_iff]; exact toWord_lt p n

theorem fits_ofNat (p : Params) {n : Nat} (h : n < 2 ^ p.xlen) : fits p (BitVec.ofNat 64 n) = true := by
  rw [fits_iff, BitVec.toNat_ofNat]
  exact lt_of_le_of_lt (Nat.mod_le _ _) h

theorem reachable_iff (p : Params) (a : Nat) : reachable p a = true ↔ p.reservedEnd ≤ a ∧ a < p.memSize := by
  simp [reachable]

theorem reachable_of_inMemory {p : Params} {pa n a : Nat} (h : inMemory p pa n = true) (ha : a ∈ List.range' pa n) :
    reachable p a = true := by
  simp only [inMemory, Bool.and_eq_true, decide_eq_true_eq] at h
  rw [List.mem_range'_1] at ha
  rw [reachable_iff]; omega

/-! ### Page lookup (rules R95, R100) -/

theorem readField_fits {m : Memory} {p : Params} {pa : Nat} {v : Word} (h : readField m p.wb pa = .ok v) :
    fits p v = true := by
  unfold readField at h
  split at h
  · cases h
  · injection h with h
    subst h
    refine fits_ofNat p (lt_of_lt_of_le (beValue_lt _) ?_)
    rw [← pow_wb]
    exact Nat.pow_le_pow_right (by decide) (le_trans (List.length_filterMap_le _ _) (by simp))

theorem readPage_fits {m : Memory} {p : Params} {pa : Nat} {c : PageCopy} (h : readPage m p.wb pa = .ok c) :
    c.fits p = true := by
  unfold readPage at h
  split at h <;> try (cases h; done)
  next h1 h2 h3 h4 h5 =>
    injection h with h
    subst h
    simp only [PageCopy.fits, readField_fits h1, readField_fits h2, readField_fits h3, readField_fits h4,
      readField_fits h5, Bool.true_and]
    cases h6 : readField m p.wb (pa + 5 * p.wb) with
    | error e => rfl
    | ok v => exact readField_fits h6

theorem walkPages_found {p : Params} {m : Memory} {la fuel : Nat} {visited : List Nat} {ptr : Nat} {c : PageCopy}
    (h : walkPages p m la fuel visited ptr = .found c) : c.fits p = true ∧ covers c la = true := by
  induction fuel generalizing visited ptr with
  | zero => cases h
  | succ n ih =>
    simp only [walkPages] at h
    split at h
    · cases h
    split at h
    · cases h
    split at h
    · cases h
    split at h
    · split at h
      · cases h
      · next c' hc' =>
        split at h
        · next hcov => injection h with h; subst h; exact ⟨readPage_fits hc', hcov⟩
        · exact ih h
    · cases h

/-- A free choice leaves the page cache. -/
@[simp] theorem pick_cache (n : Nat) (h : Hidden) : (pick n h).2.cache = h.cache := by
  unfold pick; split <;> rfl

theorem mem_cacheAdd {h : Hidden} {c d : PageCopy} (hd : d ∈ (cacheAdd h c).cache) : d ∈ h.cache ∨ d = c := by
  unfold cacheAdd at hd
  split at hd
  · exact .inl hd
  · simp only [List.mem_cons] at hd; tauto

theorem lookupWalked_all {P : State → Prop} (k : KeepsLookup P) {s : State} {la : Nat} (h : P s) (g : Hidden)
    (hg : g.cache = s.hidden.cache) : (lookupWalked { s with hidden := g } (walkFromRpa s la)).All P := by
  have hP : P { s with hidden := g } := k.hidden s g h (fun c hc => .inl (hg ▸ hc))
  cases hw : walkFromRpa s la with
  | found c =>
    refine k.hidden s _ h fun d hd => ?_
    rcases mem_cacheAdd hd with hd | rfl
    · exact .inl (hg ▸ hd)
    · exact .inr (walkPages_found hw).1
  | fault f => exact hP
  | refused r => trivial
  | stopped f => trivial

/-- A lookup changes the page cache and the free choices only. -/
theorem lookupPage_all {P : State → Prop} (k : KeepsLookup P) {s : State} (la : Nat) (h : P s) :
    (lookupPage la s).All P := by
  simp only [lookupPage]
  split
  · exact lookupWalked_all k h s.hidden rfl
  · split
    · exact lookupWalked_all k h _ (pick_cache _ _)
    · exact k.hidden s _ h fun c hc => .inl (by simpa using hc)

/-! ### Memory access (rules R84, R90, R91) -/

theorem translate_all {P : State → Prop} (k : KeepsLookup P) {s : State} (la n : Nat) (acc : Access) (h : P s) :
    (translate la n acc s).All P := by
  refine Res.All.bind_same (lookupPage_all k la h) fun c s h => ?_
  split
  · split
    · trivial
    · exact h
  · exact h

theorem resolveRange_all {P : State → Prop} (k : KeepsLookup P) {s : State} (a n : Nat) (acc : Access) (h : P s) :
    (resolveRange a n acc s).All P := by
  refine Res.All.bind_same ?_ fun pa s h => ?_
  · split
    · exact translate_all k a n acc h
    · exact h
  · split
    · exact h
    · exact h

theorem resolveBytes_all {P : State → Prop} (k : KeepsLookup P) (acc : Access) (n a : Nat) {s : State} (h : P s) :
    (resolveBytes acc n a s).All P := by
  induction n generalizing a s with
  | zero => exact h
  | succ n ih =>
    exact Res.All.bind_same (resolveRange_all k a 1 acc h) fun pas s h =>
      Res.All.bind_same (ih _ h) fun rest s h => h

/-- Resolving an address changes the page cache and the free choices only. -/
theorem resolve_all {P : State → Prop} (k : KeepsLookup P) {s : State} (a n align : Nat) (acc : Access) (h : P s) :
    (resolve a n align acc s).All P := by
  unfold resolve
  split
  · exact resolveRange_all k a n acc h
  · split
    · trivial
    · exact resolveBytes_all k acc n a h

/-- Everything but `hidden` is as in `s`. -/
def SameButHidden (s t : State) : Prop := t = { s with hidden := t.hidden }

theorem SameButHidden.same (s : State) : SameButHidden s s := by cases s; rfl

theorem keepsLookup_sameButHidden (s : State) : KeepsLookup (SameButHidden s) where
  hidden t h ht _ := by unfold SameButHidden at ht ⊢; rw [ht]

theorem SameButHidden.params {s t : State} (h : SameButHidden s t) : t.params = s.params := by rw [h]
theorem SameButHidden.mem {s t : State} (h : SameButHidden s t) : t.mem = s.mem := by rw [h]
theorem SameButHidden.regs {s t : State} (h : SameButHidden s t) : t.regs = s.regs := by rw [h]
theorem SameButHidden.reg {s t : State} (h : SameButHidden s t) (r : Reg) : t.reg r = s.reg r := by
  unfold State.reg; rw [h.regs]
theorem SameButHidden.tasksOn {s t : State} (h : SameButHidden s t) : t.tasksOn = s.tasksOn := by
  unfold State.tasksOn; rw [h.reg]

theorem resolveRange_ok {a n : Nat} {acc : Access} {s t : State} {addrs : List Nat}
    (h : resolveRange a n acc s = .ok addrs t) :
    SameButHidden s t ∧ ∃ pa, addrs = List.range' pa n ∧ inMemory s.params pa n = true := by
  have hs : SameButHidden s t :=
    (resolveRange_all (keepsLookup_sameButHidden s) a n acc (SameButHidden.same s)).of_ok h
  refine ⟨hs, ?_⟩
  simp only [resolveRange, Res.bind_eq_ok] at h
  obtain ⟨pa, s1, _, h2⟩ := h
  split at h2
  · next hin =>
    injection h2 with h2 h3
    subst h3
    exact ⟨pa, h2.symm, hs.params ▸ hin⟩
  · cases h2

theorem resolveBytes_ok {a n : Nat} {acc : Access} {s t : State} {addrs : List Nat}
    (h : resolveBytes acc n a s = .ok addrs t) :
    SameButHidden s t ∧ addrs.length = n ∧ ∀ x ∈ addrs, reachable s.params x = true := by
  refine ⟨(resolveBytes_all (keepsLookup_sameButHidden s) acc n a (SameButHidden.same s)).of_ok h, ?_⟩
  induction n generalizing a s addrs with
  | zero =>
    injection h with h1 h2
    subst h1
    exact ⟨rfl, by simp⟩
  | succ n ih =>
    simp only [resolveBytes, Res.bind_eq_ok] at h
    obtain ⟨pas, s1, h1, rest, s2, h2, h3⟩ := h
    injection h3 with h3 h4
    subst h3 h4
    obtain ⟨hs1, pa, rfl, hin⟩ := resolveRange_ok h1
    obtain ⟨hl, hr⟩ := ih h2
    refine ⟨by simp [hl], fun x hx => ?_⟩
    rcases List.mem_append.mp hx with hx | hx
    · exact reachable_of_inMemory hin hx
    · exact hs1.params ▸ hr x hx

/-- Where an address resolves: one physical address for each byte, all of them addresses that software can reach. -/
theorem resolve_ok {a n align : Nat} {acc : Access} {s t : State} {addrs : List Nat}
    (h : resolve a n align acc s = .ok addrs t) :
    SameButHidden s t ∧ addrs.length = n ∧ ∀ x ∈ addrs, reachable s.params x = true := by
  unfold resolve at h
  split at h
  · obtain ⟨hs, pa, rfl, hin⟩ := resolveRange_ok h
    exact ⟨hs, by simp, fun x hx => reachable_of_inMemory hin hx⟩
  · split at h
    · cases h
    · exact resolveBytes_ok h

/-- With paging off, an aligned access in memory resolves to its own address (rules R87, R90). -/
theorem resolve_pagingOff {a n align : Nat} {acc : Access} {s : State} (hp : s.pagingOn = false) (ha : a % align = 0)
    (hin : inMemory s.params a n = true) : resolve a n align acc s = .ok (List.range' a n) s := by
  simp [resolve, ha, resolveRange, hp, hin]

theorem memRead_all {P : State → Prop} (k : KeepsLookup P) {s : State} (a n align : Nat) (acc : Access) (h : P s) :
    (memRead a n align acc s).All P :=
  Res.All.bind_same (resolve_all k a n align acc h) fun addrs _ h =>
    Res.All.bind_same (readAll_all P addrs h) fun _ _ h => h

/-- What a read that goes on read. -/
theorem memRead_ok {a n align : Nat} {acc : Access} {s t : State} {v : Nat} :
    memRead a n align acc s = .ok v t ↔
      ∃ addrs bs, resolve a n align acc s = .ok addrs t ∧ addrs.map s.mem.read? = bs.map some ∧ v = beValue bs := by
  constructor
  · intro h
    simp only [memRead, Res.bind_eq_ok, readAll_eq_ok] at h
    obtain ⟨addrs, s1, h1, bs, s2, ⟨rfl, h2⟩, h3⟩ := h
    injection h3 with h3 h4
    subst h4
    exact ⟨addrs, bs, h1, (resolve_ok h1).1.mem ▸ h2, h3.symm⟩
  · rintro ⟨addrs, bs, h1, h2, rfl⟩
    simp only [memRead, Res.bind_eq_ok, readAll_eq_ok]
    exact ⟨addrs, t, h1, bs, t, ⟨rfl, (resolve_ok h1).1.mem ▸ h2⟩, rfl⟩

theorem loadWord_all {P : State → Prop} (k : KeepsLookup P) {s : State} (a : Word) (acc : Access) (h : P s) :
    (loadWord a acc s).All P :=
  Res.All.bind_same (memRead_all k _ _ _ acc h) fun _ _ h => h

/-- What a data read that goes on read: `wb` bytes, most significant first. -/
theorem loadWord_ok {a : Word} {acc : Access} {s t : State} {v : Word} (h : loadWord a acc s = .ok v t) :
    SameButHidden s t ∧ fits s.params v = true ∧
      ∃ addrs bs, resolve a.toNat s.params.wb s.params.wb acc s = .ok addrs t ∧
        addrs.map s.mem.read? = bs.map some ∧ v = BitVec.ofNat 64 (beValue bs) := by
  simp only [loadWord, Res.bind_eq_ok, memRead_ok] at h
  obtain ⟨n, s1, ⟨addrs, bs, h1, h2, rfl⟩, h3⟩ := h
  injection h3 with h3 h4
  subst h3 h4
  obtain ⟨hs, hl, _⟩ := resolve_ok h1
  refine ⟨hs, fits_ofNat _ ?_, addrs, bs, h1, h2, rfl⟩
  have hlen : bs.length = s.params.wb := by
    have := congrArg List.length h2
    simp only [List.length_map] at this
    omega
  rw [← pow_wb, ← hlen]
  exact beValue_lt bs

/-- A write stores bytes where the address resolves, after the lookup's own effect. -/
theorem memWrite_all {P : State → Prop} (k : KeepsAccess P) {s : State} (a n align v : Nat) (acc : Access) (h : P s) :
    (memWrite a n align v acc s).All P := by
  refine Res.All.bind_eq (resolve_all k.toKeepsLookup a n align acc h) fun addrs t ht hP => ?_
  obtain ⟨hs, _, hr⟩ := resolve_ok ht
  exact k.mem t addrs _ hP fun x hx => hs.params ▸ hr x hx

theorem memWrite_ok {a n align v : Nat} {acc : Access} {s t : State} {u : Unit} :
    memWrite a n align v acc s = .ok u t ↔
      ∃ addrs s1, resolve a n align acc s = .ok addrs s1 ∧ t = { s1 with mem := s1.mem.writeAll addrs (beBytes n v) } := by
  simp only [memWrite, Res.bind_eq_ok, Res.ok.injEq]
  constructor
  · rintro ⟨addrs, s1, h1, _, h2⟩; exact ⟨addrs, s1, h1, h2.symm⟩
  · rintro ⟨addrs, s1, h1, h2⟩; exact ⟨addrs, s1, h1, trivial, h2.symm⟩

theorem storeWord_all {P : State → Prop} (k : KeepsAccess P) {s : State} (a v : Word) (acc : Access) (h : P s) :
    (storeWord a v acc s).All P := memWrite_all k _ _ _ _ acc h

/-! ### Registers (rules R26, R52) -/

theorem writeReg_ok {r : Reg} {v : Word} {s t : State} {u : Unit} :
    writeReg r v s = .ok u t ↔ writeFault s r v = none ∧ t = s.setReg r v := by
  unfold writeReg
  split
  · next h => simp [raiseFault, h]
  · next h => simp [h, eq_comm]

@[simp] theorem setRegs_params (s : State) (vs : List (Reg × Word)) : (setRegs s vs).params = s.params := by
  induction vs generalizing s with
  | nil => rfl
  | cons x vs ih => obtain ⟨r, v⟩ := x; exact (ih _).trans rfl

@[simp] theorem setRegs_mem (s : State) (vs : List (Reg × Word)) : (setRegs s vs).mem = s.mem := by
  induction vs generalizing s with
  | nil => rfl
  | cons x vs ih => obtain ⟨r, v⟩ := x; exact (ih _).trans rfl

@[simp] theorem setRegs_vector (s : State) (vs : List (Reg × Word)) : (setRegs s vs).vector = s.vector := by
  induction vs generalizing s with
  | nil => rfl
  | cons x vs ih => obtain ⟨r, v⟩ := x; exact (ih _).trans rfl

@[simp] theorem setRegs_timers (s : State) (vs : List (Reg × Word)) : (setRegs s vs).timers = s.timers := by
  induction vs generalizing s with
  | nil => rfl
  | cons x vs ih => obtain ⟨r, v⟩ := x; exact (ih _).trans rfl

@[simp] theorem setRegs_pending (s : State) (vs : List (Reg × Word)) : (setRegs s vs).pending = s.pending := by
  induction vs generalizing s with
  | nil => rfl
  | cons x vs ih => obtain ⟨r, v⟩ := x; exact (ih _).trans rfl

@[simp] theorem setRegs_halted (s : State) (vs : List (Reg × Word)) : (setRegs s vs).halted = s.halted := by
  induction vs generalizing s with
  | nil => rfl
  | cons x vs ih => obtain ⟨r, v⟩ := x; exact (ih _).trans rfl

@[simp] theorem setRegs_world (s : State) (vs : List (Reg × Word)) : (setRegs s vs).world = s.world := by
  induction vs generalizing s with
  | nil => rfl
  | cons x vs ih => obtain ⟨r, v⟩ := x; exact (ih _).trans rfl

/-- A register that is not among those written together stays. -/
theorem setRegs_reg_other {s : State} {vs : List (Reg × Word)} {q : Reg} (h : q ∉ vs.map Prod.fst) :
    (setRegs s vs).reg q = s.reg q := by
  induction vs generalizing s with
  | nil => rfl
  | cons x vs ih =>
    obtain ⟨r, v⟩ := x
    simp only [List.map_cons, List.mem_cons, not_or] at h
    exact (ih h.2).trans (s.reg_setReg_other v h.1)

/-- A register written together with others that differ from it holds its own value. -/
theorem setRegs_reg_mem {s : State} {vs : List (Reg × Word)} {q : Reg} {v : Word} (hn : (vs.map Prod.fst).Nodup)
    (h : (q, v) ∈ vs) : (setRegs s vs).reg q = toWord s.params v.toNat := by
  induction vs generalizing s with
  | nil => cases h
  | cons x vs ih =>
    obtain ⟨r, w⟩ := x
    simp only [List.map_cons, List.nodup_cons] at hn
    rcases List.mem_cons.mp h with h | h
    · injection h with h1 h2
      subst h1 h2
      exact (setRegs_reg_other hn.1).trans (s.reg_setReg_same q v)
    · exact (ih hn.2 h).trans rfl

/-- No register write but RPA's touches `hidden`; RPA's empties the page cache (rule R100). -/
theorem setRegs_cache_sub {s : State} {vs : List (Reg × Word)} {c : PageCopy}
    (h : c ∈ (setRegs s vs).hidden.cache) : c ∈ s.hidden.cache := by
  induction vs generalizing s with
  | nil => exact h
  | cons x vs ih =>
    obtain ⟨r, v⟩ := x
    have h' := ih h
    by_cases hr : r = .rpa
    · subst hr; simp at h'
    · rwa [State.setReg_hidden _ _ hr] at h'

/-! ### Task Structures (rules R51, R52) -/

theorem storeSlots_all {P : State → Prop} (k : KeepsAccess P) {s : State} (base : Word) (slots : List (Nat × Word))
    (h : P s) : (storeSlots base slots s).All P := by
  induction slots generalizing s with
  | nil => exact h
  | cons x slots ih =>
    obtain ⟨i, v⟩ := x
    exact Res.All.bind_same (storeWord_all k _ _ _ h) fun _ _ h => ih h

theorem saveContext_all {P : State → Prop} (k : KeepsAccess P) {s : State} (base v : Word) (h : P s) :
    (saveContext base v s).All P := storeSlots_all k base _ h

theorem accessSlot_all {P : State → Prop} (k : KeepsLookup P) {s : State} (a : Word) (keep : Bool) (h : P s) :
    (accessSlot a keep s).All P := by
  unfold accessSlot
  split
  · exact loadWord_all k a _ h
  · exact Res.All.bind_same (resolve_all k _ _ _ _ h) fun _ _ h => h

theorem loadSlots_all {P : State → Prop} (k : KeepsLookup P) {s : State} (base : Word) (keep rs : List Reg)
    (h : P s) : (loadSlots base keep rs s).All P := by
  induction rs generalizing s with
  | nil => exact h
  | cons r rs ih =>
    exact Res.All.bind_same (accessSlot_all k _ _ h) fun _ _ h => Res.All.bind_same (ih h) fun _ _ h => h

/-- The registers a load of slots gives values for are the ones asked for. -/
theorem loadSlots_ok {base : Word} {keep rs : List Reg} {s t : State} {vs : List (Reg × Word)}
    (h : loadSlots base keep rs s = .ok vs t) :
    SameButHidden s t ∧ vs.map Prod.fst = rs.filter (fun r => keep.contains r) := by
  refine ⟨(loadSlots_all (keepsLookup_sameButHidden s) base keep rs (SameButHidden.same s)).of_ok h, ?_⟩
  induction rs generalizing s vs with
  | nil => injection h with h1 h2; subst h1; rfl
  | cons r rs ih =>
    simp only [loadSlots, Res.bind_eq_ok] at h
    obtain ⟨v, s1, _, vs', s2, h2, h3⟩ := h
    injection h3 with h3 h4
    subst h3 h4
    have := ih h2
    by_cases hk : keep.contains r = true
    · simp only [hk, if_true, List.map_cons, List.filter_cons_of_pos, this]
    · simp only [hk, if_false, List.filter_cons_of_neg, not_false_eq_true, this, Bool.false_eq_true]

/-- The base registers are the slots a Base Task Context load keeps. -/
theorem allRegs_filter_baseRegs : allRegs.filter (fun r => baseRegs.contains r) = baseRegs := by decide

theorem allRegs_filter_allRegs : allRegs.filter (fun r => allRegs.contains r) = allRegs := by decide

/-- RST bit 2 of a state. -/
theorem keepsAccess_tasksOn : KeepsAccess fun s => s.tasksOn = true where
  hidden _ _ h _ := h
  mem _ _ _ h _ := h

theorem keepsAccess_and {P Q : State → Prop} (p : KeepsAccess P) (q : KeepsAccess Q) :
    KeepsAccess fun s => P s ∧ Q s where
  hidden s h hs hc := ⟨p.hidden s h hs.1 hc, q.hidden s h hs.2 hc⟩
  mem s a b hs ha := ⟨p.mem s a b hs.1 ha, q.mem s a b hs.2 ha⟩

/-- A context load writes the registers it keeps and nothing else, after the lookups' own effects. -/
theorem loadContext_all {P Q : State → Prop} (k : KeepsLookup P) {s : State} (base : Word) {keep : List Reg}
    (hk : allRegs.filter (fun r => keep.contains r) = keep) (h : P s)
    (hset : ∀ t vs, P t → vs.map Prod.fst = keep → Q (setRegs t vs)) (hraise : ∀ t, P t → Q t) :
    (loadContext base keep s).All Q := by
  unfold loadContext
  cases hx : loadSlots base keep allRegs s with
  | ok vs t => exact hset t vs ((loadSlots_all k base keep _ h).of_ok hx) ((loadSlots_ok hx).2.trans hk)
  | raise t u => exact hraise u (by have := loadSlots_all k base keep allRegs h; rwa [hx] at this)
  | refuse r => trivial
  | stop f => trivial

theorem contextFault_all {P : State → Prop} {x : Res Unit} (hx : x.All P) (hr : ∀ s t, P s → P (s.recordFault t)) :
    (contextFault x).All P := by
  cases x with
  | ok a s => exact hx
  | raise t s => exact hr s t hx
  | refuse r => trivial
  | stop f => trivial

/-! ### Fault entry (rules R301, R341) -/

/-- The trap-entry context switch stores, records a fault, or loads the nine base registers. -/
theorem enterBase_all {P : State → Prop} (k : KeepsEntry P) {s : State} (v : Word) (h : P s) (ht : s.tasksOn = true) :
    (enterBase v s).All P := by
  have k2 := keepsAccess_and k.toKeepsAccess keepsAccess_tasksOn
  refine contextFault_all ?_ k.record
  refine Res.All.bind (saveContext_all k2 _ _ ⟨h, ht⟩) (fun _ t ht => ?_) (fun _ h => h.1)
  refine Res.All.bind_same (loadContext_all k2.toKeepsLookup _ allRegs_filter_baseRegs ht
    (fun t vs h hv => k.base t vs h.1 h.2 hv) (fun _ h => h.1)) fun _ u hu => ?_
  split
  · exact hu
  · exact hu

theorem switchToBase_all {P : State → Prop} (k : KeepsEntry P) {s : State} (v : Word) (h : P s) :
    (switchToBase v s).All P := by
  unfold switchToBase
  split
  · next ht => exact enterBase_all k v h ht
  · exact h

/-- Fault entry keeps what its parts keep. -/
theorem faultEntry_keeps {P : State → Prop} (k : KeepsEntry P) {t : Trap} {s s' : State} (h : P s)
    (he : faultEntry t s = .next s') : P s' := by
  unfold faultEntry at he
  have h1 := k.record s t h
  simp only at he
  split at he
  · injection he with he; subst he; exact k.halt _ h1
  · split at he
    · have h2 := switchToBase_all k ((s.recordFault t).reg .rip) h1
      split at he
      · next hx =>
        rw [hx] at h2
        injection he with he; subst he; exact k.rip _ _ h2
      · next hx =>
        rw [hx] at h2
        injection he with he; subst he; exact k.halt _ (k.record _ _ h2)
      · cases he
      · cases he
    · injection he with he; subst he; exact k.halt _ h1

/-- The end of an instruction keeps what its parts and fault entry keep. -/
theorem finish_keeps {P : State → Prop} (k : KeepsEntry P) {x : Res Unit} {s' : State} (hx : x.All P)
    (he : finish x = .next s') : P s' := by
  cases x with
  | ok a s => injection he with he; subst he; exact hx
  | raise t s => exact faultEntry_keeps k hx he
  | refuse r => cases he
  | stop f => cases he

end Sys2Proof.Machine
end

