-- ==== Sys2Proof/Laws/Meanings.lean ====
section
/-! SUPPORT. What the meanings share: the address after an instruction, the register write check, the word a load gives,
and the frame of a step that writes registers after a memory access. -/

namespace Sys2Proof.Machine

/-! ### The address after an instruction -/

theorem toWord_nextAddress (s : State) (i : Instr) :
    toWord s.params (nextAddress s i).toNat = nextAddress s i :=
  toWord_of_lt _ _ (by rw [nextAddress]; exact toWord_lt _ _)

/-- The first part of a meaning with `n` extension words. -/
theorem nextPc_bind {α : Type} {s : State} (n : Nat) (i : Instr) (h : i.extWords = n) (he : extKnown s)
    (k : Word → State → Res α) : (nextPc n s).bind k = k (nextAddress s i) s := by
  unfold nextPc nextAddress Instr.length
  rw [h]
  cases n with
  | zero => simp
  | succ m =>
    cases h : s.params.extBytes with
    | none => exact absurd h he
    | some e => simp [Nat.add_assoc]

/-- The first part of a meaning without extension words, which needs no EXT_BYTES. -/
theorem nextPc_zero_bind {α : Type} (s : State) (i : Instr) (h : i.extWords = 0) (k : Word → State → Res α) :
    (nextPc 0 s).bind k = k (nextAddress s i) s := by
  simp [nextPc, nextAddress, Instr.length, h]

/-! ### The register write check (rule R26) -/

theorem isProtected_iff (r : Reg) :
    isProtected r = true ↔ r ∈ [Reg.rst, .rff, .rfa, .rbt, .rct, .rpa, .rra] := by
  cases r <;> decide

theorem writeFault_eq_none {s : State} {r : Reg} {v : Word} (h : mayWrite s r v) : writeFault s r v = none := by
  obtain ⟨h1, h2, h3⟩ := h
  unfold writeFault
  rw [if_neg h1]
  split
  · next h =>
    simp only [Bool.and_eq_true, isProtected_iff] at h
    exact absurd h.2 (h2 h.1)
  · split
    · next h =>
      simp only [Bool.and_eq_true, decide_eq_true_eq] at h
      have := h3 h.1
      exact absurd (by simp only [bitsFrom]; omega) h.2
    · rfl

/-! ### Values -/

theorem toNat_ofNat_of_lt {p : Params} {n : Nat} (h : n < 2 ^ p.xlen) : (BitVec.ofNat 64 n).toNat = n := by
  rw [BitVec.toNat_ofNat, Nat.mod_eq_of_lt]
  exact lt_of_lt_of_le h (Nat.pow_le_pow_right (by decide) (xlen_le p))

/-- The word a load gives, from the addresses its access resolves to and the bytes there. -/
theorem loadWord_eq {s s1 : State} {a : Word} {acc : Access} {addrs : List Nat} {bs : List Byte}
    (hb : addrs.map s.mem.read? = bs.map some)
    (h : resolve a.toNat s.params.wb s.params.wb acc s = .ok addrs s1) :
    loadWord a acc s = .ok (BitVec.ofNat 64 (beValue bs)) s1 ∧ beValue bs < 2 ^ s.params.xlen ∧
      bs.length = s.params.wb := by
  have h2 := memRead_ok.mpr ⟨addrs, bs, h, hb, rfl⟩
  have hl : bs.length = s.params.wb := by
    have h3 := congrArg List.length hb
    have := (resolve_ok h).2.1
    simp only [List.length_map] at h3
    omega
  refine ⟨by simp [loadWord, h2], ?_, hl⟩
  rw [← pow_wb, ← hl]
  exact beValue_lt _

/-! ### Frames -/

/-- A register and RIP written after a memory access that changed the bytes at `addrs`. -/
theorem frame_setReg_rip {s s1 : State} (hs : SameButHidden s s1) (r : Reg) (v w : Word) (m : Memory)
    (addrs : List Nat) (hm : ∀ a, a ∉ addrs → m.read? a = s.mem.read? a) :
    Frame [r, .rip] addrs s ((({ s1 with mem := m } : State).setReg r v).setReg .rip w) where
  regs q hq := by
    simp only [List.mem_cons, List.not_mem_nil, or_false, not_or] at hq
    rw [State.reg_setReg_other _ _ hq.2, State.reg_setReg_other _ _ hq.1]
    exact hs.reg q
  mem := hm
  params := hs.params
  vector := by rw [hs]; rfl
  timers := by rw [hs]; rfl
  pending := by rw [hs]; rfl
  halted := by rw [hs]; rfl
  world := by rw [hs]; rfl

/-- RIP written, after a memory access that changed the bytes at `addrs`. -/
theorem frame_setRip {s s1 : State} (hs : SameButHidden s s1) (w : Word) (m : Memory)
    (addrs : List Nat) (hm : ∀ a, a ∉ addrs → m.read? a = s.mem.read? a) :
    Frame [.rip] addrs s (({ s1 with mem := m } : State).setReg .rip w) where
  regs q hq := by
    rw [State.reg_setReg_other _ _ (by simpa using hq)]
    exact hs.reg q
  mem := hm
  params := hs.params
  vector := by rw [hs]; rfl
  timers := by rw [hs]; rfl
  pending := by rw [hs]; rfl
  halted := by rw [hs]; rfl
  world := by rw [hs]; rfl

end Sys2Proof.Machine
end

