-- ==== Sys2Proof/Laws/Paging.lean ====
section
/-! SUPPORT. Address translation with no stale page copy: the walk of a page list, whole or broken, the lookup, and an
access. -/

namespace Sys2Proof.Machine

theorem covers_eq_pageMatches (c : PageCopy) (la : Nat) : covers c la = pageMatches la c := rfl

theorem permits_iff (c : PageCopy) (acc : Access) : permits c acc = true ↔ mayAccess c acc := by
  unfold permits mayAccess
  cases c.flags.getLsbD 0 <;> cases c.flags.getLsbD 1 <;> cases c.flags.getLsbD 2 <;> cases acc <;> decide

/-! ### Paths through Page Structures -/

theorem pagePointers_length (ptr : Nat) (cs : List PageCopy) : (pagePointers ptr cs).length = cs.length := by
  induction cs generalizing ptr with
  | nil => rfl
  | cons c cs ih => simp [pagePointers, ih]

/-- A path passes through each of its pointers. -/
theorem pagePath_split {p : Params} {m : Memory} {q ptr : Nat} {as bs : List PageCopy}
    (h : pagePath p m q ptr (as ++ bs)) : ∃ x, pagePath p m x ptr as ∧ pagePath p m q x bs := by
  induction as generalizing ptr with
  | nil => exact ⟨ptr, rfl, h⟩
  | cons c as ih =>
    obtain ⟨h0, h1, h2, h3, h4⟩ := h
    obtain ⟨x, hx, hy⟩ := ih h4
    exact ⟨x, ⟨h0, h1, h2, h3, hx⟩, hy⟩

/-- The lookup of `la` goes no further than `q`: what is there is not a page to walk past. -/
def EndsAt (p : Params) (m : Memory) (la q : Nat) : Prop :=
  ∀ c, readPage m p.wb q = .ok c → q ≠ 0 → (p.misaligned = .refuse → q % p.wb = 0) →
    inMemory p q p.pageBytes = true → pageMatches la c = true

/-- There is one path of pages that do not match to the end of a lookup. -/
theorem pagePath_unique {p : Params} {m : Memory} {la q ptr : Nat} {cs ds : List PageCopy} (hq : EndsAt p m la q)
    (h1 : pagePath p m q ptr cs) (n1 : ∀ c ∈ cs, pageMatches la c = false) (h2 : pagePath p m q ptr ds)
    (n2 : ∀ c ∈ ds, pageMatches la c = false) : cs = ds := by
  have off : ∀ {c : PageCopy} {xs : List PageCopy}, pagePath p m q q (c :: xs) → pageMatches la c = false → False :=
    fun ⟨g0, g1, g2, g3, _⟩ hn => by rw [hq _ g3 g0 g1 g2] at hn; cases hn
  induction cs generalizing ptr ds with
  | nil =>
    cases ds with
    | nil => rfl
    | cons d ds => subst h1; exact (off h2 (n2 d List.mem_cons_self)).elim
  | cons c cs ih =>
    cases ds with
    | nil => subst h2; exact (off h1 (n1 c List.mem_cons_self)).elim
    | cons d ds =>
      obtain ⟨_, _, _, hc, hcs⟩ := h1
      obtain ⟨_, _, _, hd, hds⟩ := h2
      rw [hc] at hd
      injection hd with hd
      subst hd
      rw [ih hcs (fun x hx => n1 x (List.mem_cons_of_mem _ hx)) hds fun x hx => n2 x (List.mem_cons_of_mem _ hx)]

/-- The rest of a path from one of its pointers. -/
theorem pagePath_of_mem {p : Params} {m : Memory} {q ptr x : Nat} {cs : List PageCopy} (h : pagePath p m q ptr cs)
    (hx : x ∈ pagePointers ptr cs) :
    ∃ d ds, pagePath p m q x (d :: ds) ∧ (d :: ds).length ≤ cs.length ∧ ∀ c ∈ d :: ds, c ∈ cs := by
  induction cs generalizing ptr with
  | nil => cases hx
  | cons c cs ih =>
    rcases List.mem_cons.mp hx with rfl | hx
    · exact ⟨c, cs, h, le_refl _, fun _ h => h⟩
    · obtain ⟨d, ds, h1, h2, h3⟩ := ih h.2.2.2.2 hx
      exact ⟨d, ds, h1, le_trans h2 (by simp), fun y hy => List.mem_cons_of_mem _ (h3 y hy)⟩

/-- A lookup that ends meets no pointer twice. -/
theorem pagePointers_nodup {p : Params} {m : Memory} {la q ptr : Nat} {cs : List PageCopy} (hq : EndsAt p m la q)
    (h : pagePath p m q ptr cs) (hn : ∀ c ∈ cs, pageMatches la c = false) :
    (pagePointers ptr cs).Nodup ∧ q ∉ pagePointers ptr cs := by
  refine ⟨?_, fun hm => ?_⟩
  · induction cs generalizing ptr with
    | nil => exact List.nodup_nil
    | cons c cs ih =>
      have hn' := fun x hx => hn x (List.mem_cons_of_mem _ hx)
      refine List.nodup_cons.mpr ⟨fun hm => ?_, ih h.2.2.2.2 hn'⟩
      obtain ⟨d, ds, h1, h2, h3⟩ := pagePath_of_mem h.2.2.2.2 hm
      have := congrArg List.length (pagePath_unique hq h hn h1 fun x hx => hn' x (h3 x hx))
      simp only [List.length_cons] at this h2
      omega
  · obtain ⟨d, ds, h1, _, h3⟩ := pagePath_of_mem h hm
    have := pagePath_unique hq h1 (fun x hx => hn x (h3 x hx)) (ds := []) rfl (by simp)
    cases this

theorem pagePointers_lt {p : Params} {m : Memory} {q ptr : Nat} {cs : List PageCopy} (h : pagePath p m q ptr cs) :
    ∀ x ∈ pagePointers ptr cs, x < p.memSize := by
  induction cs generalizing ptr with
  | nil => intro x hx; cases hx
  | cons c cs ih =>
    intro x hx
    rcases List.mem_cons.mp hx with rfl | hx
    · have := h.2.2.1
      simp only [inMemory, Bool.and_eq_true, decide_eq_true_eq] at this
      have hp : 0 < p.pageBytes := by unfold Params.pageBytes; have := wb_pos p; omega
      omega
    · exact ih h.2.2.2.2 x hx

/-- A lookup that ends meets no more pages than there are addresses. -/
theorem pagePath_length {p : Params} {m : Memory} {la q ptr : Nat} {cs : List PageCopy} (hq : EndsAt p m la q)
    (h : pagePath p m q ptr cs) (hn : ∀ c ∈ cs, pageMatches la c = false) : cs.length ≤ p.memSize := by
  rw [← pagePointers_length ptr cs]
  have hs : pagePointers ptr cs ⊆ List.range p.memSize := fun x hx => List.mem_range.mpr (pagePointers_lt h x hx)
  simpa using ((pagePointers_nodup hq h hn).1.subperm hs).length_le

/-! ### The walk (rule R95) -/

/-- One page that does not match is walked past. -/
theorem walkPages_cons {p : Params} {m : Memory} {la fuel q ptr : Nat} {visited : List Nat} {c : PageCopy}
    {cs : List PageCopy} (h : pagePath p m q ptr (c :: cs)) (hv : ptr ∉ visited) (hn : pageMatches la c = false) :
    walkPages p m la (fuel + 1) visited ptr = walkPages p m la fuel (ptr :: visited) c.next.toNat := by
  obtain ⟨h0, h1, h2, h3, _⟩ := h
  have hv0 : visited.contains ptr = false := by simpa using hv
  simp only [walkPages]
  rw [if_neg h0, hv0, if_neg (by decide), if_neg (by rintro ⟨hr, hm⟩; exact hm (h1 hr)), if_pos h2, h3]
  show (if pageMatches la c = true then _ else _) = _
  rw [hn, if_neg (by decide)]

/-- The walk reaches the end of a lookup. -/
theorem walkPages_path {p : Params} {m : Memory} {la fuel q ptr : Nat} {visited : List Nat} {cs : List PageCopy}
    (h : pagePath p m q ptr cs) (hn : ∀ c ∈ cs, pageMatches la c = false) (hf : cs.length < fuel)
    (hd : (pagePointers ptr cs).Nodup) (hq : q ∉ pagePointers ptr cs) (hqv : q ∉ visited)
    (hv : ∀ x ∈ pagePointers ptr cs, x ∉ visited) :
    ∃ f v, q ∉ v ∧ walkPages p m la fuel visited ptr = walkPages p m la (f + 1) v q := by
  induction cs generalizing fuel visited ptr with
  | nil =>
    obtain rfl : ptr = q := h
    exact ⟨fuel - 1, visited, hqv, by rw [Nat.sub_add_cancel (Nat.lt_of_le_of_lt (Nat.zero_le _) hf)]⟩
  | cons c cs ih =>
    obtain ⟨f, rfl⟩ : ∃ f, fuel = f + 1 := ⟨fuel - 1, (Nat.sub_add_cancel (by omega)).symm⟩
    rw [walkPages_cons h (hv ptr List.mem_cons_self) (hn c List.mem_cons_self)]
    have hd' := List.nodup_cons.mp hd
    refine ih h.2.2.2.2 (fun x hx => hn x (List.mem_cons_of_mem _ hx)) (by simpa using hf) hd'.2
      (fun hm => hq (List.mem_cons_of_mem _ hm)) (fun hm => ?_) fun x hx hm => ?_
    · rcases List.mem_cons.mp hm with rfl | hm
      · exact hq List.mem_cons_self
      · exact hqv hm
    · rcases List.mem_cons.mp hm with rfl | hm
      · exact hd'.1 hx
      · exact hv x (List.mem_cons_of_mem _ hx) hm

theorem pagePointers_ne_zero {p : Params} {m : Memory} {q ptr : Nat} {cs : List PageCopy}
    (h : pagePath p m q ptr cs) : ∀ x ∈ pagePointers ptr cs, x ≠ 0 := by
  induction cs generalizing ptr with
  | nil => intro x hx; cases hx
  | cons c cs ih =>
    intro x hx
    rcases List.mem_cons.mp hx with rfl | hx
    · exact h.1
    · exact ih h.2.2.2.2 x hx

/-- A walk that comes back to a pointer it met never ends (U12). -/
theorem walkPages_loops {p : Params} {m : Memory} {la fuel q ptr : Nat} {visited : List Nat} {cs : List PageCopy}
    (h : pagePath p m q ptr cs) (hn : ∀ c ∈ cs, pageMatches la c = false) (h0 : q ≠ 0)
    (hq : q ∈ visited ∨ q ∈ pagePointers ptr cs) : walkPages p m la fuel visited ptr = .stopped .lookupNeverEnds := by
  induction cs generalizing fuel visited ptr with
  | nil =>
    obtain rfl : ptr = q := h
    have hv : ptr ∈ visited := by simpa [pagePointers] using hq
    cases fuel <;> simp [walkPages, h0, hv]
  | cons c cs ih =>
    cases fuel with
    | zero => rfl
    | succ f =>
      by_cases hv : ptr ∈ visited
      · simp [walkPages, h.1, hv]
      · rw [walkPages_cons h hv (hn c List.mem_cons_self)]
        refine ih h.2.2.2.2 (fun x hx => hn x (List.mem_cons_of_mem _ hx)) ?_
        simp only [pagePointers, List.mem_cons] at hq ⊢
        tauto

theorem walkFromRpa_path {s : State} {q la : Nat} {cs : List PageCopy} (hq : EndsAt s.params s.mem la q)
    (h : pagePath s.params s.mem q (s.reg .rpa).toNat cs) (hn : ∀ c ∈ cs, pageMatches la c = false) :
    ∃ f v, q ∉ v ∧ walkFromRpa s la = walkPages s.params s.mem la (f + 1) v q :=
  have hd := pagePointers_nodup hq h hn
  walkPages_path h hn (Nat.lt_succ_of_le (pagePath_length hq h hn)) hd.1 hd.2 (by simp) (by simp)

/-- The first page that matches is found, whatever stands after it. -/
theorem walkFromRpa_found {s : State} {q la : Nat} {cs : List PageCopy} {c : PageCopy}
    (h : pagePath s.params s.mem q (s.reg .rpa).toNat cs) (hf : cs.find? (pageMatches la) = some c) :
    walkFromRpa s la = .found c := by
  obtain ⟨hm, as, bs, rfl, hn⟩ := List.find?_eq_some_iff_append.mp hf
  obtain ⟨x, h1, h0, g1, g2, g3, _⟩ := pagePath_split h
  have hx : EndsAt s.params s.mem la x := fun d hd _ _ _ => by
    rw [g3] at hd
    injection hd with hd
    exact hd ▸ hm
  obtain ⟨f, v, hv, hw⟩ := walkFromRpa_path hx h1 fun d hd => by simpa using hn d hd
  rw [hw]
  have hv0 : v.contains x = false := by simpa using hv
  simp only [walkPages]
  rw [if_neg h0, hv0, if_neg (by decide), if_neg (by rintro ⟨hr, hm⟩; exact hm (g1 hr)), if_pos g2, g3]
  show (if pageMatches la c = true then _ else _) = _
  rw [if_pos hm]

/-- A pointer of 0 ends the list with a Page Fault. -/
theorem walkFromRpa_null {s : State} {la : Nat} {cs : List PageCopy}
    (h : pagePath s.params s.mem 0 (s.reg .rpa).toNat cs) (hf : cs.find? (pageMatches la) = none) :
    walkFromRpa s la = .fault .page := by
  obtain ⟨f, v, _, hw⟩ := walkFromRpa_path (fun _ _ h _ _ => absurd rfl h) h (by simpa using hf)
  rw [hw]
  simp [walkPages]

/-! ### The lookup and an access -/

/-- With no stale copy in the cache, a lookup is the walk. -/
theorem lookupPage_current {s : State} {q : Nat} {cs : List PageCopy} {la : Nat}
    (h : pagePath s.params s.mem q (s.reg .rpa).toNat cs) (hc : cacheCurrent s.hidden.cache cs la) :
    lookupPage la s = lookupWalked s (walkFromRpa s la) := by
  simp only [lookupPage]
  have : s.hidden.cache.filter (fun c => covers c la && decide (walkFromRpa s la ≠ .found c)) = [] := by
    rw [List.filter_eq_nil_iff]
    intro d hd
    by_cases hm : pageMatches la d = true
    · rw [walkFromRpa_found h (hc d hd hm)]
      simp
    · rw [covers_eq_pageMatches]; simp [hm]
  rw [this]

/-- An access through a page of the list (rules R97, R98). -/
theorem translate_current {s : State} {q : Nat} {cs : List PageCopy} {c : PageCopy} {la : Nat} (n : Nat) (acc : Access)
    (h : pagePath s.params s.mem q (s.reg .rpa).toNat cs) (hc : cacheCurrent s.hidden.cache cs la)
    (hf : cs.find? (pageMatches la) = some c) :
    translate la n acc s =
      if mayAccess c acc then
        if c.baseLogical.toNat + c.size.toNat < la + n then .refuse .crossesPageRegion
        else .ok (pageAddress s.params c la) { s with hidden := cacheAdd s.hidden c }
      else raiseFault .pagePermission { s with hidden := cacheAdd s.hidden c } := by
  unfold translate
  rw [lookupPage_current h hc, walkFromRpa_found h hf]
  simp only [lookupWalked, Res.bind_ok, permits_iff]
  rfl

end Sys2Proof.Machine
end

