-- ==== Sys2Proof/Laws/Context.lean ====
section
/-! SUPPORT. Context switches whose Task Structures are where `taskPlaces` says: what the save and the loads answer. -/

namespace Sys2Proof.Machine

/-- A state with other memory and hidden state. -/
abbrev State.at (s : State) (m : Memory) (h : Hidden) : State := { s with mem := m, hidden := h }

/-- While `G` holds of memory and hidden state, the word of slot `k` of the structure at `base` is at `pa`, for access
`acc`; reaching it changes the page cache only. -/
def SlotsAt (s : State) (G : Memory → Hidden → Prop) (acc : Access) (base pa : Nat) : Prop :=
  ∀ m h k, G m h → k < 28 → ∃ h', G m h' ∧
    resolve (base + k * s.params.wb) s.params.wb s.params.wb acc (s.at m h) =
      .ok (List.range' (pa + k * s.params.wb) s.params.wb) (s.at m h')

/-- Writes within the 28 slots at `pa` keep `G`. -/
def KeptBySave (p : Params) (G : Memory → Hidden → Prop) (pa : Nat) : Prop :=
  ∀ m h addrs bs, G m h → (∀ a ∈ addrs, pa ≤ a ∧ a < pa + 28 * p.wb) → G (m.writeAll addrs bs) h

theorem inMemory_sub {p : Params} {pa n qa k : Nat} (h : inMemory p pa n = true) (h1 : pa ≤ qa) (h2 : qa + k ≤ pa + n) :
    inMemory p qa k = true := by
  simp only [inMemory, Bool.and_eq_true, decide_eq_true_eq] at h ⊢
  omega

theorem regIndex_lt (r : Reg) : regIndex r < 28 := by cases r <;> decide

theorem slot_le (p : Params) {k : Nat} (hk : k < 28) : k * p.wb + p.wb ≤ 28 * p.wb := by
  have : (k + 1) * p.wb ≤ 28 * p.wb := Nat.mul_le_mul_right _ hk
  rwa [Nat.add_mul, Nat.one_mul] at this

theorem slotAddress_toNat {p : Params} {base : Word} {k : Nat} (hk : k < 28)
    (h : base.toNat + 28 * p.wb ≤ 2 ^ p.xlen) : (slotAddress p base k).toNat = base.toNat + k * p.wb := by
  have h1 := slot_le p hk
  have h2 := wb_pos p
  rw [slotAddress, toWord_toNat, Nat.mod_eq_of_lt (by omega)]

/-- Paging off. -/
theorem slotsAt_flat {s : State} (hp : s.pagingOn = false) (G : Memory → Hidden → Prop) (acc : Access) {base : Nat}
    (h : taskAt s.params base) : SlotsAt s G acc base base := by
  intro m g k hG hk
  refine ⟨g, hG, resolve_pagingOff hp ?_ ?_⟩
  · show (base + k * s.params.wb) % s.params.wb = 0
    rw [Nat.add_mul_mod_self_right]; exact h.1
  · have := slot_le s.params hk
    exact inMemory_sub h.2 (by omega) (by show base + k * s.params.wb + s.params.wb ≤ _; omega)

/-- Paging on: the list of pages stands in memory, and the cached copies are among `cached`. -/
def ListStands (s : State) (cs cached : List PageCopy) (m : Memory) (h : Hidden) : Prop :=
  pageChain s.params m (s.reg .rpa).toNat cs ∧ ∀ q ∈ h.cache, q ∈ cached

theorem slotsAt_paged {s : State} (hp : s.pagingOn = true) {cs cached : List PageCopy} {c : PageCopy} {acc : Access}
    {base pa : Nat} (hM : s.params.memSize ≤ 2 ^ s.params.xlen) (h : taskInPage s cs c acc base pa) (hc : c ∈ cached)
    (hcur : ∀ k, k < 28 → cacheCurrent cached cs (base + k * s.params.wb)) :
    SlotsAt s (ListStands s cs cached) acc base pa := by
  intro m g k ⟨hch, hg⟩ hk
  have hle := slot_le s.params hk
  have hf := h.first k hk
  have hmatch : pageMatches (base + 0 * s.params.wb) c = true := List.find?_some (h.first 0 (by decide))
  have hbase : c.baseLogical.toNat < base := by
    have := hmatch
    simp only [pageMatches, Bool.and_eq_true, decide_eq_true_eq] at this
    omega
  have hpa : pageAddress s.params c (base + k * s.params.wb) = pa + k * s.params.wb := by
    have hin := h.memory
    simp only [inMemory, Bool.and_eq_true, decide_eq_true_eq] at hin
    have h28 : 0 < 28 * s.params.wb := by have := wb_pos s.params; omega
    rw [pageAddress, show c.basePhysical.toNat + (base + k * s.params.wb - c.baseLogical.toNat) =
      (c.basePhysical.toNat + (base - c.baseLogical.toNat)) + k * s.params.wb by omega, Nat.add_mod]
    have hpl := h.place
    rw [pageAddress] at hpl
    rw [← hpl, Nat.mod_eq_of_lt (a := k * s.params.wb) (by omega), Nat.mod_eq_of_lt (by omega)]
  refine ⟨cacheAdd g c, ⟨hch, fun q hq => ?_⟩, ?_⟩
  · rcases mem_cacheAdd hq with hq | rfl
    · exact hg q hq
    · exact hc
  · have hpg : (s.at m g).pagingOn = true := hp
    have hal : (base + k * s.params.wb) % s.params.wb = 0 := by rw [Nat.add_mul_mod_self_right]; exact h.aligned
    have hins := h.inside
    unfold resolve
    rw [if_pos hal]
    unfold resolveRange
    rw [if_pos hpg, translate_current (s := s.at m g) (cs := cs) s.params.wb acc hch
      (fun q hq hm => hcur k hk q (hg q hq) hm) hf, if_pos h.permitted, if_neg (by omega), Res.bind_ok]
    show (if inMemory s.params (pageAddress s.params c _) _ = true then _ else _) = _
    rw [hpa, if_pos (inMemory_sub h.memory (by omega) (by omega))]

/-! ### The save (rule R51) -/

theorem storeSlots_placed {s : State} {G : Memory → Hidden → Prop} {base : Word} {pa : Nat}
    (hS : SlotsAt s G .write base.toNat pa) (hK : KeptBySave s.params G pa)
    (htop : base.toNat + 28 * s.params.wb ≤ 2 ^ s.params.xlen) (slots : List (Nat × Word))
    (hs : ∀ x ∈ slots, x.1 < 28) (m : Memory) (h : Hidden) (hG : G m h) :
    ∃ h', G (slots.foldl (fun m x => m.writeAll (List.range' (pa + x.1 * s.params.wb) s.params.wb)
        (beBytes s.params.wb x.2.toNat)) m) h' ∧
      storeSlots base slots (s.at m h) = .ok () (s.at (slots.foldl (fun m x =>
        m.writeAll (List.range' (pa + x.1 * s.params.wb) s.params.wb) (beBytes s.params.wb x.2.toNat)) m) h') := by
  induction slots generalizing m h with
  | nil => exact ⟨h, hG, rfl⟩
  | cons x slots ih =>
    obtain ⟨i, v⟩ := x
    have hi : i < 28 := hs (i, v) List.mem_cons_self
    obtain ⟨h1, hG1, hr⟩ := hS m h i hG hi
    have hle := slot_le s.params hi
    have hG2 : G (m.writeAll (List.range' (pa + i * s.params.wb) s.params.wb) (beBytes s.params.wb v.toNat)) h1 :=
      hK m h1 _ _ hG1 fun a ha => by rw [List.mem_range'_1] at ha; omega
    obtain ⟨h2, hG3, hi2⟩ := ih (fun x hx => hs x (List.mem_cons_of_mem _ hx)) _ h1 hG2
    refine ⟨h2, hG3, ?_⟩
    have hw : storeWord (slotAddress s.params base i) v .write (s.at m h) =
        .ok () (s.at (m.writeAll (List.range' (pa + i * s.params.wb) s.params.wb) (beBytes s.params.wb v.toNat)) h1) := by
      refine memWrite_ok.mpr ⟨_, s.at m h1, ?_, rfl⟩
      rw [slotAddress_toNat hi htop]
      exact hr
    simp only [storeSlots]
    show (storeWord (slotAddress s.params base i) v .write (s.at m h)).bind _ = _
    rw [hw, Res.bind_ok]
    exact hi2

theorem Memory.writeAll_append (m : Memory) (as bs : List Nat) (xs ys : List Byte) (h : as.length = xs.length) :
    m.writeAll (as ++ bs) (xs ++ ys) = (m.writeAll as xs).writeAll bs ys := by
  induction as generalizing m xs with
  | nil =>
    cases xs with
    | nil => rfl
    | cons x xs => simp at h
  | cons a as ih =>
    cases xs with
    | nil => simp at h
    | cons x xs => exact ih (m.write a x) xs (by simpa using h)

/-- The save of `n` consecutive slots from `k` on is one write of consecutive bytes. -/
theorem foldl_slots (p : Params) (pa : Nat) (f : Reg → Word) (rs : List Reg) (k : Nat) (m : Memory)
    (h : ∀ i, i < rs.length → ∀ r, rs[i]? = some r → regIndex r = k + i) :
    (rs.map fun r => (regIndex r, f r)).foldl (fun m x => m.writeAll (List.range' (pa + x.1 * p.wb) p.wb)
      (beBytes p.wb x.2.toNat)) m =
      m.writeAll (List.range' (pa + k * p.wb) (rs.length * p.wb)) (rs.flatMap fun r => beBytes p.wb (f r).toNat) := by
  induction rs generalizing k m with
  | nil => simp [Memory.writeAll]
  | cons r rs ih =>
    have h0 : regIndex r = k := by simpa using h 0 (by simp) r (by simp)
    have := ih (k + 1) (m.writeAll (List.range' (pa + k * p.wb) p.wb) (beBytes p.wb (f r).toNat))
      fun i hi q hq => by
        have := h (i + 1) (by simpa using hi) q (by simpa using hq)
        omega
    simp only [List.map_cons, List.foldl_cons, List.flatMap_cons, List.length_cons, h0] at this ⊢
    rw [this, show (rs.length + 1) * p.wb = p.wb + rs.length * p.wb by ring,
      ← List.range'_append_1, Memory.writeAll_append _ _ _ _ _ (by simp)]
    rw [show pa + (k + 1) * p.wb = pa + k * p.wb + p.wb by ring]

theorem allRegs_index : ∀ i, i < allRegs.length → ∀ r, allRegs[i]? = some r → regIndex r = 0 + i := by decide

/-- The save. -/
theorem saveContext_placed {s : State} {G : Memory → Hidden → Prop} {base : Word} {pa : Nat}
    (hS : SlotsAt s G .write base.toNat pa) (hK : KeptBySave s.params G pa)
    (htop : base.toNat + 28 * s.params.wb ≤ 2 ^ s.params.xlen) (hG : G s.mem s.hidden) (v : Word) :
    ∃ h', G (savedMemory s pa v) h' ∧ saveContext base v s = .ok () (s.at (savedMemory s pa v) h') := by
  obtain ⟨h', h1, h2⟩ := storeSlots_placed hS hK htop
    (allRegs.map fun r => (regIndex r, if r = .rip then v else s.reg r)) (by
      intro x hx
      obtain ⟨r, _, rfl⟩ := List.mem_map.mp hx
      exact regIndex_lt r) s.mem s.hidden hG
  rw [foldl_slots s.params pa _ allRegs 0 s.mem allRegs_index] at h1 h2
  have e : s.mem.writeAll (List.range' (pa + 0 * s.params.wb) (allRegs.length * s.params.wb))
      (allRegs.flatMap fun r => beBytes s.params.wb (if r = .rip then v else s.reg r).toNat) = savedMemory s pa v := by
    rw [Nat.zero_mul, Nat.add_zero]; rfl
  rw [e] at h1 h2
  exact ⟨h', h1, h2⟩

/-! ### The loads (rule R52) -/

theorem loadSlots_placed {s : State} {G : Memory → Hidden → Prop} {base : Word} {pa : Nat}
    (hS : SlotsAt s G .read base.toNat pa) (htop : base.toNat + 28 * s.params.wb ≤ 2 ^ s.params.xlen)
    (keep rs : List Reg) (m : Memory) (h : Hidden) (hG : G m h)
    (hheld : ∀ r ∈ rs, r ∈ keep →
      ∀ a ∈ List.range' (pa + regIndex r * s.params.wb) s.params.wb, m.read? a ≠ none) :
    ∃ h', G m h' ∧ loadSlots base keep rs (s.at m h) =
      .ok ((rs.filter fun r => keep.contains r).map fun r => (r, slotValue s.params m pa r)) (s.at m h') := by
  induction rs generalizing h with
  | nil => exact ⟨h, hG, rfl⟩
  | cons r rs ih =>
    have hi := regIndex_lt r
    obtain ⟨h1, hG1, hr⟩ := hS m h (regIndex r) hG hi
    obtain ⟨h2, hG2, hrest⟩ := ih h1 hG1 fun q hq => hheld q (List.mem_cons_of_mem _ hq)
    refine ⟨h2, hG2, ?_⟩
    have ha := slotAddress_toNat (p := s.params) hi htop
    simp only [loadSlots]
    show (accessSlot (slotAddress s.params base (regIndex r)) (keep.contains r) (s.at m h)).bind _ = _
    by_cases hk : keep.contains r = true
    · have hl : loadWord (slotAddress s.params base (regIndex r)) .read (s.at m h) =
          .ok (slotValue s.params m pa r) (s.at m h1) := by
        have hb : (List.range' (pa + regIndex r * s.params.wb) s.params.wb).map (s.at m h).mem.read? =
            ((List.range' (pa + regIndex r * s.params.wb) s.params.wb).filterMap m.read?).map some := by
          have hh := hheld r List.mem_cons_self (by simpa using hk)
          generalize List.range' (pa + regIndex r * s.params.wb) s.params.wb = L at hh
          induction L with
          | nil => rfl
          | cons a L ihL =>
            have h0 := hh a List.mem_cons_self
            cases hm : m.read? a with
            | none => exact absurd hm h0
            | some b =>
              simp only [List.map_cons, List.filterMap_cons, hm, List.map_cons]
              rw [ihL fun x hx => hh x (List.mem_cons_of_mem _ hx)]
        rw [← ha] at hr
        exact (loadWord_eq (acc := .read) hb hr).1
      unfold accessSlot
      rw [if_pos hk, hl, Res.bind_ok, hrest, Res.bind_ok, List.filter_cons_of_pos (by exact hk), if_pos hk]
      rfl
    · unfold accessSlot
      rw [if_neg hk, ha]
      show ((resolve _ s.params.wb s.params.wb _ _).bind _).bind _ = _
      rw [hr, Res.bind_ok, Res.bind_ok, hrest, Res.bind_ok, List.filter_cons_of_neg (by exact hk), if_neg hk]

/-- A byte that holds a value still does after writes. -/
theorem Memory.read?_writeAll_ne_none {m : Memory} {a : Nat} (h : m.read? a ≠ none) (addrs : List Nat) (bs : List Byte) :
    (m.writeAll addrs bs).read? a ≠ none := by
  induction addrs generalizing m bs with
  | nil => exact h
  | cons x addrs ih =>
    cases bs with
    | nil => exact h
    | cons b bs =>
      refine ih ?_ bs
      by_cases hx : a = x
      · subst hx; simp
      · rwa [Memory.read?_write_other _ _ hx]

theorem slotValue_fits (p : Params) (m : Memory) (base : Nat) (r : Reg) : fits p (slotValue p m base r) = true := by
  refine fits_ofNat p (lt_of_lt_of_le (beValue_lt _) ?_)
  rw [← pow_wb]
  exact Nat.pow_le_pow_right (by decide) (le_trans (List.length_filterMap_le _ _) (by simp))

/-- A page list that does not meet the bytes written stands. -/
theorem readField_writeAll_other {m : Memory} {wb pa : Nat} (addrs : List Nat) (bs : List Byte)
    (h : ∀ a ∈ addrs, a < pa ∨ pa + wb ≤ a) : readField (m.writeAll addrs bs) wb pa = readField m wb pa := by
  have e : ∀ a ∈ List.range' pa wb, (m.writeAll addrs bs).read? a = m.read? a := fun a ha =>
    Memory.read?_writeAll_other _ _ _ fun hm => by
      rw [List.mem_range'_1] at ha
      have := h a hm
      omega
  unfold readField
  have e1 : (List.range' pa wb).find? (fun a => ((m.writeAll addrs bs).read? a).isNone) =
      (List.range' pa wb).find? (fun a => (m.read? a).isNone) := by
    apply List.find?_congr
    intro a ha
    rw [e a ha]
  have e2 : (List.range' pa wb).filterMap (m.writeAll addrs bs).read? = (List.range' pa wb).filterMap m.read? :=
    List.filterMap_congr e
  rw [e1, e2]

theorem readPage_writeAll_other {m : Memory} {p : Params} {pa : Nat} (addrs : List Nat) (bs : List Byte)
    (h : ∀ a ∈ addrs, a < pa ∨ pa + p.pageBytes ≤ a) : readPage (m.writeAll addrs bs) p.wb pa = readPage m p.wb pa := by
  have hb : p.pageBytes = 6 * p.wb := rfl
  have f : ∀ k, k < 6 → readField (m.writeAll addrs bs) p.wb (pa + k * p.wb) = readField m p.wb (pa + k * p.wb) := by
    intro k hk
    refine readField_writeAll_other addrs bs fun a ha => ?_
    have := h a ha
    have : (k + 1) * p.wb ≤ 6 * p.wb := Nat.mul_le_mul_right _ hk
    rw [Nat.add_mul, Nat.one_mul] at this
    omega
  have f0 := f 0 (by decide)
  have f1 := f 1 (by decide)
  rw [Nat.zero_mul, Nat.add_zero] at f0
  rw [Nat.one_mul] at f1
  unfold readPage
  rw [f0, f1, f 2 (by decide), f 3 (by decide), f 4 (by decide), f 5 (by decide)]

theorem pageChain_writeAll_other {m : Memory} {p : Params} {ptr : Nat} {cs : List PageCopy} (addrs : List Nat)
    (bs : List Byte) (h : ∀ q ∈ ptr :: cs.map (fun c => c.next.toNat), ∀ a ∈ addrs, a < q ∨ q + p.pageBytes ≤ a)
    (hc : pageChain p m ptr cs) : pageChain p (m.writeAll addrs bs) ptr cs := by
  induction cs generalizing ptr with
  | nil => exact hc
  | cons c cs ih =>
    obtain ⟨h0, h1, h2, h3, h4⟩ := hc
    refine ⟨h0, h1, h2, ?_, ih (fun q hq => h q (List.mem_cons_of_mem _ hq)) h4⟩
    rw [readPage_writeAll_other addrs bs (h ptr List.mem_cons_self)]
    exact h3

/-- Where the structures are depends on the memory, the addressing mode and the page cache only. -/
theorem taskPlaces_congr {s t : State} {saved loaded : Word} {ps pl : Nat} (h1 : t.params = s.params)
    (h2 : t.mem = s.mem) (h3 : t.reg .rst = s.reg .rst) (h4 : t.reg .rpa = s.reg .rpa)
    (h5 : t.hidden.cache = s.hidden.cache) (h : taskPlaces s saved loaded ps pl) : taskPlaces t saved loaded ps pl := by
  have hp : t.pagingOn = s.pagingOn := by unfold State.pagingOn; rw [h3]
  rcases h with h | ⟨g, cs, c, d, hc, ⟨a1, a2, a3, a4, a5, a6, a7⟩, ⟨b1, b2, b3, b4, b5, b6, b7⟩, hd, hk⟩
  · left; rw [hp, h1]; exact h
  · right
    refine ⟨by rw [hp]; exact g, cs, c, d, by rw [h1, h2, h4]; exact hc, ⟨?_, a2, ?_, ?_, ?_, ?_, ?_⟩,
      ⟨?_, b2, ?_, ?_, ?_, ?_, ?_⟩, by rw [h1, h4]; exact hd, by rw [h1, h5]; exact hk⟩ <;> rw [h1] <;> assumption

/-- What `taskPlaces` gives: the two structures' slots, and memory and hidden state to start from. -/
theorem taskPlaces_slots {s : State} {saved loaded : Word} {ps pl : Nat} (hM : s.params.wf = true)
    (h : taskPlaces s saved loaded ps pl) : ∃ G H : Memory → Hidden → Prop,
      SlotsAt s G .write saved.toNat ps ∧ KeptBySave s.params G ps ∧ SlotsAt s H .read loaded.toNat pl ∧
      (∀ m g, G m g → H m g) ∧ G s.mem s.hidden ∧ saved.toNat + 28 * s.params.wb ≤ 2 ^ s.params.xlen ∧
      loaded.toNat + 28 * s.params.wb ≤ 2 ^ s.params.xlen := by
  have hM2 : s.params.memSize ≤ 2 ^ s.params.xlen := by
    simp only [Params.wf, Bool.and_eq_true, decide_eq_true_eq] at hM
    exact hM.1.2
  rcases h with ⟨hp, rfl, rfl, h1, h2⟩ | ⟨hp, cs, c, d, hch, h1, h2, hdis, hcur⟩
  · have b1 := h1.2
    have b2 := h2.2
    simp only [inMemory, Bool.and_eq_true, decide_eq_true_eq] at b1 b2
    exact ⟨fun _ _ => True, fun _ _ => True, slotsAt_flat hp _ .write h1, fun _ _ _ _ _ _ => trivial,
      slotsAt_flat hp _ .read h2, fun _ _ h => h, trivial, by omega, by omega⟩
  · refine ⟨ListStands s cs (c :: s.hidden.cache), ListStands s cs (d :: c :: s.hidden.cache),
      slotsAt_paged hp hM2 h1 List.mem_cons_self fun k hk => (hcur k hk).1, ?_,
      slotsAt_paged hp hM2 h2 List.mem_cons_self fun k hk q hq hm => ?_, ?_, ?_, h1.top, h2.top⟩
    · rintro m g addrs bs ⟨hc, hg⟩ ha
      refine ⟨pageChain_writeAll_other addrs bs (fun q hq a hx => ?_) hc, hg⟩
      have := hdis q hq
      have := ha a hx
      omega
    · rcases List.mem_cons.mp hq with rfl | hq
      · exact h2.first k hk
      · exact (hcur k hk).2 q hq hm
    · exact fun m g hg => ⟨hg.1, fun q hq => List.mem_cons_of_mem _ (hg.2 q hq)⟩
    · exact ⟨hch, fun q hq => List.mem_cons_of_mem _ hq⟩

/-- Registers loaded from the slots at `pl`. -/
def loadedRegs (p : Params) (m : Memory) (pl : Nat) (keep : List Reg) : List (Reg × Word) :=
  keep.map fun r => (r, slotValue p m pl r)

theorem loadedRegs_fst (p : Params) (m : Memory) (pl : Nat) (keep : List Reg) :
    (loadedRegs p m pl keep).map Prod.fst = keep := by simp [loadedRegs, Function.comp_def]

/-- A register loaded from its slot. -/
theorem setRegs_loadedRegs_reg (s : State) (m : Memory) (pl : Nat) (keep : List Reg) {r : Reg} (hn : keep.Nodup)
    (hr : r ∈ keep) : (setRegs s (loadedRegs s.params m pl keep)).reg r = slotValue s.params m pl r := by
  have hm : (r, slotValue s.params m pl r) ∈ loadedRegs s.params m pl keep := List.mem_map.mpr ⟨r, hr, rfl⟩
  rw [setRegs_reg_mem (by rw [loadedRegs_fst]; exact hn) hm]
  exact toWord_of_lt _ _ ((fits_iff _ _).mp (slotValue_fits _ _ _ _))

/-- A save and then a load, where both structures are in place. -/
theorem saveThenLoad_placed {s : State} {saved loaded : Word} {ps pl : Nat} (hM : s.params.wf = true)
    (h : taskPlaces s saved loaded ps pl) (v : Word) {keep : List Reg}
    (hk : allRegs.filter (fun r => keep.contains r) = keep) (hh : slotsHeld s pl keep) :
    ∃ h1 h2, saveContext saved v s = .ok () (s.at (savedMemory s ps v) h1) ∧
      loadContext loaded keep (s.at (savedMemory s ps v) h1) = .ok ()
        (setRegs (s.at (savedMemory s ps v) h2) (loadedRegs s.params (savedMemory s ps v) pl keep)) := by
  obtain ⟨G, H, hS, hK, hL, hGH, hG, ht1, ht2⟩ := taskPlaces_slots hM h
  obtain ⟨h1, hG1, e1⟩ := saveContext_placed hS hK ht1 hG v
  obtain ⟨h2, _, e2⟩ := loadSlots_placed hL ht2 keep allRegs _ h1 (hGH _ _ hG1) fun r _ hr a ha =>
    Memory.read?_writeAll_ne_none (hh r hr a ha) _ _
  refine ⟨h1, h2, e1, ?_⟩
  unfold loadContext
  rw [e2, hk]
  rfl

theorem setRegs_rpa_cache {s : State} {vs : List (Reg × Word)} (h : .rpa ∈ vs.map Prod.fst) :
    (setRegs s vs).hidden.cache = [] := by
  have hnil : ∀ (s : State) (vs : List (Reg × Word)), s.hidden.cache = [] → (setRegs s vs).hidden.cache = [] := by
    intro s vs hs
    exact List.eq_nil_iff_forall_not_mem.mpr fun c hc => by
      have := setRegs_cache_sub hc
      rw [hs] at this
      cases this
  induction vs generalizing s with
  | nil => cases h
  | cons x vs ih =>
    obtain ⟨r, v⟩ := x
    rcases List.mem_cons.mp h with hr | hr
    · have : r = .rpa := hr.symm
      subst this
      exact hnil _ vs rfl
    · exact ih hr

/-- The trap-entry context switch, where both structures are in place (rule R341). -/
theorem enterBase_placed {s : State} {ps pl : Nat} (hM : s.params.wf = true)
    (h : taskPlaces s (s.reg .rct) (s.reg .rbt) ps pl) (hh : slotsHeld s pl baseControl) (v : Word) :
    ∃ t, Switched [] s ps pl v t ∧ enterBase v s =
      if baseLevel1 s ps pl v then raiseFault .machineCheck (t.recordFault ⟨.machineCheck, none⟩) else .ok () t := by
  obtain ⟨h1, h2, e1, e2⟩ := saveThenLoad_placed hM h v (keep := baseControl) allRegs_filter_baseRegs hh
  have hfst := loadedRegs_fst s.params (savedMemory s ps v) pl baseControl
  have hnd : baseControl.Nodup := by decide
  have hreg : ∀ r ∈ baseControl, (setRegs (s.at (savedMemory s ps v) h2)
      (loadedRegs s.params (savedMemory s ps v) pl baseControl)).reg r = slotValue s.params (savedMemory s ps v) pl r := by
    exact fun r hr => setRegs_loadedRegs_reg _ _ _ _ hnd hr
  refine ⟨_, ⟨?_, hreg, ⟨fun r hr => ?_, fun a ha => ?_, ?_, ?_, ?_, ?_, ?_, ?_⟩, ?_⟩, ?_⟩
  · simp
  · rw [setRegs_reg_other (by rw [hfst]; exact hr)]
    rfl
  · rw [setRegs_mem]
    exact Memory.read?_writeAll_other _ _ _ ha
  · simp
  · simp
  · simp
  · simp
  · simp
  · simp
  · exact setRegs_rpa_cache (by rw [hfst]; decide)
  · unfold enterBase
    rw [e1, Res.bind_ok]
    show contextFault ((loadContext (s.reg .rbt) baseRegs _).bind _) = _
    rw [show baseRegs = baseControl from rfl, e2, Res.bind_ok]
    unfold State.level1
    rw [hreg .rst (by decide)]
    unfold baseLevel1
    by_cases hb : (slotValue s.params (savedMemory s ps v) pl .rst).getLsbD 3 = true
    · rw [if_pos hb, if_pos hb]; rfl
    · rw [if_neg hb, if_neg hb]; rfl

end Sys2Proof.Machine
end

