-- ==== Sys2Proof/Laws/Step.lean ====
section
/-! SUPPORT. What an instruction and a step can do, said once: a predicate that survives each of the effects listed in
`KeepsExec` and `KeepsStep` survives `exec` and `step`. -/

namespace Sys2Proof.Machine

/-- The registers an instruction may write without the check of rule R26, RIP and RFF apart: RRA by CALL and RET, RCMP
by CMP, RARTH and the extended operands by ARTH, RGP1 by a hardware interrupt, any data register by the routine of an
implementation-specific one. -/
def uncheckedRegs : List Reg :=
  [.rra, .rcmp, .rarth, .rgp1, .rgp2, .rgp3, .rgp4, .rgp5, .rgp6, .rgp7, .rgp8, .ral1, .ral2, .ral3, .ral4, .rfp1,
    .rfp2, .rfp3, .rfp4]

/-- `P` survives every effect instruction `i` may have. -/
structure KeepsExec (i : Instr) (P : State → Prop) : Prop extends KeepsEntry P where
  /-- An explicit register write that passes its check. -/
  checked : ∀ s r v, P s → writeFault s r v = none → P (s.setReg r v)
  unchecked : ∀ s r v, P s → r ∈ uncheckedRegs → P (s.setReg r v)
  /-- The load of all registers by LTSK, at level 0 with RST bit 2 set. -/
  full : ∀ s vs, P s → i = .ltsk → s.tasksOn = true → s.level1 = false → vs.map Prod.fst = allRegs → P (setRegs s vs)
  vector : ∀ s n, P s → i = .intr 0x01 → bitsFrom (s.reg .rgp2) 1 = 0 →
    P { s with vector := s.vector.setIfInBounds n ⟨s.reg .rgp2, s.reg .rgp3⟩ }
  timer : ∀ s n g, P s → i = .intr 0x0F → P { s with timers := s.timers.setIfInBounds n (some ⟨g, s.reg .rgp3⟩) }
  display : ∀ s bs, P s → i = .intr 0x0A → P { s with world := { s.world with display := bs } }
  storage : ∀ s ds, P s → i = .intr 0x0B → P { s with world := { s.world with storage := ds } }

/-- `P` survives every effect a step may have. -/
structure KeepsStep (P : State → Prop) : Prop where
  exec : ∀ i, KeepsExec i P
  pending : ∀ s ps, P s → (∀ r ∈ ps, r ∈ s.pending ∨ r.legal s.params = true) → P { s with pending := ps }
  expiry : ∀ s n, P s → P { s with timers := s.timers.setIfInBounds n none }
  tick : ∀ s ts b e, P s → P { s with world := { s.world with inputs := ts, deviceFails := b, routine := e } }

/-! ### The parts of the meanings -/

theorem nextPc_all (P : State → Prop) (k : Nat) {s : State} (h : P s) : (nextPc k s).All P := by
  unfold nextPc
  split
  · exact h
  · split
    · trivial
    · exact h

/-- The address of the next instruction changes nothing. -/
theorem nextPc_ok {k : Nat} {s t : State} {v : Word} (h : nextPc k s = .ok v t) : t = s := by
  unfold nextPc at h
  split at h
  · injection h with _ h; exact h.symm
  · split at h
    · cases h
    · injection h with _ h; exact h.symm

/-- An extended operand is a RAL or an RFP register. -/
theorem arthExtended_mem {c : Word} {e : Reg} (h : arthExtended c = some e) : e ∈ uncheckedRegs := by
  unfold arthExtended at h
  repeat' split at h
  all_goals first | (injection h with h; subst h; decide) | cases h

theorem arthInteger_extended {p : Params} {c : Word} {rs rt : Reg} {a b : Word} {x : ArthResult}
    (h : arthInteger p c rs rt a b = some x) {e : Reg} {v : Word} (he : x.extended = some (e, v)) :
    e ∈ uncheckedRegs := by
  simp only [arthInteger] at h
  split at h
  · cases h
  · split at h
    · injection h with h; subst h; cases he
    · next e' hx =>
      injection h with h; subst h
      simp only [Option.some.injEq, Prod.mk.injEq] at he
      exact he.1 ▸ arthExtended_mem hx

theorem arthFloat_extended {p : Params} {c : Word} {a b : Word} {x : ArthResult}
    (h : arthFloat p c a b = some x) {e : Reg} {v : Word} (he : x.extended = some (e, v)) : e ∈ uncheckedRegs := by
  simp only [arthFloat] at h
  split at h
  · cases h
  · split at h
    · cases h
    · split at h
      · injection h with h; subst h; cases he
      · next e' hx =>
        injection h with h; subst h
        simp only [Option.some.injEq, Prod.mk.injEq] at he
        exact he.1 ▸ arthExtended_mem hx

/-- The physical addresses of a Storage I/O transfer are addresses software can reach (rules R87, R327). -/
theorem storageAddresses_ok {acc : Access} {base len : Nat} {s t : State} {addrs : List Nat}
    (h : storageAddresses acc base len s = .ok addrs t) :
    SameButHidden s t ∧ addrs.length = len ∧ ∀ x ∈ addrs, reachable s.params x = true := by
  unfold storageAddresses at h
  split at h
  · cases h
  split at h
  · next hl =>
    injection h with h1 h2; subst h1 h2
    exact ⟨SameButHidden.same s, hl.symm, by simp⟩
  split at h
  · cases h
  split at h
  · exact resolveBytes_ok h
  split at h
  · next hin =>
    injection h with h1 h2; subst h1 h2
    exact ⟨SameButHidden.same s, by simp, fun x hx => reachable_of_inMemory hin hx⟩
  · cases h

theorem storageAddresses_all {P : State → Prop} (k : KeepsLookup P) (acc : Access) (base len : Nat) {s : State}
    (h : P s) : (storageAddresses acc base len s).All P := by
  unfold storageAddresses
  split
  · trivial
  split
  · exact h
  split
  · exact h
  split
  · exact resolveBytes_all k acc len base h
  split
  · exact h
  · exact h

theorem marked_all {P : State → Prop} {α : Type} {id : Byte} {x : Res α} (h : x.All P) : (marked id x).All P := by
  cases x <;> exact h

theorem marked_ok {α : Type} {id : Byte} {x : Res α} {a : α} {s : State} (h : marked id x = .ok a s) :
    x = .ok a s := by
  cases x <;> first | exact h | cases h

/-- RGP2 survives a context switch to the base task, which loads nine control registers. -/
theorem keepsEntry_rgp2 (v : Word) : KeepsEntry fun s => s.reg .rgp2 = v where
  hidden _ _ h _ := h
  mem _ _ _ h _ := h
  rip s w h := (s.reg_setReg_other w (by decide)).trans h
  record s t h := (s.recordFault_reg t (by decide)).trans h
  halt _ h := h
  base s vs h _ hv := (setRegs_reg_other (by rw [hv]; decide)).trans h

theorem keepsEntry_and {P Q : State → Prop} (p : KeepsEntry P) (q : KeepsEntry Q) :
    KeepsEntry fun s => P s ∧ Q s where
  toKeepsAccess := keepsAccess_and p.toKeepsAccess q.toKeepsAccess
  rip s v h := ⟨p.rip s v h.1, q.rip s v h.2⟩
  record s t h := ⟨p.record s t h.1, q.record s t h.2⟩
  halt s h := ⟨p.halt s h.1, q.halt s h.2⟩
  base s vs h ht hv := ⟨p.base s vs h.1 ht hv, q.base s vs h.2 ht hv⟩

theorem isData_unchecked {r : Reg} (h : isData r = true) : r ∈ uncheckedRegs := by
  cases r <;> first | decide | (exact absurd h (by decide))

section parts

variable {i : Instr} {P : State → Prop} (k : KeepsExec i P)

include k

theorem thenGoTo_all {x : Res Unit} (next : Word) (hx : x.All P) : (thenGoTo next x).All P :=
  Res.All.bind_same hx fun _ s h => k.rip s next h

theorem writeReg_all {s : State} (r : Reg) (v : Word) (h : P s) : (writeReg r v s).All P := by
  unfold writeReg
  split
  · exact h
  · next hf => exact k.checked s r v h hf

theorem writeTo_all {s : State} (next : Word) (r : Reg) (v : Word) (h : P s) :
    (thenGoTo next (writeReg r v s)).All P := thenGoTo_all k next (writeReg_all k r v h)

theorem storeTo_all {s : State} (next a v : Word) (acc : Access) (h : P s) :
    (thenGoTo next (storeWord a v acc s)).All P := thenGoTo_all k next (storeWord_all k.toKeepsAccess a v acc h)

theorem compareResult_all {s : State} (f : Relation → Bool) (next : Word) (h : P s) :
    (compareResult f next s).All P :=
  k.rip _ _ (k.unchecked _ _ _ h (by decide))

theorem callTo_all {s : State} (target next : Word) (h : P s) : (callTo target next s).All P :=
  Res.All.bind_same (storeWord_all k.toKeepsAccess _ _ _ h) fun _ _ h =>
    k.rip _ _ (k.unchecked _ _ _ h (by decide))

theorem arthCommit_all {s : State} (rt : Reg) (x : ArthResult) (next : Word) (h : P s)
    (hx : ∀ e v, x.extended = some (e, v) → e ∈ uncheckedRegs) : (arthCommit rt x next s).All P := by
  unfold arthCommit
  split
  · exact h
  · next hf =>
    have h1 := k.checked s rt x.target h hf
    refine k.rip _ _ (k.unchecked _ _ _ ?_ (by decide))
    split
    · next e v he => exact k.unchecked _ _ _ h1 (hx e v he)
    · exact h1

theorem arthEnd_all {s : State} (f : ArchFault) (rt : Reg) (x : Option ArthResult) (next : Word) (h : P s)
    (hx : ∀ y e v, x = some y → y.extended = some (e, v) → e ∈ uncheckedRegs) : (arthEnd f rt x next s).All P := by
  cases x with
  | none => exact h
  | some y => exact arthCommit_all k rt y next h fun e v he => hx y e v rfl he

theorem cebBlock_all {s : State} (start stop : Word) (h : P s) : (cebBlock start stop s).All P := by
  unfold cebBlock
  split
  · exact h
  split
  · exact h
  split
  · trivial
  · exact k.rip _ _ h

theorem drawOne_keeps {s : State} (h : P s) : P (drawOne s) :=
  k.hidden s _ h fun _ hc => .inl hc

theorem setRegs_keeps {s : State} {vs : List (Reg × Word)} (h : P s) (hv : ∀ x ∈ vs, x.1 ∈ uncheckedRegs) :
    P (setRegs s vs) := by
  induction vs generalizing s with
  | nil => exact h
  | cons x vs ih =>
    exact ih (k.unchecked s x.1 x.2 h (hv x List.mem_cons_self)) fun y hy => hv y (List.mem_cons_of_mem _ hy)

/-- An implementation's routine writes data registers, and bytes that software can reach. -/
theorem applyRoutine_keeps {s : State} (e : RoutineEffect) (h : P s) : P (applyRoutine e s) := by
  simp only [applyRoutine]
  refine k.mem _ _ _ (setRegs_keeps k h fun x hx => ?_) fun a ha => ?_
  · exact isData_unchecked (List.mem_filter.mp hx).2
  · obtain ⟨c, hc, rfl⟩ := List.mem_map.mp ha
    have := (List.mem_filter.mp hc).2
    rw [setRegs_params]
    exact reachable_of_inMemory this (by simp)

end parts

/-! ### Interrupts -/

theorem storageTransfer_all {P : State → Prop} (k : KeepsExec (.intr 0x0B) P) {s : State} (toMemory : Bool)
    (d : StorageDevice) {addrs : List Nat} (h : P s) (ha : ∀ x ∈ addrs, reachable s.params x = true) :
    (storageTransfer toMemory d addrs s).All P := by
  simp only [storageTransfer]
  split
  · exact h
  split
  · show P (storageFailed toMemory d addrs s)
    simp only [storageFailed]
    split
    · exact drawOne_keeps k (k.mem s addrs _ h ha)
    · exact drawOne_keeps k (k.storage s _ h rfl)
  split
  · exact k.mem s addrs _ h ha
  · exact Res.All.bind_same (readAll_all P addrs h) fun bs t h => k.storage t _ h rfl

theorem storageIo_all {P : State → Prop} (k : KeepsExec (.intr 0x0B) P) {s : State} (h : P s) : (storageIo s).All P := by
  simp only [storageIo]
  split
  · exact h
  split
  · exact h
  · refine Res.All.bind_eq (marked_all (storageAddresses_all k.toKeepsLookup _ _ _ h)) fun addrs t ht hP => ?_
    obtain ⟨hs, _, hr⟩ := storageAddresses_ok (marked_ok ht)
    exact storageTransfer_all k _ _ hP fun x hx => hs.params ▸ hr x hx

theorem displayOutput_all {P : State → Prop} (k : KeepsExec (.intr 0x0A) P) {s : State} (h : P s) :
    (displayOutput s).All P := by
  unfold displayOutput
  split
  · exact h
  · exact k.display s _ h rfl

theorem byte_eq_of_toNat {b : Byte} {n : Nat} (h : b.toNat = n) : b = BitVec.ofNat 8 n := by
  rw [← h, BitVec.ofNat_toNat, BitVec.setWidth_eq]

/-- Step 1 of a granted INTR: its checks and its device operation. -/
theorem intrPrepare_all {P : State → Prop} {id : Byte} (k : KeepsExec (.intr id) P) {s : State} (h : P s) :
    (intrPrepare id s).All P := by
  unfold intrPrepare
  split
  · split
    · exact h
    split
    · trivial
    · exact h
  · next he => obtain rfl := byte_eq_of_toNat he; exact displayOutput_all k h
  · next he => obtain rfl := byte_eq_of_toNat he; exact storageIo_all k h
  · split
    · exact h
    · exact h
  · split
    · unfold routineCheck
      split
      · exact h
      · exact h
    · exact h

/-- After step 1 of INTR 0x01 no reserved vector flag is set. -/
theorem intrPrepare_flags {s t : State} {u : Unit} (h : intrPrepare 0x01 s = .ok u t) :
    bitsFrom (t.reg .rgp2) 1 = 0 := by
  simp only [intrPrepare, BitVec.reduceToNat] at h
  split at h
  · cases h
  split at h
  · cases h
  · next hb => injection h with _ h; subst h; simpa using hb

theorem intrRoutine_keeps {P : State → Prop} {id : Byte} (k : KeepsExec (.intr id) P) {s : State} (h : P s)
    (hf : id = 0x01 → bitsFrom (s.reg .rgp2) 1 = 0) : P (intrRoutine id s) := by
  unfold intrRoutine
  split
  · next he => obtain rfl := byte_eq_of_toNat he; exact k.vector s _ h rfl (hf rfl)
  · exact k.halt s h
  · exact k.hidden s _ h fun c hc => .inl (List.mem_of_mem_filter hc)
  · next he =>
    obtain rfl := byte_eq_of_toNat he
    split
    · exact k.timer s _ _ h rfl
    · exact h
  · split
    · exact applyRoutine_keeps k _ h
    · exact h

theorem enterHandler_keeps {P : State → Prop} (k : KeepsEntry P) {s : State} (id : Byte) (h : P s) :
    P (enterHandler id s) := by
  simp only [enterHandler]
  split
  · exact h
  · exact k.rip _ _ h

theorem intrSequence_all {P : State → Prop} {id : Byte} (k : KeepsExec (.intr id) P) {s : State} (next : Word)
    (h : P s) : (intrSequence id next s).All P := by
  unfold intrSequence
  refine Res.All.bind_eq (intrPrepare_all k h) fun u s1 he h1 => ?_
  have hf : id = 0x01 → bitsFrom (s1.reg .rgp2) 1 = 0 := fun hid => by subst hid; exact intrPrepare_flags he
  have k2 := keepsEntry_and k.toKeepsEntry (keepsEntry_rgp2 (s1.reg .rgp2))
  refine Res.All.bind (switchToBase_all k2 next (s := s1.setReg .rip next)
    ⟨k.rip s1 next h1, s1.reg_setReg_other next (by decide)⟩) (fun _ s2 h2 => ?_) (fun _ h => h.1)
  have h3 : P (intrRoutine id s2) := intrRoutine_keeps k h2.1 fun hid => by rw [h2.2]; exact hf hid
  show P (intrHandler id (intrRoutine id s2))
  unfold intrHandler
  split
  · exact enterHandler_keeps k.toKeepsEntry _ h3
  · exact h3

/-! ### LTSK -/

theorem keepsAccess_level0 : KeepsAccess fun s => s.tasksOn = true ∧ s.level1 = false where
  hidden _ _ h _ := h
  mem _ _ _ h _ := h

theorem loadTask_all {P : State → Prop} (k : KeepsExec .ltsk P) {s : State} (next : Word) (h : P s)
    (ht : s.tasksOn = true) (hl : s.level1 = false) : (loadTask next s).All P := by
  have k2 := keepsAccess_and k.toKeepsAccess keepsAccess_level0
  refine contextFault_all ?_ k.record
  refine Res.All.bind (saveContext_all k2 _ _ ⟨h, ht, hl⟩) (fun _ t ht => ?_) (fun _ h => h.1)
  exact loadContext_all k2.toKeepsLookup _ allRegs_filter_allRegs ht
    (fun t vs h hv => k.full t vs h.1 rfl h.2.1 h.2.2 hv) (fun _ h => h.1)

/-! ### Instructions -/

/-- What an instruction can do: a predicate that survives its effects survives the instruction. -/
theorem exec_keeps {i : Instr} {P : State → Prop} (k : KeepsExec i P) {s t : State} (h : P s)
    (he : exec i s = .next t) : P t := by
  have start : ∀ (n : Nat) (f : Word → State → Res Unit), (∀ v, (f v s).All P) → ((nextPc n s).bind f).All P :=
    fun n f hf => Res.All.bind_eq (nextPc_all P n h) fun v s' hs' _ => by rw [nextPc_ok hs']; exact hf v
  have ok : ∀ {x : Res Unit}, x.All P → finish x = .next t → P t := fun hx he =>
    finish_keeps k.toKeepsEntry hx he
  cases i with
  | cpvrFrm rs n =>
    simp only [exec, execCpvrFrm] at he
    refine ok ?_ he
    refine (start _ _ fun v => ?_)
    split
    · trivial
    · exact storeTo_all k _ _ _ _ h
  | cpvrFrr rs rt =>
    simp only [exec, execCpvrFrr] at he
    refine ok ?_ he
    exact (start _ _ fun v => writeTo_all k _ _ _ h)
  | cpvlFmm n m =>
    simp only [exec, execCpvlFmm] at he
    refine ok ?_ he
    exact (start _ _ fun v => storeTo_all k _ _ _ _ h)
  | cpvlFmr n rt =>
    simp only [exec, execCpvlFmr] at he
    refine ok ?_ he
    exact (start _ _ fun v => writeTo_all k _ _ _ h)
  | cprFmm n m =>
    simp only [exec, execCprFmm] at he
    refine ok ?_ he
    exact (start _ _ fun v => Res.All.bind_same (loadWord_all k.toKeepsLookup _ _ h) fun _ _ h =>
      storeTo_all k _ _ _ _ h)
  | cprFrm rs n =>
    simp only [exec, execCprFrm] at he
    refine ok ?_ he
    refine (start _ _ fun v => ?_)
    split
    · trivial
    · exact Res.All.bind_same (loadWord_all k.toKeepsLookup _ _ h) fun _ _ h => storeTo_all k _ _ _ _ h
  | cprFmr n rt =>
    simp only [exec, execCprFmr] at he
    refine ok ?_ he
    refine (start _ _ fun v => ?_)
    split
    · trivial
    · exact Res.All.bind_same (loadWord_all k.toKeepsLookup _ _ h) fun _ _ h => writeTo_all k _ _ _ h
  | cprFrr rs rt =>
    simp only [exec, execCprFrr] at he
    refine ok ?_ he
    refine (start _ _ fun v => ?_)
    split
    · trivial
    · exact Res.All.bind_same (loadWord_all k.toKeepsLookup _ _ h) fun _ _ h => writeTo_all k _ _ _ h
  | cprr rs rt =>
    simp only [exec, execCprr] at he
    refine ok ?_ he
    refine (start _ _ fun v => ?_)
    split
    · trivial
    · exact storeTo_all k _ _ _ _ h
  | cmp rs rt =>
    simp only [exec, execCmp] at he
    refine ok ?_ he
    refine (start _ _ fun v => ?_)
    split
    · exact h
    · trivial
    · split
      · exact compareResult_all k _ _ h
      · exact compareResult_all k _ _ h
      · trivial
  | jmpFm n =>
    simp only [exec, execJmpFm] at he
    refine ok ?_ he
    exact (start _ _ fun v => show P _ from k.rip _ _ h)
  | jmpFr rs =>
    simp only [exec, execJmpFr] at he
    refine ok ?_ he
    exact (start _ _ fun v => show P _ from k.rip _ _ h)
  | callFm n =>
    simp only [exec, execCallFm] at he
    refine ok ?_ he
    exact (start _ _ fun v => callTo_all k _ _ h)
  | callFr rs =>
    simp only [exec, execCallFr] at he
    refine ok ?_ he
    exact (start _ _ fun v => callTo_all k _ _ h)
  | ret =>
    simp only [exec, execRet] at he
    refine ok ?_ he
    exact (Res.All.bind_same (loadWord_all k.toKeepsLookup _ _ h) fun _ _ h =>
      show P _ from k.rip _ _ (k.unchecked _ _ _ h (by decide)))
  | arth rs rt =>
    simp only [exec, execArth] at he
    refine ok ?_ he
    refine (start _ _ fun v => ?_)
    cases checkRarth s.params (s.reg .rarth)
    case badValue => exact h
    case unselected => trivial
    show Res.All P (if _ then _ else _)
    split
    · trivial
    split
    · trivial
    split
    · split
      · exact arthEnd_all k _ _ _ _ h fun _ _ _ hy he => arthFloat_extended hy he
      · exact arthEnd_all k _ _ _ _ h fun _ _ _ hy he => arthInteger_extended hy he
    · trivial
  | lgic rs rt =>
    simp only [exec, execLgic] at he
    refine ok ?_ he
    refine (start _ _ fun v => ?_)
    cases checkRlgic s.params (s.reg .rlgic)
    case badValue => exact h
    case unselected => trivial
    show Res.All P (if _ then _ else _)
    split
    · trivial
    · exact writeTo_all k _ _ _ h
  | intr id =>
    simp only [exec, execIntr] at he
    refine ok ?_ he
    refine (start _ _ fun v => ?_)
    split
    · exact h
    · exact intrSequence_all k _ h
  | cebFmm n m =>
    simp only [exec, execCebFmm] at he
    refine ok ?_ he
    exact (start _ _ fun v => cebBlock_all k _ _ h)
  | cebFrm rs n =>
    simp only [exec, execCebFrm] at he
    refine ok ?_ he
    exact (start _ _ fun v => cebBlock_all k _ _ h)
  | cebFmr n rt =>
    simp only [exec, execCebFmr] at he
    refine ok ?_ he
    exact (start _ _ fun v => cebBlock_all k _ _ h)
  | cebFrr rs rt =>
    simp only [exec, execCebFrr] at he
    refine ok ?_ he
    exact (start _ _ fun v => cebBlock_all k _ _ h)
  | nop =>
    simp only [exec, execNop] at he
    refine ok ?_ he
    exact (start _ _ fun v => show P _ from k.rip _ _ h)
  | ltsk =>
    simp only [exec, execLtsk] at he
    refine ok ?_ he
    refine (start _ _ fun v => ?_)
    split
    · exact h
    · next hl =>
      split
      · next ht => exact loadTask_all k v h ht (by simpa using hl)
      · exact k.rip _ _ h

/-! ### Steps -/

theorem fetchExt_all {P : State → Prop} (k : KeepsLookup P) (e n a : Nat) {s : State} (h : P s) :
    (fetchExt e n a s).All P := by
  induction n generalizing a s with
  | zero => exact h
  | succ n ih =>
    exact Res.All.bind_same (memRead_all k _ _ _ _ h) fun _ _ h => Res.All.bind_same (ih _ h) fun _ _ h => h

/-- A fetch changes the page cache and the free choices only. -/
theorem fetchInstr_all {P : State → Prop} (k : KeepsLookup P) {s : State} (h : P s) : (fetchInstr s).All P := by
  unfold fetchInstr
  refine Res.All.bind_same (memRead_all k _ _ _ _ h) fun w t h => ?_
  split
  · exact h
  · exact h
  · trivial
  · trivial
  · split
    · exact h
    · split
      · trivial
      · exact Res.All.bind_same (fetchExt_all k _ _ _ h) fun _ _ h => h

theorem runInstr_keeps {P : State → Prop} (k : KeepsStep P) {s t : State} (h : P s) (he : runInstr s = .next t) :
    P t := by
  have hf := fetchInstr_all (k.exec .nop).toKeepsLookup h
  unfold runInstr at he
  split at he
  · next hx => rw [hx] at hf; exact exec_keeps (k.exec _) hf he
  · next hx => rw [hx] at hf; exact faultEntry_keeps (k.exec .nop).toKeepsEntry hf he
  · cases he
  · cases he

theorem mem_firstOfEach {rs : List Request} {r : Request} (h : r ∈ firstOfEach rs) : r ∈ rs := by
  induction rs with
  | nil => cases h
  | cons x rs ih =>
    simp only [firstOfEach, List.mem_cons] at h ⊢
    rcases h with h | h
    · exact .inl h
    · exact .inr (ih (List.mem_of_mem_filter h))

theorem lowestId_mem (r : Request) (rs : List Request) : lowestId r rs ∈ r :: rs := by
  induction rs generalizing r with
  | nil => exact List.mem_cons_self
  | cons x rs ih =>
    have h := ih (if x.id.toNat < r.id.toNat then x else r)
    rw [lowestId]
    rcases List.mem_cons.mp h with h | h
    · rw [h]
      split <;> simp
    · exact List.mem_cons_of_mem _ (List.mem_cons_of_mem _ h)

theorem getD_mem {α : Type} (x : α) (xs : List α) (n : Nat) : (x :: xs).getD n x ∈ x :: xs := by
  rw [List.getD_eq_getElem?_getD]
  cases hg : (x :: xs)[n]? with
  | none => exact List.mem_cons_self
  | some y => exact List.mem_of_getElem? hg

/-- The request delivered is one of the pending ones, and the choice leaves the page cache. -/
theorem choosePending_some {p : Params} {ps : List Request} {h h' : Hidden} {r : Request}
    (hc : choosePending p ps h = some (r, h')) : r ∈ ps ∧ h'.cache = h.cache := by
  unfold choosePending at hc
  split at hc
  · cases hc
  · next x hx =>
    injection hc with hc
    injection hc with h1 h2
    subst h1 h2
    exact ⟨mem_firstOfEach (hx ▸ List.mem_cons_self), rfl⟩
  · next x xs _ hx =>
    split at hc
    · injection hc with hc
      injection hc with h1 h2
      subst h1 h2
      exact ⟨mem_firstOfEach (hx ▸ lowestId_mem _ _), rfl⟩
    · injection hc with hc
      injection hc with h1 h2
      subst h1 h2
      refine ⟨mem_firstOfEach ?_, pick_cache _ _⟩
      rw [hx]
      exact getD_mem _ _ _

theorem deliver_keeps {P : State → Prop} (k : KeepsStep P) {r : Request} {s t : State} (h : P s)
    (he : deliver r s = .next t) : P t := by
  have ke := (k.exec .nop).toKeepsEntry
  unfold deliver at he
  split at he
  · exact faultEntry_keeps ke h he
  · refine finish_keeps ke (Res.All.bind_same (switchToBase_all ke _ h) fun _ u hu => ?_) he
    have h2 := (k.exec .nop).unchecked u .rgp1 r.datum hu (by decide)
    show P (enterHandler r.id (deliveryRoutine r u))
    refine enterHandler_keeps ke _ ?_
    simp only [deliveryRoutine]
    split
    · exact applyRoutine_keeps (k.exec .nop) _ h2
    · exact h2

theorem arrive_keeps {P : State → Prop} (k : KeepsStep P) (e : HostEvent) {s : State} (h : P s) : P (arrive s e) := by
  have add : ∀ s id (d : Word), P s → (⟨id, toWord s.params d.toNat⟩ : Request).legal s.params = true →
      P (addRequest s id d) := fun s id d h hl =>
    k.pending s _ h fun r hr => by
      rcases List.mem_append.mp hr with hr | hr
      · exact .inl hr
      · exact .inr (by rw [List.mem_singleton.mp hr]; exact hl)
  unfold arrive
  split
  · exact add _ _ _ h (by simp [Request.legal, fits_toWord])
  · split
    · exact h
    · exact add _ _ _ (k.expiry _ _ h) (by simp [Request.legal, fits_toWord])
  · split
    · next hi => exact add _ _ _ h (by simp [Request.legal, fits_toWord, hi])
    · exact h
  · exact h

theorem arrivals_keeps {P : State → Prop} (k : KeepsStep P) {s : State} (h : P s) : P (arrivals s) := by
  have fold : ∀ (es : List HostEvent) (s : State), P s → P (es.foldl arrive s) := by
    intro es
    induction es with
    | nil => exact fun _ h => h
    | cons e es ih => exact fun s h => ih _ (arrive_keeps k e h)
  exact fold _ _ (k.tick s _ _ _ h)

/-- What a step can do: a predicate that survives its effects survives the step. -/
theorem step_keeps {P : State → Prop} (k : KeepsStep P) {s t : State} (h : P s) (he : step s = .next t) : P t := by
  have ha := arrivals_keeps k h
  unfold step cycle at he
  split at he
  · injection he with he; subst he; exact h
  split at he
  · exact faultEntry_keeps (k.exec .nop).toKeepsEntry ha he
  · unfold runBoundary at he
    split at he
    · split at he
      · next hc =>
        obtain ⟨_, hcache⟩ := choosePending_some hc
        refine deliver_keeps k ?_ he
        exact (k.exec .nop).hidden _ _ (k.pending _ _ ha fun x hx => .inl (List.mem_of_mem_erase hx))
          fun c hcc => .inl (hcache ▸ hcc)
      · exact runInstr_keeps k ha he
    · exact runInstr_keeps k ha he

end Sys2Proof.Machine
end

