-- ==== Sys2Proof/Laws/Interrupts.lean ====
section
/-! SUPPORT. What the parts of the interrupt sequences do: the classes of Interrupt IDs, the handler entry, the routine
of an implementation, and the storage devices. -/

namespace Sys2Proof.Machine

/-! ### Interrupt IDs and the vector (rules R53, R313, R333) -/

/-- The test of the model for a declared ID is the rule's. -/
theorem isImplInt_iff {s : State} {kind : ImplKind} {id : Byte} :
    isImplInt s.params kind id = true ↔ declared s kind id := by
  unfold isImplInt declared
  simp only [Bool.and_eq_true, decide_eq_true_eq, List.any_eq_true]
  constructor
  · rintro ⟨⟨h1, h2⟩, ⟨xi, xk⟩, hx, h3, h4⟩
    subst h3 h4
    exact ⟨h1, h2, hx⟩
  · rintro ⟨h1, h2, h3⟩
    exact ⟨⟨h1, h2⟩, _, h3, rfl, rfl⟩

theorem disabled_iff (e : VectorEntry) : e.disabled = true ↔ e = ⟨0, 0⟩ := by
  cases e; simp [VectorEntry.disabled]

theorem vectorEntry_eq {s : State} {id : Byte} {e : VectorEntry} (h1 : 1 ≤ id.toNat)
    (hv : s.vector[id.toNat - 1]? = some e) : vectorEntry s id.toNat = e := by
  unfold vectorEntry
  rw [if_neg (by omega), hv]
  rfl

/-- Execution goes on at the handler, or where it was if the entry is disabled (rule R314). -/
theorem enterHandler_eq {s : State} {id : Byte} {e : VectorEntry} (h1 : 1 ≤ id.toNat)
    (hv : s.vector[id.toNat - 1]? = some e) :
    enterHandler id s = if e = ⟨0, 0⟩ then s else s.setReg .rip e.handler := by
  simp only [enterHandler, vectorEntry_eq h1 hv, disabled_iff]

/-! ### Registers written in order -/

/-- A register holds the last value written to it. -/
theorem setRegs_reg_last {s : State} (ws : List (Reg × Word)) (q : Reg) :
    (setRegs s ws).reg q = match ws.reverse.find? (fun x => x.1 = q) with
      | some x => toWord s.params x.2.toNat
      | none => s.reg q := by
  induction ws generalizing s with
  | nil => rfl
  | cons w ws ih =>
    obtain ⟨r, v⟩ := w
    rw [show setRegs s ((r, v) :: ws) = setRegs (s.setReg r v) ws from rfl, ih, List.reverse_cons, List.find?_append]
    cases ws.reverse.find? (fun x => decide (x.1 = q)) with
    | some x => rfl
    | none =>
      rw [State.reg_setReg]
      by_cases h : r = q
      · subst h; simp
      · rw [if_neg (Ne.symm h)]; simp [h]

theorem setRegs_data_hidden {s : State} {ws : List (Reg × Word)} (h : ∀ x ∈ ws, isData x.1 = true) :
    (setRegs s ws).hidden = s.hidden := by
  induction ws generalizing s with
  | nil => rfl
  | cons w ws ih =>
    obtain ⟨r, v⟩ := w
    rw [show setRegs s ((r, v) :: ws) = setRegs (s.setReg r v) ws from rfl,
      ih fun x hx => h x (List.mem_cons_of_mem _ hx)]
    refine State.setReg_hidden _ _ ?_
    rintro rfl
    exact absurd (show isData .rpa = true from h _ List.mem_cons_self) (by decide)

/-! ### The routine of an implementation (rule R333) -/

theorem isData_iff (q : Reg) : isData q = true ↔ q ∈ dataRegs := by cases q <;> decide

/-- Everything a routine does. -/
theorem applyRoutine_runs (e : RoutineEffect) (v : State) : RoutineRuns e v (applyRoutine e v) := by
  have hcells : (e.stores.filter fun c => inMemory v.params c.1 1) =
      e.stores.filter fun c => reachable v.params c.1 := rfl
  have hws : ∀ x ∈ e.writes.filter (fun x => isData x.1), isData x.1 = true := fun x hx => (List.mem_filter.mp hx).2
  refine ⟨fun q hq => ?_, ?_, ⟨fun r hr => ?_, fun a ha => ?_, ?_, ?_, ?_, ?_, ?_, ?_⟩, setRegs_data_hidden hws⟩
  · show (setRegs v _).reg q = _
    rw [setRegs_reg_last, ← List.filter_reverse, List.find?_filter]
    have hf : (fun x : Reg × Word => isData x.1 && decide (x.1 = q)) = fun x => decide (x.1 = q) := by
      funext x
      by_cases h : x.1 = q
      · rw [h, (isData_iff q).mpr hq]; rfl
      · simp [h]
    cases h : e.writes.reverse.find? (fun x => decide (x.1 = q)) <;> simp [hf, h]
  · simp only [applyRoutine, setRegs_mem, hcells]
  · show (setRegs v _).reg r = _
    refine setRegs_reg_other fun hm => ?_
    obtain ⟨x, hx, rfl⟩ := List.mem_map.mp hm
    exact hr (List.mem_cons_of_mem _ ((isData_iff _).mp (hws x hx)))
  · simp only [applyRoutine, setRegs_mem, hcells]
    exact Memory.read?_writeAll_other _ _ _ ha
  all_goals simp [applyRoutine]

/-- A routine leaves RIP. -/
@[simp] theorem applyRoutine_rip (e : RoutineEffect) (v : State) : (applyRoutine e v).reg .rip = v.reg .rip := by
  refine setRegs_reg_other fun hm => ?_
  obtain ⟨x, hx, h2⟩ := List.mem_map.mp hm
  have := (List.mem_filter.mp hx).2
  simp only [h2] at this
  exact absurd this (by decide)

/-- What a routine does says nothing of RIP. -/
theorem RoutineRuns.setRip {e : RoutineEffect} {v t : State} (h : RoutineRuns e v t) (w : Word) :
    RoutineRuns e v (t.setReg .rip w) where
  regs q hq := by
    rw [State.reg_setReg_other _ _ (by rintro rfl; revert hq; decide)]
    exact h.regs q hq
  mem := h.mem
  frame :=
    { h.frame with
      regs := fun r hr => by
        rw [State.reg_setReg_other _ _ (List.ne_of_not_mem_cons hr)]
        exact h.frame.regs r hr }
  hidden := h.hidden

/-! ### Storage devices (rules R326, R328) -/

theorem setDevice_find {id : BitVec 16} {bytes : List Byte} {ds : List StorageDevice} {d : StorageDevice}
    (h : ds.find? (fun x => x.id = id) = some d) :
    (setDevice id bytes ds).find? (fun x => x.id = id) = some { d with bytes := bytes } := by
  induction ds with
  | nil => cases h
  | cons x xs ih =>
    unfold setDevice
    by_cases hx : x.id = id
    · rw [if_pos hx]
      rw [List.find?_cons_of_pos (by simpa using hx)] at h ⊢
      injection h with h
      rw [h]
    · rw [if_neg hx]
      rw [List.find?_cons_of_neg (by simpa using hx)] at h ⊢
      exact ih h

theorem setDevice_find_other {id k : BitVec 16} {bytes : List Byte} {ds : List StorageDevice} (hk : k ≠ id) :
    (setDevice id bytes ds).find? (fun x => x.id = k) = ds.find? (fun x => x.id = k) := by
  induction ds with
  | nil => rfl
  | cons x xs ih =>
    unfold setDevice
    by_cases hx : x.id = id
    · rw [if_pos hx, List.find?_cons_of_neg (by simpa [hx] using Ne.symm hk),
        List.find?_cons_of_neg (by simpa [hx] using Ne.symm hk)]
    · rw [if_neg hx]
      simp only [List.find?_cons]
      rw [ih]

end Sys2Proof.Machine
end

