-- ==== Sys2Proof/Laws/PerInstr.lean ====
section
/-! SUPPORT. Statements made instruction by instruction. The family `HeadRoundTrip`: the opcode word the encoder writes
for a well-formed instruction is decoded to that instruction, its extension words apart. -/

namespace Sys2Proof

/-! ### Opcode words and Register IDs -/

/-- The bits of an opcode word (rule R130). -/
theorem opWord_getLsbD (xx yy zz : Byte) (i : Nat) : (opWord xx yy zz).getLsbD i =
    if i < 8 then zz.getLsbD i else if i < 16 then yy.getLsbD (i - 8)
    else if i < 24 then xx.getLsbD (i - 16) else false := by
  show (0#8 ++ xx ++ yy ++ zz : BitVec (8 + 8 + 8 + 8)).getLsbD i = _
  rw [BitVec.getLsbD_append, BitVec.getLsbD_append, BitVec.getLsbD_append]
  simp only [BitVec.getLsbD_zero, Nat.sub_sub]
  rcases Nat.lt_or_ge i 8 with h | h
  · simp [h]
  rcases Nat.lt_or_ge i 16 with h2 | h2
  · simp [h2, Nat.not_lt.mpr h, show i - 8 < 8 by omega]
  rcases Nat.lt_or_ge i 24 with h3 | h3
  · simp [h3, Nat.not_lt.mpr h, Nat.not_lt.mpr h2, show ¬ i - 8 < 8 by omega, show i - 16 < 8 by omega]
  · simp [Nat.not_lt.mpr h, Nat.not_lt.mpr h2, Nat.not_lt.mpr h3, show ¬ i - 8 < 8 by omega, show ¬ i - 16 < 8 by omega]

/-- The four bytes of an opcode word (rule R130). -/
@[simp] theorem opByte_opWord (xx yy zz : Byte) (k : Nat) : opByte (opWord xx yy zz) k =
    if k = 0 then zz else if k = 1 then yy else if k = 2 then xx else 0 := by
  apply BitVec.eq_of_getLsbD_eq
  intro i hi
  simp only [opByte, BitVec.getLsbD_setWidth, hi, decide_true, Bool.true_and, BitVec.getLsbD_ushiftRight,
    opWord_getLsbD]
  rcases k with _ | _ | _ | k
  · simp [hi]
  · simp [show ¬ 8 + i < 8 by omega, show 8 + i < 16 by omega]
  · simp [show ¬ 16 + i < 8 by omega, show ¬ 16 + i < 16 by omega, show 16 + i < 24 by omega]
  · simp [show ¬ 8 * (k + 3) + i < 8 by omega, show ¬ 8 * (k + 3) + i < 16 by omega, show ¬ 8 * (k + 3) + i < 24 by omega]
/-- Register IDs name their registers (rule R21). -/
@[simp] theorem regOfId_regId (r : Reg) : regOfId (regId r) = some r := by cases r <;> rfl

/-- Only RIP has the Register ID 0 (rules R21, R139). -/
theorem regId_eq_zero (r : Reg) : regId r = 0 ↔ r = .rip := by cases r <;> decide

theorem regId_ne_zero {r : Reg} (h : slotRegOk r = true) : ¬regId r = 0#8 := by
  rw [show (0#8 : Byte) = 0 from rfl, regId_eq_zero]
  simpa [slotRegOk] using h

@[simp] theorem withReg_regId (r : Reg) (mk : Reg → Instr) : withReg (regId r) mk = .ok (mk r) := by
  simp [withReg]

/-- The opcode word of format FRR has the fields RR_FIELD_ORDER gives it (rule R134). -/
theorem opRegs_eq (p : Params) (rs rt : Reg) (zz : Byte) :
    opRegs p rs rt zz = match p.fieldOrder with
      | .table => opWord (regId rt) (regId rs) zz
      | .examples => opWord (regId rs) (regId rt) zz := rfl

end Sys2Proof

namespace Sys2Proof.Laws.HeadRoundTrip

/-- The opcode word of instruction `i` is decoded to `i`. -/
def Statement (i : Instr) : Prop :=
  ∀ p : Params, i.wf p = true → decodeHead p (encodeHead p i) = .ok (i.withExt 0 0)

/-- The case of format FRR where no byte of a slot has another meaning. -/
theorem regs {p : Params} {rs rt : Reg} (mk : Reg → Reg → Instr) {zz : Byte} :
    withRegs p (opByte (opRegs p rs rt zz) 2) (opByte (opRegs p rs rt zz) 1) mk = .ok (mk rs rt) := by
  cases h : p.fieldOrder <;> simp [opRegs, withRegs, h]

theorem cprr (rs rt : Reg) : Statement (.cprr rs rt) := by
  intro p _
  cases h : p.fieldOrder <;> simp [decodeHead, encodeHead, opRegs, withRegs, h, Instr.withExt]

theorem cmp (rs rt : Reg) : Statement (.cmp rs rt) := by
  intro p _
  cases h : p.fieldOrder <;> simp [decodeHead, encodeHead, opRegs, withRegs, h, Instr.withExt]

theorem arth (rs rt : Reg) : Statement (.arth rs rt) := by
  intro p _
  cases h : p.fieldOrder <;> simp [decodeHead, encodeHead, opRegs, withRegs, h, Instr.withExt]

theorem lgic (rs rt : Reg) : Statement (.lgic rs rt) := by
  intro p _
  cases h : p.fieldOrder <;> simp [decodeHead, encodeHead, opRegs, withRegs, h, Instr.withExt]

theorem cpvrFrm (rs : Reg) (n : Word) : Statement (.cpvrFrm rs n) := by
  intro p _
  simp [decodeHead, encodeHead, Instr.withExt]

theorem cpvrFrr (rs rt : Reg) : Statement (.cpvrFrr rs rt) := by
  intro p hw
  simp only [Instr.wf, Bool.and_eq_true] at hw
  have ht := regId_ne_zero hw.1
  cases h : p.fieldOrder with
  | table => simp [decodeHead, encodeHead, opRegs, withRegs, h, ht, Instr.withExt]
  | examples =>
    have hs := regId_ne_zero (by simpa [h] using hw.2)
    simp [decodeHead, encodeHead, opRegs, withRegs, h, ht, hs, Instr.withExt]

theorem cpvlFmm (n k : Word) : Statement (.cpvlFmm n k) := by
  intro p _
  simp [decodeHead, encodeHead, Instr.withExt]

theorem cpvlFmr (n : Word) (rt : Reg) : Statement (.cpvlFmr n rt) := by
  intro p hw
  simp only [Instr.wf, Bool.and_eq_true] at hw
  simp [decodeHead, encodeHead, regId_ne_zero hw.2, Instr.withExt]

theorem cprFmm (n k : Word) : Statement (.cprFmm n k) := by
  intro p _
  simp [decodeHead, encodeHead, Instr.withExt]

theorem cprFrm (rs : Reg) (n : Word) : Statement (.cprFrm rs n) := by
  intro p hw
  simp only [Instr.wf, Bool.and_eq_true] at hw
  simp [decodeHead, encodeHead, regId_ne_zero hw.1, Instr.withExt]

theorem cprFmr (n : Word) (rt : Reg) : Statement (.cprFmr n rt) := by
  intro p hw
  simp only [Instr.wf, Bool.and_eq_true] at hw
  simp [decodeHead, encodeHead, regId_ne_zero hw.2, Instr.withExt]

theorem cprFrr (rs rt : Reg) : Statement (.cprFrr rs rt) := by
  intro p hw
  simp only [Instr.wf, Bool.and_eq_true] at hw
  have hs := regId_ne_zero hw.1
  have ht := regId_ne_zero hw.2
  cases h : p.fieldOrder <;> simp [decodeHead, encodeHead, opRegs, withRegs, h, hs, ht, Instr.withExt]

theorem jmpFm (n : Word) : Statement (.jmpFm n) := by
  intro p _
  simp [decodeHead, encodeHead, Instr.withExt]

theorem jmpFr (rs : Reg) : Statement (.jmpFr rs) := by
  intro p hw
  simp [decodeHead, encodeHead, regId_ne_zero hw, Instr.withExt]

theorem callFm (n : Word) : Statement (.callFm n) := by
  intro p _
  simp [decodeHead, encodeHead, Instr.withExt]

theorem callFr (rs : Reg) : Statement (.callFr rs) := by
  intro p hw
  simp [decodeHead, encodeHead, regId_ne_zero hw, Instr.withExt]

theorem ret : Statement .ret := by
  intro p _
  simp [decodeHead, encodeHead, Instr.withExt]

theorem intr (id : Byte) : Statement (.intr id) := by
  intro p _
  simp [decodeHead, encodeHead, Instr.withExt]

theorem cebFmm (n k : Word) : Statement (.cebFmm n k) := by
  intro p _
  simp [decodeHead, encodeHead, Instr.withExt]

theorem cebFrm (rs : Reg) (n : Word) : Statement (.cebFrm rs n) := by
  intro p hw
  simp only [Instr.wf, Bool.and_eq_true] at hw
  simp [decodeHead, encodeHead, regId_ne_zero hw.1, Instr.withExt]

theorem cebFmr (n : Word) (rt : Reg) : Statement (.cebFmr n rt) := by
  intro p hw
  simp only [Instr.wf, Bool.and_eq_true] at hw
  simp [decodeHead, encodeHead, regId_ne_zero hw.2, Instr.withExt]

theorem cebFrr (rs rt : Reg) : Statement (.cebFrr rs rt) := by
  intro p hw
  simp only [Instr.wf, Bool.and_eq_true] at hw
  have hs := regId_ne_zero hw.1
  have ht := regId_ne_zero hw.2
  cases h : p.fieldOrder <;> simp [decodeHead, encodeHead, opRegs, withRegs, h, hs, ht, Instr.withExt]

theorem nop : Statement .nop := by
  intro p _
  simp [decodeHead, encodeHead, Instr.withExt]

theorem ltsk : Statement .ltsk := by
  intro p _
  simp [decodeHead, encodeHead, Instr.withExt]

end Sys2Proof.Laws.HeadRoundTrip
end

