-- ==== Sys2Proof/Laws/Rff.lean ====
section
/-! SUPPORT. Recording faults in RFF: the bits that are set, and that none outside the Interrupt ID field is cleared. -/

namespace Sys2Proof.Machine

/-- The bits of a register value. -/
theorem toWord_getLsbD (p : Params) (v : Word) (k : Nat) :
    (toWord p v.toNat).getLsbD k = (decide (k < p.xlen) && v.getLsbD k) := by
  rw [← BitVec.testBit_toNat, toWord_toNat, Nat.testBit_mod_two_pow, BitVec.testBit_toNat]

theorem faultBit_lt (f : ArchFault) : faultBit f < 13 := by cases f <;> decide

theorem xlen_ge (p : Params) : 32 ≤ p.xlen := by unfold Params.xlen; split <;> decide

theorem withBit_getLsbD (v : Word) (n k : Nat) (hn : n < 64) :
    (withBit v n true).getLsbD k = (v.getLsbD k || decide (k = n)) := by
  unfold withBit
  rw [if_pos rfl, BitVec.getLsbD_or, BitVec.getLsbD_shiftLeft]
  congr 1
  by_cases h : k = n
  · subst h; simp [hn]
  · rcases Nat.lt_or_ge k n with h1 | h1
    · simp [h1, h]
    · have : k - n ≠ 0 := by omega
      simp [h, this, BitVec.getLsbD_one]

/-- RFF with a fault recorded, outside the Interrupt ID field: no bit is cleared (rules R299, R303). -/
theorem rffWith_getLsbD (v : Word) (t : Trap) {k : Nat} (hk : k < 24 ∨ 32 ≤ k) :
    (rffWith v t).getLsbD k =
      (v.getLsbD k || decide (k = faultBit t.fault) || decide (t.marker ≠ none ∧ k = 13)) := by
  have h64 : faultBit t.fault < 64 := lt_trans (faultBit_lt _) (by decide)
  unfold rffWith
  cases hm : t.marker with
  | none => simp [withBit_getLsbD _ _ _ h64]
  | some id =>
    simp only
    rw [BitVec.getLsbD_or, BitVec.getLsbD_and, withBit_getLsbD _ _ _ (by decide), withBit_getLsbD _ _ _ h64]
    have h1 : (~~~(0xFF000000#64) : Word).getLsbD k = decide (k < 64) := by
      rcases Nat.lt_or_ge k 64 with h | h
      · have : ∀ k, k < 64 → (k < 24 ∨ 32 ≤ k) → (~~~(0xFF000000#64) : Word).getLsbD k = true := by decide
        rw [this k h hk, decide_eq_true h]
      · rw [BitVec.getLsbD_of_ge _ _ h, decide_eq_false (by omega)]
    have h2 : (id.setWidth 64 <<< 24 : Word).getLsbD k = false := by
      rw [BitVec.getLsbD_shiftLeft]
      rcases hk with hk | hk
      · simp [hk]
      · simp [show ¬ k < 24 by omega, BitVec.getLsbD_setWidth, BitVec.getLsbD_of_ge id (k - 24) (by omega)]
    rw [h1, h2, Bool.or_false]
    rcases Nat.lt_or_ge k 64 with h | h
    · rw [decide_eq_true h, Bool.and_true]
      congr 1
      rw [decide_eq_decide]
      simp [markerBit]
    · have a : k ≠ faultBit t.fault := by omega
      have b : k ≠ 13 := by omega
      simp [BitVec.getLsbD_of_ge v k h, a, b, show ¬ k < 64 by omega]

/-- Recording a fault sets its bit. -/
theorem State.recordFault_bit (s : State) (t : Trap) : ((s.recordFault t).reg .rff).getLsbD (faultBit t.fault) = true := by
  have h := faultBit_lt t.fault
  have hx := xlen_ge s.params
  rw [State.recordFault_rff, toWord_getLsbD, rffWith_getLsbD _ _ (.inl (by omega)), decide_eq_true (by omega)]
  simp

/-- Recording a fault clears no bit outside the Interrupt ID field (rule R303). -/
theorem State.recordFault_keeps_bit (s : State) (t : Trap) {k : Nat} (hk : k < 24 ∨ (32 ≤ k ∧ k < s.params.xlen))
    (h : (s.reg .rff).getLsbD k = true) : ((s.recordFault t).reg .rff).getLsbD k = true := by
  have hx := xlen_ge s.params
  rw [State.recordFault_rff, toWord_getLsbD, rffWith_getLsbD _ _ (by omega), decide_eq_true (by omega), h]
  simp

end Sys2Proof.Machine
end

