-- ==== Sys2Proof/Tests/Slice0.lean ====
section
/-! SUPPORT. Tests of the model. Expected results are those of spec/95_test_vectors.md (part 1.1 and 1.2, and part 2
where a test says so), or worked out by hand from the rule named. -/

namespace Sys2Proof.Tests

open Sys2Proof.Machine

set_option maxRecDepth 8192

/-! ### Helpers -/

/-- The start state of the spec's vectors: pc = 0x400, RST = 0 and zeros unless given, and big-endian words in memory. -/
def start (regs : List (Reg × Word)) (words : List (Nat × Nat)) : State :=
  { setRegs State.reset ((.rip, 0x400) :: regs) with
    mem := words.foldl (fun m x => m.writeAll (List.range' x.1 4) (beBytes 4 x.2)) [] }

/-- What a function of the next state gives. -/
def look {α : Type} (o : Host.Outcome State Fault Refusal) (f : State → α) : Option α :=
  match o with
  | .next t => some (f t)
  | .fault _ => none
  | .refused _ => none

/-- The values of registers in the next state. -/
def regsAfter (o : Host.Outcome State Fault Refusal) (rs : List Reg) : Option (List Nat) :=
  look o fun t => rs.map fun r => (t.reg r).toNat

/-- The word at an address in the next state, and the values of registers. -/
def wordAndRegs (o : Host.Outcome State Fault Refusal) (a : Nat) (rs : List Reg) : Option (Option Nat × List Nat) :=
  look o fun t =>
    ((match readField t.mem 4 a with
      | .ok v => some v.toNat
      | .error _ => none), rs.map fun r => (t.reg r).toNat)

/-- RFF and the halted flag of the next state. -/
def faulted (o : Host.Outcome State Fault Refusal) : Option (Nat × Bool) :=
  look o fun t => ((t.reg .rff).toNat, t.halted)

/-- The refusal of an outcome. -/
def refusalOf (o : Host.Outcome State Fault Refusal) : Option Refusal :=
  match o with
  | .refused r => some r
  | .next _ => none
  | .fault _ => none

/-- The step goes on to a next state. -/
def goesOn (o : Host.Outcome State Fault Refusal) : Bool := (look o fun _ => ()).isSome

/-- LEG64 with 4-byte and with 8-byte extension words, and with EXT_BYTES not supplied. -/
def leg64 (w : Option ExtWidth) : Params := { Params.default with variant := .leg64, extWidth := w }

/-- The printed field order. -/
def printed : Params := { Params.default with fieldOrder := .examples }

/-! ### WellFormed: an ill-formed term for each check -/

theorem test_wf_refuses_wide_words :
    ([.cpvrFrm .rgp1 0x100000000, .cpvlFmm 0x100000000 0, .cpvlFmm 0 0x100000000, .cpvlFmr 0x100000000 .rgp1,
      .cprFmm 0x100000000 0, .cprFmm 0 0x100000000, .cprFrm .rgp1 0x100000000, .cprFmr 0x100000000 .rgp1,
      .jmpFm 0x100000000, .callFm 0x100000000, .cebFmm 0x100000000 0, .cebFmm 0 0x100000000,
      .cebFrm .rgp1 0x100000000, .cebFmr 0x100000000 .rgp1] : List Instr).all (fun i => !i.wf Params.default) = true := by
  decide

theorem test_wf_refuses_rip_slots :
    ([.cpvrFrr .rgp1 .rip, .cpvlFmr 0 .rip, .cprFrm .rip 0, .cprFmr 0 .rip, .cprFrr .rip .rgp1, .cprFrr .rgp1 .rip,
      .jmpFr .rip, .callFr .rip, .cebFrm .rip 0, .cebFmr 0 .rip, .cebFrr .rip .rgp1, .cebFrr .rgp1 .rip] :
      List Instr).all (fun i => !i.wf Params.default) = true := by
  decide

theorem test_wf_parameters :
    Instr.wf printed (.cpvrFrr .rip .rgp1) = false ∧ Instr.wf Params.default (.cpvrFrr .rip .rgp1) = true ∧
    Instr.wf (leg64 none) (.jmpFm 0) = false ∧ Instr.wf (leg64 (some .four)) (.jmpFm 0x100000000) = false ∧
    Instr.wf (leg64 (some .eight)) (.jmpFm 0x100000000) = true := by
  decide

/-! ### Decode: the words of spec/95_test_vectors.md part 1.1, every constructor -/

theorem test_decode_copies :
    decodeTableWord 64 0xAABBCCDD00003401 = some (.cpvrFrm .rgp2 0xAABBCCDD) ∧
    decodeTableWord 32 0x00300401 = some (.cpvrFrr .rst .rgp1) ∧
    decodeTableWord 96 0x112233440000ABCD00000002 = some (.cpvlFmm 0xABCD 0x11223344) ∧
    decodeTableWord 64 0x0000001200500002 = some (.cpvlFmr 0x12 .ral1) ∧
    decodeTableWord 96 0x0000CCDD0000AABB00000003 = some (.cprFmm 0xAABB 0xCCDD) ∧
    decodeTableWord 64 0x0000112200002003 = some (.cprFrm .rsa 0x1122) ∧
    decodeTableWord 64 0x0000334400200003 = some (.cprFmr 0x3344 .rsa) ∧
    decodeTableWord 32 0x00302003 = some (.cprFrr .rsa .rgp1) ∧
    decodeTableWord 32 0x00203804 = some (.cprr .rgp3 .rsa) := by
  decide

theorem test_decode_compare_and_flow :
    decodeTableWord 32 0x00405405 = some (.cmp .ral2 .rgp5) ∧
    decodeTableWord 64 0x0011EEFF00000006 = some (.jmpFm 0x11EEFF) ∧
    decodeTableWord 32 0x00004C06 = some (.jmpFr .rgp8) ∧
    decodeTableWord 64 0xAACCBBDD00000007 = some (.callFm 0xAACCBBDD) ∧
    decodeTableWord 32 0x00003C07 = some (.callFr .rgp4) ∧
    decodeTableWord 32 0x00000008 = some .ret := by
  decide

theorem test_decode_arith_and_system :
    decodeTableWord 32 0x00545C09 = some (.arth .ral4 .ral2) ∧
    decodeTableWord 32 0x00505C0A = some (.lgic .ral4 .ral1) ∧
    decodeTableWord 32 0x0000010B = some (.intr 0x01) ∧
    decodeTableWord 96 0x0000AAFF0000AA000000000C = some (.cebFmm 0xAA00 0xAAFF) ∧
    decodeTableWord 64 0x000045670000380C = some (.cebFrm .rgp3 0x4567) ∧
    decodeTableWord 64 0x000045670038000C = some (.cebFmr 0x4567 .rgp3) ∧
    decodeTableWord 32 0x0034300C = some (.cebFrr .rgp1 .rgp2) ∧
    decodeTableWord 32 0x0000000D = some .nop ∧ decodeTableWord 32 0x0000000E = some .ltsk := by
  decide

/-- The printed words mean what they were printed for under the printed field order (part 1.1). -/
theorem test_decode_printed_order :
    decode printed [0x00, 0x04, 0x30, 0x01] = .ok (.cpvrFrr .rst .rgp1, []) ∧
    decode printed [0x00, 0x50, 0x58, 0x09] = .ok (.arth .ral1 .ral3, []) ∧
    decode printed [0x00, 0x30, 0x34, 0x0C] = .ok (.cebFrr .rgp1 .rgp2, []) := by
  decide

/-- Extension words of LEG64: 4 bytes zero-extended, or 8 bytes (rule R137). -/
theorem test_decode_leg64 :
    decode (leg64 (some .four)) [0, 0, 0, 6, 0xFF, 0, 0, 1] = .ok (.jmpFm 0xFF000001, []) ∧
    decode (leg64 (some .eight)) [0, 0, 0, 6, 0xFF, 0, 0, 0, 0, 0, 0, 1] = .ok (.jmpFm 0xFF00000000000001, []) ∧
    decode (leg64 none) [0, 0, 0, 6, 0, 0, 0, 1] = .error .extWidthOpen := by
  decide

theorem test_decode_refuses :
    [0x01303001, 0x00300102, 0x00304C06, 0x00000108, 0x0030200B, 0x0000010D, 0x00000000, 0x0000000F, 0x00310170,
      0x00313001, 0x00703001].map (fun w => decodeTableWord 32 w) = List.replicate 11 none := by
  decide

/-! ### Copies (part 2.1) -/

theorem test_cpvrFrm : wordAndRegs (exec (.cpvrFrm .rgp2 0x2000) (start [(.rgp2, 0xAABBCCDD)] [])) 0x2000 [.rip] =
    some (some 0xAABBCCDD, [0x408]) := by decide

theorem test_cpvrFrm_reserved : faulted (exec (.cpvrFrm .rgp2 0x3F4) (start [] [])) = some (0x02, true) := by decide

theorem test_cpvrFrr_reads_pc : regsAfter (exec (.cpvrFrr .rip .rgp1) (start [(.rgp1, 0x77)] [])) [.rgp1, .rip] =
    some [0x400, 0x404] := by decide

theorem test_cpvrFrr_level1 : faulted (exec (.cpvrFrr .rgp1 .rst) (start [(.rst, 0x08)] [])) = some (0x800, true) := by
  decide

theorem test_cpvlFmm : wordAndRegs (exec (.cpvlFmm 0xABCD 0x2344) (start [] [])) 0x2344 [.rip] =
    some (some 0xABCD, [0x40C]) := by decide

theorem test_cpvlFmr : regsAfter (exec (.cpvlFmr 0x12 .ral1) (start [(.ral1, 0xFFFFFFFF)] [])) [.ral1, .rip] =
    some [0x12, 0x408] := by decide

theorem test_cpvlFmr_rst_bit5 : faulted (exec (.cpvlFmr 0x20 .rst) (start [] [])) = some (0x08, true) := by decide

theorem test_cprFmm : wordAndRegs (exec (.cprFmm 0x1000 0x2000) (start [] [(0x1000, 0x11223344)])) 0x2000 [.rip] =
    some (some 0x11223344, [0x40C]) := by decide

theorem test_cprFrm :
    wordAndRegs (exec (.cprFrm .rgp1 0x2000) (start [(.rgp1, 0x1000)] [(0x1000, 0x11223344)])) 0x2000 [.rip] =
      some (some 0x11223344, [0x408]) := by decide

theorem test_cprFmr : regsAfter (exec (.cprFmr 0x3344 .rsa) (start [] [(0x3344, 0xCAFE)])) [.rsa, .rip] =
    some [0xCAFE, 0x408] := by decide

theorem test_cprFrr_same : regsAfter (exec (.cprFrr .rgp4 .rgp4) (start [(.rgp4, 0x1000)] [(0x1000, 0x200)]))
    [.rgp4, .rip] = some [0x200, 0x404] := by decide

theorem test_cprr : wordAndRegs (exec (.cprr .rgp3 .rsa) (start [(.rgp3, 0xCAFEF00D), (.rsa, 0x2000)] [])) 0x2000
    [.rsa, .rip] = some (some 0xCAFEF00D, [0x2000, 0x404]) := by decide

theorem test_cprr_reads_rst : faulted (exec (.cprr .rgp3 .rst) (start [(.rst, 0x08)] [])) = some (0x02, true) := by
  decide

/-! ### CMP, JMP, CALL, RET (part 2.2) -/

theorem test_cmp : regsAfter (exec (.cmp .ral2 .rgp5) (start [(.rcmp, 0x15), (.ral2, 3), (.rgp5, 7)] [])) [.rcmp, .rip] =
    some [0x14, 0x404] := by decide

theorem test_cmp_unsigned :
    regsAfter (exec (.cmp .ral2 .rgp5) (start [(.rcmp, 0x04), (.ral2, 0xFFFFFFFF), (.rgp5, 1)] [])) [.rcmp] =
      some [0x05] := by decide

theorem test_jmpFm_falls_through : regsAfter (exec (.jmpFm 0x1000) (start [(.rip, 0x440), (.rcmp, 0x10)] [])) [.rip] =
    some [0x448] := by decide

theorem test_jmpFr_taken : regsAfter (exec (.jmpFr .rgp8) (start [(.rcmp, 0x15), (.rgp8, 0x2468)] [])) [.rip] =
    some [0x2468] := by decide

theorem test_callFm : wordAndRegs (exec (.callFm 0x1000) (start [(.rip, 0x500), (.rra, 0xFFFC)] [])) 0xFFFC [.rra, .rip] =
    some (some 0x508, [0x10000, 0x1000]) := by decide

theorem test_callFr_rra : wordAndRegs (exec (.callFr .rra) (start [(.rip, 0x500), (.rra, 0x3000)] [])) 0x3000
    [.rra, .rip] = some (some 0x504, [0x3004, 0x3000]) := by decide

theorem test_ret : regsAfter (exec .ret (start [(.rra, 0x3FC)] [(0x3F8, 0x1234)])) [.rra, .rip] =
    some [0x3F8, 0x1234] := by decide

theorem test_ret_reserved : faulted (exec .ret (start [(.rra, 0x3F8)] [])) = some (0x02, true) := by decide

/-! ### ARTH and LGIC (parts 2.3 and 2.4) -/

theorem test_arth_wraps : regsAfter (exec (.arth .ral3 .ral1)
    (start [(.rarth, 0x08), (.ral1, 0xFFFFFFFF), (.ral3, 3)] [])) [.ral1, .rarth, .rip] = some [2, 0x48, 0x404] := by
  decide

theorem test_arth_signed_modulus : regsAfter (exec (.arth .ral2 .ral1)
    (start [(.rarth, 0x30), (.ral1, 0xFFFFFFF9), (.ral2, 2)] [])) [.ral1, .rarth] = some [0xFFFFFFFF, 0x30] := by decide

theorem test_lgic_mixed_widths : regsAfter (exec (.lgic .rgp1 .ral1)
    (start [(.rlgic, 0x20008), (.ral1, 0x11110000), (.rgp1, 0xFFFFFFFF)] [])) [.ral1, .rip] =
      some [0x1111FFFF, 0x404] := by decide

theorem test_lgic_rotates : regsAfter (exec (.lgic .ral4 .ral1)
    (start [(.rlgic, 0x80), (.ral1, 0x12345678), (.ral4, 36)] [])) [.ral1] = some [0x81234567] := by decide

/-! ### INTR, CEB, NOP, LTSK (part 2.5) and fault entry (part 2.7) -/

theorem test_intr_display : look (exec (.intr 0x0A) (start [(.rgp1, 0x12345641)] [])) (fun t => t.world.display) =
    some [0x41] := by decide

theorem test_intr_marker : faulted (exec (.intr 0x0A) (start [(.rst, 0x08)] [])) = some (0x0A002800, true) := by decide

theorem test_cebFmm_empty : faulted (exec (.cebFmm 0x1000 0x1000) (start [] [])) = some (0x40, true) := by decide

theorem test_cebFrm_unaligned : faulted (exec (.cebFrm .rgp1 0x2000) (start [(.rgp1, 0x1002)] [])) =
    some (0x40, true) := by decide

theorem test_cebFmr : refusalOf (exec (.cebFmr 0x1000 .rgp1) (start [(.rgp1, 0x2000)] [])) = some .cebBlock := by decide

theorem test_cebFrr_sequential :
    regsAfter (exec (.cebFrr .rgp1 .rgp2)
      { start [(.rgp1, 0x1000), (.rgp2, 0x2000)] [] with params := { Params.default with ceb := .sequential } }) [.rip] =
        some [0x1000] := by decide

theorem test_nop : regsAfter (exec .nop (start [] [])) [.rip] = some [0x404] := by decide

theorem test_ltsk_level1 : faulted (exec .ltsk (start [(.rst, 0x0C)] [])) = some (0x800, true) := by decide

/-- The zeroed register slots of a Task Structure, but for some words. -/
def taskWords (base : Nat) (words : List (Nat × Nat)) : List (Nat × Nat) :=
  (List.range 28).map (fun i => (base + 4 * i, 0)) ++ words

/-- A state that may switch tasks: RST as given, RCT = 0x4100, RBT = 0x4000, and a Base Task Structure. -/
def switching (rst : Word) (baseWords : List (Nat × Nat)) : State :=
  start [(.rst, rst), (.rff, 0x100), (.rct, 0x4100), (.rbt, 0x4000)] (taskWords 0x4000 baseWords)

/-- Vector F3 of part 2.7. -/
theorem test_fault_switches_task :
    wordAndRegs (faultEntry ⟨.illegalInstruction, none⟩ (switching 0x06 [(0x4004, 0x02), (0x400C, 0x900)])) 0x4108
      [.rff, .rst, .rfa, .rip] = some (some 0x140, [0x140, 0x02, 0x900, 0x900]) := by decide

/-- LTSK saves the address after it, and loads all the registers of the task (program P3, step 9). -/
theorem test_ltsk_loads_task :
    wordAndRegs (exec .ltsk (start [(.rst, 0x06), (.rct, 0x4100), (.rbt, 0x4000)]
      (taskWords 0x4100 [(0x4100, 0x5000), (0x4104, 0x0E), (0x411C, 0x6000)]))) 0x4000 [.rip, .rst, .rra, .rct] =
        some (some 0x404, [0x5000, 0x0E, 0x6000, 0]) := by decide

/-! ### What meets the hypotheses of the statements

One theorem for each statement with hypotheses: a state and operands that meet them, for each clause. -/

/-- A state about to run the instruction of an opcode word and extension words at 0x400. -/
def about (regs : List (Reg × Word)) (words : List Nat) : State :=
  start regs (words.zipIdx.map fun x => (0x400 + 4 * x.2, x.1))

theorem test_meets_DecodeOfEncode :
    Instr.wf Params.default (.cpvlFmm 0xFFFFFFFF 0) = true ∧ Instr.wf printed (.cpvrFrr .rgp1 .rfp4) = true ∧
    Instr.wf (leg64 (some .eight)) (.cebFmm 0xFFFFFFFFFFFFFFFF 0) = true := by decide

theorem test_meets_EncodeOfDecode :
    decode Params.default [0, 0x6C, 0, 2, 0xFF, 0xFF, 0xFF, 0xFF, 0x77] = .ok (.cpvlFmr 0xFFFFFFFF .rfp4, [0x77]) := by
  decide

/-- The next step runs the opcode word `w`, which the fetch gives under the parameters. -/
abbrev fetches (p : Params) (w : Nat) : Prop :=
  let s := { about [] [w] with params := p }
  runsNext s ∧ fetchValue ((arrivals s).reg .rip).toNat 4 (arrivals s) = .ok w (arrivals s)

/-- Unspecified Instruction IDs at the ends of their range; and invalid Register IDs in each slot. -/
theorem test_meets_DecodeFaults :
    fetches .default 0x00000000 ∧ fetches .default 0x0000000F ∧ fetches .default 0x000000FF ∧
    fetches .default 0x00313001 ∧ fetches .default 0x00703001 ∧ fetches .default 0x00004D06 := by
  decide

theorem test_meets_NonZeroFormatBits :
    fetches .default 0x01303001 ∧ fetches .default 0x00300102 ∧ fetches .default 0x00304C06 ∧
    fetches .default 0x0030200B ∧ fetches .default 0x00000108 ∧ fetches .default 0x0001000D ∧
    fetches printed 0x00300001 := by
  decide

theorem test_meets_StepRunsDecoded :
    let s := about [] [0x00000002, 0x0000ABCD, 0x00002344]
    let bs : List Byte := [0, 0, 0, 2, 0, 0, 0xAB, 0xCD, 0, 0, 0x23, 0x44]
    runsNext s ∧ fetchInstr (arrivals s) = .ok (.cpvlFmm 0xABCD 0x2344) (arrivals s) ∧ s.params.wf = true ∧
    (arrivals s).pagingOn = false ∧ ((arrivals s).reg .rip).toNat % 4 = 0 ∧
    holds (arrivals s) ((arrivals s).reg .rip).toNat bs ∧
    decode s.params bs = .ok (.cpvlFmm 0xABCD 0x2344, []) := by
  decide

/-- A fetch from the reserved region faults. -/
theorem test_meets_StepRunsDecoded_fault :
    let s := start [(.rip, 0x3F4)] []
    runsNext s ∧ fetchInstr (arrivals s) = .raise ⟨.badMemoryReference, none⟩ (arrivals s) := by
  decide

/-- A NOP that is about to run at the reset address, with nothing else in memory. -/
def aboutNop : State := State.reset.withFetchWord 32 0x0D

theorem test_meets_StepKeepsInvariants : Inv aboutNop ∧ goesOn (step aboutNop) = true :=
  ⟨⟨by decide, by decide, by decide, by intro r; cases r <;> decide, by decide, by decide, by decide, by decide⟩,
    by decide⟩

theorem test_meets_ReservedRegionKept :
    goesOn (step (about [(.rgp2, 0xAABBCCDD)] [0x00003401, 0x000003F8])) = true := by decide

theorem test_meets_LevelOneControlKept :
    let s := about [(.rst, 0x08)] [0x0000000D]
    s.level1 = true ∧ s.tasksOn = false ∧ goesOn (step s) = true := by decide

theorem test_meets_TablesChangeByIntrOnly :
    goesOn (exec (.intr 0x0A) (start [(.rst, 0x00)] [])) = true ∧
    goesOn (exec (.intr 0x01) (start [(.rst, 0x08)] [])) = true := by decide

/-- The boundaries of the default memory, 0x3F8 and 0xFFFF. -/
theorem test_meets_PhysicalAccess :
    let s := start [] []
    s.pagingOn = false ∧ (∀ a ∈ [0x3F8, 0xFFFC], a % 4 = 0 ∧ s.params.reservedEnd ≤ a ∧ a + 4 ≤ s.params.memSize) ∧
    (∀ a ∈ [0, 0x3F4, 0x10000], a % 4 = 0 ∧ (a < s.params.reservedEnd ∨ s.params.memSize < a + 4)) ∧
    0x2002 % 4 ≠ 0 ∧ s.params.misaligned = .refuse := by decide

/-- The two Page Structures of part 2.6, with a size of page B and a physical base of page A. -/
def paged (sizeB baseA : Nat) : State :=
  start [(.rst, 0x10), (.rpa, 0x8000)]
    [(0x8000, 0x00100000), (0x8004, baseA), (0x8008, 0x1000), (0x800C, 2), (0x8010, 0x8018), (0x8014, 0),
      (0x8018, 0x00200000), (0x801C, 0x3000), (0x8020, sizeB), (0x8024, 5), (0x8028, 0), (0x802C, 0x8000)]

/-- Page A of `paged`. -/
def pageA (baseA : Word) : PageCopy := ⟨0x00100000, baseA, 0x1000, 2, 0x8018, some 0⟩

/-- Page B of `paged`. -/
def pageB (sizeB : Word) : PageCopy := ⟨0x00200000, 0x3000, sizeB, 5, 0, some 0x8000⟩

/-- Page A of `paged`, and a readable page C just above it; their strict bounds leave no gap. -/
def twoPages : State :=
  start [(.rst, 0x10), (.rpa, 0x8000)]
    [(0x8000, 0x00100000), (0x8004, 0x2000), (0x8008, 0x1000), (0x800C, 2), (0x8010, 0x8018), (0x8014, 0),
      (0x8018, 0x00100FFF), (0x801C, 0x3000), (0x8020, 0x1000), (0x8024, 1), (0x8028, 0), (0x802C, 0x8000)]

/-- The list of pages under both sizes, and a misaligned address. -/
theorem test_meets_PagedAccess :
    (paged 0xFE 0x2000).pagingOn = true ∧ (paged 0xFE 0x2000).hidden.cache = [] ∧
    pageChain (paged 0xFE 0x2000).params (paged 0xFE 0x2000).mem ((paged 0xFE 0x2000).reg .rpa).toNat
      [pageA 0x2000, pageB 0xFE] ∧
    pageChain (paged 0x100 0x100).params (paged 0x100 0x100).mem ((paged 0x100 0x100).reg .rpa).toNat
      [pageA 0x100, pageB 0x100] ∧
    0x00100006 % 4 ≠ 0 ∧ (paged 0xFE 0x2000).params.misaligned = .refuse := by
  refine ⟨by decide, by decide, ?_, ?_, by decide⟩ <;> simp only [pageChain, pagePath] <;> decide

/-- An address for each clause of a page: none (the base itself, and the end), no permission, a region that ends inside
the access, the last word of a page, and a physical range that is reserved. -/
theorem test_meets_PagedAccess_pages :
    (∀ la ∈ [0x00100000, 0x00101000, 0x400], [pageA 0x2000, pageB 0xFE].find? (pageMatches la) = none) ∧
    [pageA 0x2000, pageB 0xFE].find? (pageMatches 0x00200010) = some (pageB 0xFE) ∧ ¬mayAccess (pageB 0xFE) .write ∧
    [pageA 0x2000, pageB 0xFE].find? (pageMatches 0x002000FC) = some (pageB 0xFE) ∧ mayAccess (pageB 0xFE) .read ∧
    0x00200000 + 0xFE < 0x002000FC + 4 ∧
    [pageA 0x2000, pageB 0xFE].find? (pageMatches 0x00100FFC) = some (pageA 0x2000) ∧ mayAccess (pageA 0x2000) .write ∧
    0x00100FFC + 4 ≤ 0x00100000 + 0x1000 ∧
    [pageA 0x100, pageB 0x100].find? (pageMatches 0x00100004) = some (pageA 0x100) := by
  decide

/-- Page A of `paged`, with another Next field. -/
def brokenAt (next : Nat) : State :=
  start [(.rst, 0x10), (.rpa, 0x8000)]
    [(0x8000, 0x00100000), (0x8004, 0x2000), (0x8008, 0x1000), (0x800C, 2), (0x8010, next), (0x8014, 0)]

/-- Broken lists: the last reserved place, one that runs past memory, a misaligned one, one met before, and one that
nothing has written. -/
theorem test_meets_PagedAccess_broken : ∀ q ∈ [0x3F4, 0xFFEC, 0x8019, 0x8000, 0x9000],
    let s := brokenAt q
    let c : PageCopy := ⟨0x00100000, 0x2000, 0x1000, 2, BitVec.ofNat 64 q, some 0⟩
    pagePath s.params s.mem q (s.reg .rpa).toNat [c] ∧ [c].find? (pageMatches 0x00200010) = none ∧
    (q = 0x3F4 ∨ q = 0xFFEC → q % 4 = 0 ∧ inMemory s.params q s.params.pageBytes = false) ∧
    (q = 0x8019 → q % 4 ≠ 0) ∧ (q = 0x8000 → q ∈ pagePointers (s.reg .rpa).toNat [c]) ∧
    (q = 0x9000 → inMemory s.params q s.params.pageBytes = true ∧ readPage s.mem 4 q = .error 0x9000) := by
  simp only [pagePath]
  decide

/-- What the walk of those lists gives. -/
theorem test_broken_lists :
    walkFromRpa (brokenAt 0x3F4) 0x00200010 = .fault .badMemoryReference ∧
    walkFromRpa (brokenAt 0x8019) 0x00200010 = .refused .misaligned ∧
    walkFromRpa (brokenAt 0x8000) 0x00200010 = .stopped .lookupNeverEnds ∧
    walkFromRpa (brokenAt 0x8000) 0x00100010 = .found ⟨0x00100000, 0x2000, 0x1000, 2, 0x8000, some 0⟩ := by decide

/-- A current copy in the page cache. -/
theorem test_meets_PagedAccess_cached :
    cacheCurrent [pageA 0x2000] [pageA 0x2000, pageB 0xFE] 0x00100FFC ∧
    cacheCurrent [pageA 0x2000] [pageA 0x2000, pageB 0xFE] 0x00101000 := by
  decide

/-- Misaligned accesses: the last bytes of memory and one past them; two bytes of page A and two of a page C right above
it; and a first byte with no page, with no permission, and in the reserved region. -/
theorem test_meets_MisalignedBytes :
    let s := { start [] [] with params := { Params.default with misaligned := .bytes } }
    s.params.misaligned = .bytes ∧ 0xFFFB % 4 ≠ 0 ∧ s.pagingOn = false ∧
    (∀ k, k < 4 → reachable s.params (byteAddress s.params 0xFFFB k) = true) ∧
    (∃ k, k < 4 ∧ reachable s.params (byteAddress s.params 0xFFFD k) = false) := by
  refine ⟨by decide, by decide, by decide, by decide, 3, by decide⟩

theorem test_meets_MisalignedBytes_paged :
    let s := { twoPages with params := { Params.default with misaligned := .bytes } }
    let cs := [pageA 0x2000, ⟨0x00100FFF, 0x3000, 0x1000, 1, 0, some 0x8000⟩]
    let c := fun k : Nat => cs.getD (k / 2) (pageA 0x2000)
    let la := byteAddress s.params 0x00100FFE
    s.pagingOn = true ∧ 0x00100FFE % 4 ≠ 0 ∧ 0x00100FFE < 2 ^ s.params.xlen ∧
    pageChain s.params s.mem (s.reg .rpa).toNat cs ∧
    (∀ k, k < 4 → cacheCurrent (s.hidden.cache ++ (List.range 4).map c) cs (la k)) ∧
    (∀ k, k < 4 → cs.find? (pageMatches (la k)) = some (c k) ∧ mayAccess (c k) .read ∧
      reachable s.params (pageAddress s.params (c k) (la k)) = true) ∧
    cs.find? (pageMatches (la 2)) = some (c 2) ∧ ¬mayAccess (c 2) .write ∧
    cs.find? (pageMatches (byteAddress s.params 0x00101FFF 0)) = none := by
  refine ⟨by decide, by decide, by decide, by simp only [pageChain, pagePath]; decide, by decide, by decide, by decide, by decide, by decide⟩

theorem test_meets_LookupFromListOrCache :
    lookupPage 0x00100004 (paged 0x100 0x2000) =
      .ok (pageA 0x2000) { paged 0x100 0x2000 with hidden := ⟨[pageA 0x2000], [], 0⟩ } ∧
    lookupPage 0x00300000 (paged 0x100 0x2000) = .raise ⟨.page, none⟩ (paged 0x100 0x2000) ∧
    lookupPage 0x00300000 (brokenAt 0x8019) = .refuse .misaligned ∧
    lookupPage 0x00300000 (brokenAt 0x8000) = .stop .lookupNeverEnds := by decide

/-- RST at its largest legal value; and a register that level 1 may write. -/
theorem test_meets_RegisterCopies_register :
    let s := start [(.rgp1, 0x1F)] []
    let u := start [(.rgp1, 0x77), (.rst, 0x08)] []
    fits s.params (s.reg .rgp1) = true ∧ mayWrite s .rst (s.reg .rgp1) ∧
    fits u.params (u.reg .rgp1) = true ∧ mayWrite u .rsa (u.reg .rgp1) := by decide

theorem test_meets_RegisterCopies_literal :
    let s := start [(.rst, 0x08)] []
    extKnown s ∧ fits s.params 0xFFFFFFFF = true ∧ mayWrite s .rsa 0xFFFFFFFF := by decide

/-- The three forbidden writes, each with a source register, a word in memory, and a logic and an arithmetic result that
give the value. -/
theorem test_meets_ForbiddenWritesFault :
    let s := start [(.rgp1, 0x20), (.rgp2, 0x1000), (.rlgic, 0x08), (.rarth, 0x08)] [(0x1000, 0x20)]
    let u := start [(.rgp1, 0x20), (.rgp2, 0x1000), (.rlgic, 0x08), (.rarth, 0x08), (.rst, 0x08)] [(0x1000, 0x20)]
    extKnown s ∧ s.level1 = false ∧ u.level1 = true ∧ s.reg .rgp1 = 0x20 ∧ u.reg .rgp1 = 0x20 ∧
    loadWord 0x1000 .read s = .ok 0x20 s ∧ loadWord (s.reg .rgp2) .read s = .ok 0x20 s ∧ isRfp .rgp1 = false ∧
    checkRlgic s.params (s.reg .rlgic) = .valid ∧
    lgicValue s.params (s.reg .rlgic) .rgp1 .rst (s.reg .rst) (s.reg .rgp1) = 0x20 ∧
    checkRarth s.params (s.reg .rarth) = .valid ∧ extendedAllowed .rgp1 .rst (s.reg .rarth) = true ∧
    (arthInteger s.params (s.reg .rarth) .rgp1 .rst (s.reg .rst) (s.reg .rgp1)).map (fun x => x.target) =
      some 0x20 := by
  decide

theorem test_meets_StoresWriteOneWord :
    let s := start [(.rgp1, 0x3F8), (.rgp2, 1)] []
    extKnown s ∧ isRfp .rgp1 = false ∧ isRfp .rgp2 = false ∧
    resolve (0xFFFC : Word).toNat s.params.wb s.params.wb .write s = .ok [0xFFFC, 0xFFFD, 0xFFFE, 0xFFFF] s ∧
    resolve (s.reg .rgp1).toNat s.params.wb s.params.wb .write s = .ok [0x3F8, 0x3F9, 0x3FA, 0x3FB] s := by decide

/-- The word below the reserved region's end and the word past the end of memory do not resolve. -/
theorem test_meets_access_faults :
    let s := start [(.rgp1, 0x3F4), (.rra, 0x10000)] []
    extKnown s ∧ isRfp .rgp1 = false ∧
    resolve (s.reg .rgp1).toNat s.params.wb s.params.wb .write s = .raise ⟨.badMemoryReference, none⟩ s ∧
    resolve (0x10000 : Word).toNat s.params.wb s.params.wb .read s = .raise ⟨.badMemoryReference, none⟩ s ∧
    resolve (s.reg .rra).toNat s.params.wb s.params.wb .ras s = .raise ⟨.badMemoryReference, none⟩ s := by decide

theorem test_meets_LoadsReadOneWord :
    let s := start [(.rgp1, 0xFFFC)] [(0xFFFC, 0x0000001F)]
    let addrs := [0xFFFC, 0xFFFD, 0xFFFE, 0xFFFF]
    let bs : List Byte := [0, 0, 0, 0x1F]
    isRfp .rst = false ∧ isRfp .rgp1 = false ∧ addrs.map s.mem.read? = bs.map some ∧
    mayWrite s .rst (BitVec.ofNat 64 (beValue bs)) ∧ extKnown s ∧
    resolve (0xFFFC : Word).toNat s.params.wb s.params.wb .read s = .ok addrs s ∧
    resolve (s.reg .rgp1).toNat s.params.wb s.params.wb .read s = .ok addrs s := by decide

theorem test_meets_CopiesMoveOneWord :
    let s := start [(.rgp1, 0x1000)] [(0x1000, 0x11223344)]
    let src := [0x1000, 0x1001, 0x1002, 0x1003]
    let bs : List Byte := [0x11, 0x22, 0x33, 0x44]
    src.map s.mem.read? = bs.map some ∧ extKnown s ∧ isRfp .rgp1 = false ∧
    resolve (0x1000 : Word).toNat s.params.wb s.params.wb .read s = .ok src s ∧
    resolve (s.reg .rgp1).toNat s.params.wb s.params.wb .read s = .ok src s ∧
    resolve (0x3F8 : Word).toNat s.params.wb s.params.wb .write s = .ok [0x3F8, 0x3F9, 0x3FA, 0x3FB] s := by decide

theorem test_meets_RfpOperandsRefused :
    let s := start [(.rlgic, 0x02)] []
    isRfp .rfp1 = true ∧ extKnown s ∧ checkRlgic s.params (s.reg .rlgic) = .valid := by decide

theorem test_meets_CmpIntegers : ∀ c ∈ [2, 31],
    let s := start [(.rcmp, BitVec.ofNat 64 c), (.ral2, 0xFFFFFFFF), (.rgp5, 1)] []
    isRfp .ral2 = false ∧ isRfp .rgp5 = false ∧ 2 ≤ (s.reg .rcmp).toNat ∧ (s.reg .rcmp).toNat < 32 ∧
    fits s.params (s.reg .ral2) = true ∧ fits s.params (s.reg .rgp5) = true := by decide

theorem test_meets_CmpFloats : ∀ c ∈ [2, 31],
    let s := start [(.rcmp, BitVec.ofNat 64 c)] []
    isRfp .rfp1 = true ∧ isRfp .rfp2 = true ∧ 2 ≤ (s.reg .rcmp).toNat ∧ (s.reg .rcmp).toNat < 32 := by decide

theorem test_meets_CmpStops :
    32 ≤ ((start [(.rcmp, 32)] []).reg .rcmp).toNat ∧ ((start [(.rcmp, 1)] []).reg .rcmp).toNat < 2 ∧
    2 ≤ ((start [(.rcmp, 31)] []).reg .rcmp).toNat ∧ ((start [(.rcmp, 31)] []).reg .rcmp).toNat < 32 ∧
    isRfp .rgp1 ≠ isRfp .rfp1 := by decide

theorem test_meets_JumpIfCompareBit :
    let s := start [(.rcmp, 1), (.rgp8, 0xFFFFFFFF)] []
    extKnown s ∧ fits s.params 0xFFFFFFFF = true ∧ fits s.params (s.reg .rgp8) = true := by decide

theorem test_meets_CallPushesNext :
    let s := start [(.rra, 0xFFFC), (.rgp4, 0x1234)] []
    resolve (s.reg .rra).toNat s.params.wb s.params.wb .ras s = .ok [0xFFFC, 0xFFFD, 0xFFFE, 0xFFFF] s ∧ extKnown s ∧
    fits s.params 0xFFFFFFFF = true ∧ fits s.params (s.reg .rgp4) = true := by decide

theorem test_meets_RetPopsAddress :
    let s := start [(.rra, 0x3FC)] [(0x3F8, 0x00001234)]
    let addrs := [0x3F8, 0x3F9, 0x3FA, 0x3FB]
    fits s.params (s.reg .rra) = true ∧
    resolve (popAddress s).toNat s.params.wb s.params.wb .ras s = .ok addrs s ∧
    addrs.map s.mem.read? = ([0, 0, 0x12, 0x34] : List Byte).map some := by decide

theorem test_meets_RetUndoesCall :
    let s := start [(.rra, 0xFFFC), (.rgp4, 0x1234)] []
    s.pagingOn = false ∧ fits s.params (s.reg .rra) = true ∧ (s.reg .rra).toNat % s.params.wb = 0 ∧
    inMemory s.params (s.reg .rra).toNat s.params.wb = true := by decide

/-- Signed multiplication with no width flag. -/
theorem test_meets_ArthIntegers :
    let s := start [(.rarth, 0x21), (.ral1, 0xFFFFFFFE), (.ral2, 3)] []
    isRfp .ral2 = false ∧ isRfp .ral1 = false ∧ Reg.ral1 ≠ .rarth ∧ fits s.params (s.reg .ral1) = true ∧
    (withoutFlags (s.reg .rarth)).toNat = 2 ^ 0 + 32 + 0 ∧ widthSelected s.params 0 32 ∧
    exactResult 0 (operandAt true 32 (s.reg .ral1)) (operandAt true 32 (s.reg .ral2)) (-6) ∧
    mayWrite s .ral1 0xFFFFFFFA := by decide

/-- Unsigned division at 8 bits. -/
theorem test_meets_ArthIntegers_narrow :
    let s := start [(.rarth, 0x10002), (.ral1, 0x123456FF), (.ral2, 2)] []
    fits s.params (s.reg .ral1) = true ∧ (withoutFlags (s.reg .rarth)).toNat = 2 ^ 1 + 0 + 0x10000 ∧
    widthSelected s.params 0x10000 8 ∧
    exactResult 1 (operandAt false 8 (s.reg .ral1)) (operandAt false 8 (s.reg .ral2)) 127 ∧
    mayWrite s .ral1 0x1234567F := by decide

theorem test_meets_ArthExtendedOperand :
    let s := start [(.rarth, 0x801), (.ral1, 0xFFFFFFFF), (.ral2, 0xFFFFFFFF)] []
    isRfp .ral2 = false ∧ isRfp .ral1 = false ∧ Reg.ral1 ≠ .rarth ∧ Reg.ral4 ≠ .ral2 ∧ Reg.ral4 ≠ .ral1 ∧
    [Reg.ral1, .ral2, .ral3, .ral4][3]? = some .ral4 ∧
    (withoutFlags (s.reg .rarth)).toNat = 2 ^ 0 + (if false then 32 else 0) + 2 ^ (8 + 3) ∧
    exactResult 0 (operandAt false 32 (s.reg .ral1)) (operandAt false 32 (s.reg .ral2)) 0xFFFFFFFE00000001 ∧
    mayWrite s .ral1 1 := by decide

theorem test_meets_ArthRefusalsAndDivision_zero : ∀ c ∈ [0x02, 0x10],
    let s := start [(.rarth, BitVec.ofNat 64 c), (.ral1, 7)] []
    isRfp .ral2 = false ∧ isRfp .ral1 = false ∧ Reg.ral1 ≠ .rarth ∧ checkRarth s.params (s.reg .rarth) = .valid ∧
    extendedAllowed .ral2 .ral1 (s.reg .rarth) = true ∧
    ((s.reg .rarth).getLsbD 1 = true ∨ (s.reg .rarth).getLsbD 4 = true) ∧
    (s.reg .ral2).toNat % 2 ^ (if isRal .ral2 then flagWidth s.params (s.reg .rarth) else s.params.xlen) = 0 := by
  decide

/-- A reserved bit, LEG32's bit 18, two width flags, two operations, two extended operands. -/
theorem test_meets_ControlWords_arth :
    (0x80008 : Word).toNat / 2 ^ 19 ≠ 0 ∧ Params.default.variant = .leg32 ∧ (0x40008 : Word).getLsbD 18 = true ∧
    twoSet 0x30008 16 19 ∧ twoSet 0x0C 0 5 ∧ twoSet 0x308 8 16 ∧
    (0x40 : Word).toNat / 2 ^ 19 = 0 ∧ (0x40 : Word).toNat % 32 = 0 ∧ (0x08 : Word).toNat % 32 ≠ 0 :=
  ⟨by decide, by decide, by decide, ⟨16, 17, by decide⟩, ⟨2, 3, by decide⟩, ⟨8, 9, by decide⟩, by decide, by decide,
    by decide⟩

theorem test_meets_ArthRefusalsAndDivision_refusals :
    (∀ c ∈ [0x0108, 0x10108, 0x1008], checkRarth Params.default (BitVec.ofNat 64 c) = .valid) ∧ isRfp .rgp1 ≠ isRfp .rfp1 ∧
    [Reg.ral1, .ral2, .ral3, .ral4, .rfp1, .rfp2, .rfp3, .rfp4][0]? = some .ral1 ∧
    (0x0108 : Word).getLsbD 8 = true ∧ (0x10108 : Word).getLsbD 8 = true ∧ (0x10108 : Word).toNat / 2 ^ 16 ≠ 0 ∧
    [Reg.ral1, .ral2, .ral3, .ral4, .rfp1, .rfp2, .rfp3, .rfp4][4]? = some .rfp1 ∧
    (0x1008 : Word).getLsbD 12 = true ∧ isRfp .rfp1 ≠ isRfp .ral1 := by decide

theorem test_meets_ArthFloats : ∀ c ∈ [0x08, 0x8002],
    let s := start [(.rarth, BitVec.ofNat 64 c)] []
    isRfp .rfp2 = true ∧ isRfp .rfp1 = true ∧ checkRarth s.params (s.reg .rarth) = .valid ∧
    extendedAllowed .rfp2 .rfp1 (s.reg .rarth) = true := by decide

theorem test_meets_LgicBitwise : ∀ op ∈ [0x01, 0x02, 0x03, 0x04, 0x05, 0x08, 0x09],
    let s := start [(.rlgic, BitVec.ofNat 64 (op + 0x20000)), (.ral1, 0x11110000), (.rgp1, 0xFFFFFFFF)] []
    isRfp .rgp1 = false ∧ isRfp .ral1 = false ∧ fits s.params (s.reg .ral1) = true ∧
    (s.reg .rlgic).toNat = op + 0x20000 ∧ widthSelected s.params 0x20000 16 ∧
    mayWrite s .ral1 (lgicValue s.params (s.reg .rlgic) .rgp1 .ral1 (s.reg .ral1) (s.reg .rgp1)) := by decide

theorem test_meets_LgicShiftsRotates : ∀ op ∈ [0x10, 0x20, 0x40, 0x80], ∀ n ∈ [0, 31, 32],
    let s := start [(.rlgic, BitVec.ofNat 64 op), (.ral1, 0x80000001), (.ral4, BitVec.ofNat 64 n)] []
    isRfp .ral4 = false ∧ isRfp .ral1 = false ∧ fits s.params (s.reg .ral1) = true ∧ (s.reg .rlgic).toNat = op + 0 ∧
    widthSelected s.params 0 32 ∧
    mayWrite s .ral1 (lgicValue s.params (s.reg .rlgic) .ral4 .ral1 (s.reg .ral1) (s.reg .ral4)) := by decide

theorem test_meets_ControlWords_lgic :
    (0x80002 : Word).toNat / 2 ^ 19 ≠ 0 ∧ (0x0102 : Word).toNat / 2 ^ 8 % 2 ^ 8 ≠ 0 ∧
    (0x40002 : Word).getLsbD 18 = true ∧ twoSet 0x30002 16 19 ∧ twoSet 0x06 1 8 ∧
    ((0x11 : Word).getLsbD 0 = true ∧ (0x11 : Word).toNat / 2 ^ 4 % 2 ^ 4 ≠ 0) ∧ (0 : Word).toNat % 256 = 0 ∧
    (0x09 : Word).toNat % 256 ≠ 0 :=
  ⟨by decide, by decide, by decide, ⟨16, 17, by decide⟩, ⟨1, 2, by decide⟩, by decide, by decide, by decide⟩

/-- The vector with one entry configured. -/
def withEntry (id : Nat) (e : VectorEntry) (s : State) : State := { s with vector := s.vector.setIfInBounds (id - 1) e }

/-- IDs 0, 128, 1, 31, 32 and 127: the ends of every range. -/
theorem test_meets_IntrValidationFaults :
    (start [(.rst, 0x08)] []).level1 = true ∧ (start [] []).level1 = false ∧
    (∀ n ∈ [(0 : Byte), 128], n.toNat = 0 ∨ 127 < n.toNat) ∧
    (∀ n ∈ [(1 : Byte), 15], 1 ≤ n.toNat ∧ n.toNat ≤ 31 ∧ n ∈ [(0x01 : Byte), 0x03, 0x0A, 0x0B, 0x0D, 0x0F]) ∧
    (∀ n ∈ [(9 : Byte), 31], 1 ≤ n.toNat ∧ n.toNat ≤ 31 ∧ n ∉ [(0x01 : Byte), 0x03, 0x0A, 0x0B, 0x0D, 0x0F] ∧
      ⟨n, ImplKind.software⟩ ∉ Params.default.implInts) ∧
    (∀ n ∈ [(32 : Byte), 127], 32 ≤ n.toNat ∧ n.toNat ≤ 127 ∧
      (start [] []).vector[n.toNat - 1]? = some ⟨0, 0⟩ ∧ (0 : Word).getLsbD 0 = false) := by decide

theorem test_meets_IntrTrappable_user : ∀ id ∈ [(32 : Byte), 127],
    let s := withEntry id.toNat ⟨1, 0x2000⟩ (start [(.rst, 0x08)] [])
    32 ≤ id.toNat ∧ id.toNat ≤ 127 ∧ s.vector[id.toNat - 1]? = some ⟨1, 0x2000⟩ ∧
    (⟨1, 0x2000⟩ : VectorEntry) ≠ ⟨0, 0⟩ ∧ s.level1 = true ∧ (1 : Word).getLsbD 0 = true ∧ s.tasksOn = false ∧
    fits s.params 0x2000 = true := by decide

/-- The implementation declares IDs 21 and 31, as software and as hardware; its routine raises the fault given, or sets
RGP2, RGP2 again and RAL1, and stores a byte in memory and one in the reserved region. -/
def withImpl (f : Option ArchFault) (s : State) : State :=
  { s with
    params := { s.params with implInts := [⟨21, .software⟩, ⟨31, .software⟩, ⟨21, .hardware⟩, ⟨31, .hardware⟩] }
    world := { s.world with routine := ⟨f, [(.rgp2, 1), (.rgp2, 2), (.ral1, 3)], [(0x2000, 0x55), (0x100, 0x66)]⟩ } }

theorem test_meets_IntrTrappable_declared : ∀ id ∈ [(21 : Byte), 31], ∀ f ∈ [none, some ArchFault.inputOutput],
    let s := withEntry id.toNat ⟨0, 0x2000⟩ (withImpl f (start [] []))
    s.vector[id.toNat - 1]? = some ⟨0, 0x2000⟩ ∧ fits s.params 0x2000 = true ∧ declared s .software id ∧
    s.level1 = false ∧ s.tasksOn = false ∧ s.world.routine.fault = f := by decide

/-- A routine runs, and execution goes on at the handler, or past the INTR (rules R311, R333). -/
theorem test_intr_declared :
    regsAfter (exec (.intr 31) (withEntry 31 ⟨0, 0x2000⟩ (withImpl none (start [] [])))) [.rgp2, .ral1, .rip] =
      some [2, 3, 0x2000] ∧
    look (exec (.intr 21) (withImpl none (start [] []))) (fun t => (t.reg .rip, t.mem)) =
      some (0x404, [(0x2000, 0x55)]) ∧
    faulted (exec (.intr 21) (withImpl (some .inputOutput) (start [] []))) = some (0x15003000, true) := by decide

/-- A state that may switch tasks with paging on, saving at logical 0x00100010, which is at 0x2010 in the writable page
A, and loading from logical 0x00200010, which is at 0x3010 in the readable page B; page B is in the page cache. -/
def switchingPaged (regs : List (Reg × Word)) : State :=
  { start ((.rpa, 0x8000) :: regs) [] with
    params := { Params.default with implInts := [⟨31, .hardware⟩] }
    mem := (taskWords 0x3010 [(0x3014, 2)]).foldl (fun m x => m.writeAll (List.range' x.1 4) (beBytes 4 x.2))
      (paged 0x1000 0x2000).mem
    hidden := ⟨[pageB 0x1000], [], 0⟩ }

theorem paged_places {s : State} (h1 : s.pagingOn = true) (h2 : s.params = (switchingPaged []).params)
    (h3 : s.reg .rpa = 0x8000) (h4 : s.hidden.cache = [pageB 0x1000]) (h5 : s.mem = (switchingPaged []).mem) :
    taskPlaces s 0x00100010 0x00200010 0x2010 0x3010 := by
  refine .inr ⟨h1, [pageA 0x2000, pageB 0x1000], pageA 0x2000, pageB 0x1000, ?_, ?_, ?_, ?_, ?_⟩
  · rw [h2, h3, h5]
    simp only [pageChain, pagePath]
    decide
  · constructor <;> (try rw [h2]) <;> decide
  · constructor <;> (try rw [h2]) <;> decide
  · rw [h2, h3]; decide
  · rw [h2, h4]; decide

/-- With paging off, aligned structures in memory are where `taskPlaces` asks. -/
theorem flat_places {s : State} (h1 : s.pagingOn = false) {a b : Word} (ha : taskAt s.params a.toNat)
    (hb : taskAt s.params b.toNat) : taskPlaces s a b a.toNat b.toNat := .inl ⟨h1, rfl, rfl, ha, hb⟩

/-- Both kinds of base task, of level 0 and of level 1. -/
theorem test_meets_SystemCallSwitchesTask : ∀ x ∈ [(0x02, false), (0x0A, true)],
    let s := withEntry 32 ⟨1, 0x500⟩ (switching 0x0E [(0x4004, x.1)])
    s.params.wf = true ∧ s.vector[31]? = some ⟨1, 0x500⟩ ∧ (⟨1, 0x500⟩ : VectorEntry) ≠ ⟨0, 0⟩ ∧
    (1 : Word).getLsbD 0 = true ∧ s.tasksOn = true ∧ fits s.params 0x500 = true ∧
    (s.pagingOn = false ∧ taskAt s.params (s.reg .rct).toNat ∧ taskAt s.params (s.reg .rbt).toNat) ∧
    slotsHeld s (s.reg .rbt).toNat baseControl ∧
    (baseLevel1 s (s.reg .rct).toNat (s.reg .rbt).toNat (nextAddress s (.intr 0x20)) ↔ x.2 = true) := by decide

theorem test_meets_SystemCallSwitchesTask_paged :
    let s := withEntry 127 ⟨0, 0x500⟩ (switchingPaged [(.rst, 0x16), (.rct, 0x00100010), (.rbt, 0x00200010)])
    taskPlaces s (s.reg .rct) (s.reg .rbt) 0x2010 0x3010 ∧ s.params.wf = true ∧ s.vector[126]? = some ⟨0, 0x500⟩ ∧
    s.level1 = false ∧ s.tasksOn = true ∧ slotsHeld s 0x3010 baseControl ∧
    ¬baseLevel1 s 0x2010 0x3010 (nextAddress s (.intr 0x7F)) :=
  ⟨paged_places (by decide) rfl (by decide) rfl rfl, by decide⟩

/-- Each ID with parameters that pass step 1 and a timer granularity; a declared ID; and a base task of level 1. -/
theorem test_meets_ArchInterruptSwitchesTask : ∀ id ∈ [(0x01 : Byte), 0x03, 0x0A, 0x0B, 0x0D, 0x0F, 0x15],
    let r := withImpl none (switching 0x04 [(0x4004, 2)])
    let s := { r with
      regs := (setRegs r [(.rgp1, if id = 0x0B then 0x10000 else 7), (.rgp2, 1), (.rgp3, 0)]).regs
      world := { r.world with storage := [⟨0, [0x11, 0x22]⟩] } }
    s.params.wf = true ∧ s.level1 = false ∧ ∃ u, intrPrepare id s = .ok () u ∧ u.tasksOn = true ∧
      (u.pagingOn = false ∧ taskAt u.params (u.reg .rct).toNat ∧ taskAt u.params (u.reg .rbt).toNat) ∧
      slotsHeld u (u.reg .rbt).toNat baseControl ∧ intrFault s id = none ∧
      ((u.reg .rgp2).toNat, Granularity.nanoseconds) ∈
        [(0x01, Granularity.nanoseconds), (0x02, .microseconds), (0x04, .milliseconds), (0x08, .seconds)] ∧
      ¬baseLevel1 u (u.reg .rct).toNat (u.reg .rbt).toNat (nextAddress s (.intr id)) ∧
      (id = 0x15 → declared s .software id ∧ s.vector[id.toNat - 1]? = some ⟨0, 0⟩) := by
  intro id hid
  simp only [List.mem_cons, List.not_mem_nil, or_false] at hid
  rcases hid with rfl | rfl | rfl | rfl | rfl | rfl | rfl <;> exact ⟨by decide, by decide, _, rfl, by decide⟩

theorem test_meets_ArchInterruptSwitchesTask_paged :
    let s := switchingPaged [(.rst, 0x14), (.rct, 0x00100010), (.rbt, 0x00200010)]
    intrPrepare 0x03 s = .ok () s ∧ taskPlaces s (s.reg .rct) (s.reg .rbt) 0x2010 0x3010 ∧ s.params.wf = true ∧
    s.level1 = false ∧ s.tasksOn = true ∧ slotsHeld s 0x3010 baseControl ∧ intrFault s 0x03 = none ∧
    ¬baseLevel1 s 0x2010 0x3010 (nextAddress s (.intr 0x03)) :=
  ⟨rfl, paged_places (by decide) rfl (by decide) rfl rfl, by decide⟩

/-- INTR 0x0F with task registers enabled: the timer is armed from RGP1 to RGP3, and the base task's RST is in place. -/
theorem test_intr_timer_switches_task :
    let r := switching 0x04 [(0x4004, 2)]
    let s := { r with regs := (setRegs r [(.rgp1, 7), (.rgp2, 8), (.rgp3, 5)]).regs }
    look (exec (.intr 0x0F) s) (fun t => (t.timers[7], t.reg .rst, t.reg .rip, t.mem.read? 0x4103)) =
      some (some ⟨.seconds, 5⟩, 2, 0x404, some 0x04) := by decide

theorem test_meets_IntrVectorConfiguration :
    (∀ n ∈ [0, 128], let g := (start [(.rgp1, BitVec.ofNat 64 n)] []).reg .rgp1
      g.toNat = 0 ∨ 127 < g.toNat) ∧
    (∀ n ∈ [1, 127],
      let s := start [(.rgp1, BitVec.ofNat 64 n), (.rgp2, 1), (.rgp3, 0x2000)] []
      s.level1 = false ∧ s.tasksOn = false ∧ 1 ≤ (s.reg .rgp1).toNat ∧ (s.reg .rgp1).toNat ≤ 127 ∧
      (s.reg .rgp2).toNat ≤ 1) ∧
    2 ≤ ((start [(.rgp1, 1), (.rgp2, 2)] []).reg .rgp2).toNat := by decide

theorem test_meets_IntrHaltAndDisplay :
    let s := start [] []
    s.level1 = false ∧ s.tasksOn = false ∧ s.world.deviceFails = false ∧
    ({ s with world := { s.world with deviceFails := true } } : State).world.deviceFails = true := by decide

/-- A state with the storage device of part 2.5. -/
def withStorage (regs : List (Reg × Word)) (words : List (Nat × Nat)) : State :=
  { start regs words with
    world := ⟨[], [⟨0, [0x11, 0x22, 0x33, 0x44, 0x55, 0x66, 0x77, 0x88]⟩], [], false, .nothing⟩ }

/-- The last bytes of the device to the last bytes of memory, and a transfer of length 0. -/
theorem test_meets_IntrStorageRead : ∀ x ∈ [(4, 0xFFFC), (0, 0)],
    let s := withStorage [(.rgp1, 0x10000), (.rgp2, 4), (.rgp3, BitVec.ofNat 64 x.1), (.rgp4, BitVec.ofNat 64 x.2)] []
    (s.params.wf = true ∧ s.level1 = false ∧ s.tasksOn = false ∧ s.world.deviceFails = false ∧
    (s.reg .rgp1).getLsbD 16 = true ∧ (s.reg .rgp1).getLsbD 17 = false ∧ (s.reg .rgp1).toNat < 2 ^ 19 ∧
    (s.world.storage.find? (fun d => d.id = BitVec.ofNat 16 (s.reg .rgp1).toNat)).map (fun d => d.bytes.length) =
      some 8 ∧ (s.reg .rgp2).toNat + (s.reg .rgp3).toNat ≤ 8) ∧
    storagePlaces s .write x.2 x.1 (List.range' x.2 x.1) s := by
  intro x hx
  simp only [List.mem_cons, List.not_mem_nil, or_false] at hx
  rcases hx with rfl | rfl
  · exact ⟨by decide, .inr (.inl ⟨.inl (by decide), by decide, by decide, rfl, rfl⟩)⟩
  · exact ⟨by decide, .inl ⟨rfl, by decide, rfl, rfl⟩⟩

/-- Paging on, STORAGE_ADDR_SPACE = logical: four bytes in the writable page A. -/
theorem test_meets_IntrStorageRead_paged :
    let p := { paged 0x1000 0x2000 with params := { Params.default with storageSpace := some .logical } }
    storagePlaces p .write 0x00100FF1 4 [0x2FF1, 0x2FF2, 0x2FF3, 0x2FF4]
      { p with hidden := ⟨[pageA 0x2000], [], 0⟩ } :=
  .inr (.inr ⟨by decide, rfl, by decide, by decide, by decide⟩)

theorem test_meets_IntrStorageWrite :
    let s := withStorage [(.rgp1, 0x20000), (.rgp2, 4), (.rgp3, 4), (.rgp4, 0x3F8)] [(0x3F8, 0xAABBCCDD)]
    storagePlaces s .read (s.reg .rgp4).toNat (s.reg .rgp3).toNat (List.range' 0x3F8 4) s ∧
    s.params.wf = true ∧ s.level1 = false ∧ s.tasksOn = false ∧ s.world.deviceFails = false ∧
    (s.reg .rgp1).getLsbD 16 = false ∧ (s.reg .rgp1).getLsbD 17 = true ∧ (s.reg .rgp1).toNat < 2 ^ 19 ∧
    (s.world.storage.find? (fun d => d.id = BitVec.ofNat 16 (s.reg .rgp1).toNat)).map (fun d => d.bytes.length) =
      some 8 ∧
    (List.range' 0x3F8 4).map s.mem.read? = ([0xAA, 0xBB, 0xCC, 0xDD] : List Byte).map some ∧
    (s.reg .rgp2).toNat + (s.reg .rgp3).toNat ≤ 8 :=
  ⟨.inr (.inl ⟨.inl (by decide), by decide, by decide, rfl, rfl⟩), by decide⟩

/-- Bad flags, no such device, a range outside memory, and a range outside the device, reading and writing. -/
theorem test_meets_IntrStorageFaults :
    (∀ n ∈ [0, 0x30000, 0x90000], let g : Word := BitVec.ofNat 64 n
      g.getLsbD 16 = g.getLsbD 17 ∨ 2 ^ 19 ≤ g.toNat) ∧
    ∀ f ∈ [(0x10000, true), (0x20000, false)],
    let s := withStorage [(.rgp1, BitVec.ofNat 64 f.1), (.rgp2, 5), (.rgp3, 4), (.rgp4, 0xFFFC)] []
    (s.level1 = false ∧ ¬((s.reg .rgp1).getLsbD 16 = (s.reg .rgp1).getLsbD 17 ∨ 2 ^ 19 ≤ (s.reg .rgp1).toNat) ∧
     (s.world.storage.find? (fun d => d.id = 5)) = none ∧
     (s.world.storage.find? (fun d => d.id = BitVec.ofNat 16 (s.reg .rgp1).toNat)).map (fun d => d.bytes.length) =
       some 8 ∧
     s.pagingOn = false ∧ 0 < (s.reg .rgp3).toNat ∧ s.params.wf = true ∧ (s.reg .rgp1).getLsbD 16 = f.2 ∧
     8 < (s.reg .rgp2).toNat + (s.reg .rgp3).toNat ∧
     (0x3F6 < s.params.reservedEnd ∧ s.params.memSize < 0xFFFE + 4)) ∧
    storagePlaces s (if (s.reg .rgp1).getLsbD 16 = true then .write else .read) (s.reg .rgp4).toNat (s.reg .rgp3).toNat
      (List.range' 0xFFFC 4) s := by
  refine ⟨by decide, fun f hf => ?_⟩
  simp only [List.mem_cons, List.not_mem_nil, or_false] at hf
  rcases hf with rfl | rfl <;>
    exact ⟨by decide, .inr (.inl ⟨.inl (by decide), by decide, by decide, rfl, rfl⟩)⟩

/-- Paging on: no address space; and a logical range whose second byte is past page A, or that passes the top. -/
theorem test_meets_IntrStorageFaults_paged :
    let p := paged 0x1000 0x2000
    let q := { p with params := { p.params with storageSpace := some .logical } }
    p.pagingOn = true ∧ p.params.storageSpace = none ∧ q.pagingOn = true ∧ q.params.storageSpace = some .logical ∧
    0x00100FFF + 2 ≤ 2 ^ q.params.xlen ∧
    resolveBytes .write 2 0x00100FFF q = .raise ⟨.page, none⟩ { q with hidden := ⟨[pageA 0x2000], [], 0⟩ } ∧
    2 ^ q.params.xlen < 0xFFFFFFFF + 2 := by decide

theorem test_meets_IntrPageCacheAndTimer :
    (∀ n ∈ [0, 7],
      let s := start [(.rgp1, BitVec.ofNat 64 n), (.rgp2, 8), (.rgp3, 10)] []
      s.level1 = false ∧ s.tasksOn = false ∧ (s.reg .rgp1).toNat ≤ 7 ∧
      ((s.reg .rgp2).toNat, Granularity.seconds) ∈
        [(0x01, Granularity.nanoseconds), (0x02, .microseconds), (0x04, .milliseconds), (0x08, .seconds)]) ∧
    7 < ((start [(.rgp1, 8)] []).reg .rgp1).toNat ∧
    ((start [(.rgp2, 3)] []).reg .rgp2).toNat ∉ [0x01, 0x02, 0x04, 0x08] := by decide

theorem test_meets_CebRangeFaults :
    let s := start [(.rgp1, 0x1000), (.rgp2, 0x1000)] []
    extKnown s ∧ (0x1000 : Word).toNat ≤ (0x1000 : Word).toNat ∧ (0x1002 : Word).toNat % 4 ≠ 0 ∧
    s.reg .rgp1 = 0x1000 ∧ s.reg .rgp2 = 0x1000 := by decide

theorem test_meets_CebPastChecks :
    let s := start [(.rgp1, 0x1000), (.rgp2, 0x1001)] []
    let u := { s with params := { s.params with ceb := .sequential } }
    extKnown s ∧ (0x1000 : Word).toNat < (0x1001 : Word).toNat ∧ (0x1000 : Word).toNat % 4 = 0 ∧
    fits s.params 0x1000 = true ∧ s.reg .rgp1 = 0x1000 ∧ s.reg .rgp2 = 0x1001 ∧ s.params.ceb = .refuse ∧
    u.params.ceb = .sequential := by decide

theorem test_meets_LtskLoadsTask_first_clauses :
    (start [(.rst, 0x08)] []).level1 = true ∧ (start [(.rst, 0x0C)] []).level1 = true ∧
    (start [] []).level1 = false ∧ (start [] []).tasksOn = false := by decide

theorem test_meets_LtskLoadsTask :
    let s := start [(.rst, 0x06), (.rct, 0xFF90), (.rbt, 0x3F8)] (taskWords 0xFF90 [(0xFF90, 0x5000)])
    s.params.wf = true ∧ s.level1 = false ∧ s.tasksOn = true ∧
    (s.pagingOn = false ∧ taskAt s.params (s.reg .rbt).toNat ∧ taskAt s.params (s.reg .rct).toNat) ∧
    slotsHeld s (s.reg .rct).toNat allRegs := by
  decide

theorem test_meets_LtskLoadsTask_paged :
    let s := switchingPaged [(.rst, 0x16), (.rbt, 0x00100010), (.rct, 0x00200010)]
    taskPlaces s (s.reg .rbt) (s.reg .rct) 0x2010 0x3010 ∧ s.params.wf = true ∧ s.level1 = false ∧ s.tasksOn = true ∧
    slotsHeld s 0x3010 allRegs :=
  ⟨paged_places (by decide) rfl (by decide) rfl rfl, by decide⟩

theorem test_meets_FaultEntryWithoutSwitch :
    let s := start [(.rst, 0x02), (.rff, 0xFFFFFFFF), (.rfa, 0x900)] []
    fits s.params (s.reg .rff) = true ∧ fits s.params (s.reg .rfa) = true ∧ s.faultsOn = true ∧ s.tasksOn = false ∧
    ArchFault.page ≠ .machineCheck ∧ (start [] []).faultsOn = false := by decide

theorem test_meets_FaultEntrySwitchesTask : ∀ x ∈ [(0x02, false), (0x0A, true)],
    let tr : Trap := ⟨.illegalInstruction, none⟩
    let s := switching 0x06 [(0x4004, x.1), (0x400C, 0x900)]
    tr.fault ≠ .machineCheck ∧ s.params.wf = true ∧ s.faultsOn = true ∧ s.tasksOn = true ∧
    (s.pagingOn = false ∧ taskAt s.params (s.reg .rct).toNat ∧ taskAt s.params (s.reg .rbt).toNat) ∧
    slotsHeld s (s.reg .rbt).toNat baseControl ∧
    (baseLevel1 (s.recordFault tr) (s.reg .rct).toNat (s.reg .rbt).toNat (s.reg .rip) ↔ x.2 = true) := by decide

theorem test_meets_FaultEntrySwitchesTask_paged :
    let s := switchingPaged [(.rst, 0x16), (.rct, 0x00100010), (.rbt, 0x00200010)]
    taskPlaces s (s.reg .rct) (s.reg .rbt) 0x2010 0x3010 ∧ s.params.wf = true ∧ s.faultsOn = true ∧
    s.tasksOn = true ∧ slotsHeld s 0x3010 baseControl ∧
    ¬baseLevel1 (s.recordFault ⟨.page, none⟩) 0x2010 0x3010 (s.reg .rip) :=
  ⟨paged_places (by decide) rfl (by decide) rfl rfl, by decide⟩

/-- The registers the base load ignores still have slots that are accessed: a Base Task Structure of which only the last
of them is past the end of memory is a Machine Check (rules R52, R344). -/
theorem test_base_load_accesses_all_slots :
    faulted (faultEntry ⟨.illegalInstruction, none⟩
      (start [(.rst, 0x06), (.rct, 0x4100), (.rbt, 0xFF94)] ((taskWords 0xFF94 []).dropLast))) =
      some (0x43, true) := by decide

/-- Vector F5, and a structure just past the end of memory; and a load whose last slot is there. -/
theorem test_meets_ContextSwitchFaultHalts : (∀ a ∈ [0x0100, 0x10000],
    let s := start [(.rst, 0x06), (.rct, BitVec.ofNat 64 a)] []
    ArchFault.illegalInstruction ≠ .machineCheck ∧ fits s.params (s.reg .rct) = true ∧ s.faultsOn = true ∧
    s.tasksOn = true ∧ s.level1 = false ∧ s.pagingOn = false ∧ (s.reg .rct).toNat % s.params.wb = 0 ∧
    inMemory s.params (s.reg .rct).toNat s.params.wb = false) ∧
    let s := start [(.rst, 0x06), (.rct, 0x4100), (.rbt, 0xFF94)] ((taskWords 0xFF94 []).dropLast)
    s.params.wf = true ∧ s.pagingOn = false ∧ taskAt s.params (s.reg .rct).toNat ∧
    (s.reg .rbt).toNat % s.params.wb = 0 ∧ (s.reg .rbt).toNat + 28 * s.params.wb ≤ 2 ^ s.params.xlen ∧
    inMemory s.params (s.reg .rbt).toNat (28 * s.params.wb) = false ∧
    (∀ a ∈ List.range' (s.reg .rbt).toNat (28 * s.params.wb),
      reachable s.params a = true → s.mem.read? a ≠ none) := by decide

/-- A context switch whose first save fails, in fault entry, INTR 0x03, a delivery and LTSK. -/
theorem test_meets_ContextSwitchFaultHalts_fails :
    let s := start [(.rst, 0x07), (.rct, 0x100), (.rbt, 0x100)] []
    let d := { s with pending := [⟨0x10, 3⟩], world := ⟨[], [], [.quiet], false, .nothing⟩ }
    let b := { arrivals d with pending := [] }
    let f : Trap := ⟨.badMemoryReference, none⟩
    let s1 := s.setReg .rip (nextAddress s (.intr 0x03))
    saveContext (s.reg .rct) (s.reg .rip) (s.recordFault ⟨.page, none⟩) = .raise f (s.recordFault ⟨.page, none⟩) ∧
    intrFault s 0x03 = none ∧ intrPrepare 0x03 s = .ok () s ∧
    saveContext (s.reg .rct) (nextAddress s (.intr 0x03)) s1 = .raise f s1 ∧
    d.halted = false ∧ (currentTick d).events.contains .badHardware = false ∧ (arrivals d).interruptsOn = true ∧
    choosePending (arrivals d).params (arrivals d).pending (arrivals d).hidden = some (⟨0x10, 3⟩, (arrivals d).hidden) ∧
    (arrivals d).tasksOn = true ∧ ¬declared (arrivals d) .hardware 0x10 ∧
    saveContext ((arrivals d).reg .rct) ((arrivals d).reg .rip) b = .raise f b ∧
    saveContext (s.reg .rbt) (nextAddress s .ltsk) s = .raise f s := by decide

/-- The bits at the ends of the two ranges. -/
theorem test_meets_FaultBitsAccumulate :
    let s := start [(.rff, 0x800100)] []
    let u := { s with params := leg64 none, regs := s.regs.set .rff 0x8000000100000000 }
    goesOn (faultEntry ⟨.page, none⟩ s) = true ∧ (s.reg .rff).getLsbD 23 = true ∧
    goesOn (faultEntry ⟨.page, none⟩ u) = true ∧ (u.reg .rff).getLsbD 32 = true ∧ (u.reg .rff).getLsbD 63 = true ∧
    63 < u.params.xlen := by decide

theorem test_meets_HaltIsTerminal :
    let s := start [] []
    let u := { s with world := { s.world with inputs := [⟨[.badHardware], false, .nothing⟩] } }
    s.halt.halted = true ∧ u.halted = false ∧ HostEvent.badHardware ∈ (currentTick u).events := by decide

theorem test_meets_EventsBecomeRequests :
    let s := { start [] [] with timers := (Vector.replicate 8 none).set 7 (some ⟨.seconds, 10⟩) }
    fits s.params 0x61 = true ∧ s.timers[0] = none ∧ s.timers[7] = some ⟨.seconds, 10⟩ := by decide

/-- Requests of the first and the last ID that may be declared, and of IDs that are not: one beside them, and one
declared as a software interrupt. -/
theorem test_meets_EventsBecomeRequests_declared :
    let s := { start [] [] with
      params := { Params.default with implInts := [⟨21, .hardware⟩, ⟨31, .hardware⟩, ⟨22, .software⟩] } }
    fits s.params 0x61 = true ∧ (∀ id ∈ [21, 31], declared s .hardware id) ∧
    (∀ id ∈ [20, 22, 23, 32], ¬declared s .hardware id) := by decide

theorem test_meets_PendingChoice :
    choosePending { Params.default with priority := .lowestIdFirst } [⟨0x10, 3⟩, ⟨0x09, 0x61⟩] ⟨[], [], 0⟩ =
      some (⟨0x09, 0x61⟩, ⟨[], [], 0⟩) := by decide

/-- Vectors H1 and H2, and a keyboard failure in place of them, with a second request that stays pending. -/
theorem test_meets_HardwareDelivery : ∀ x ∈ [(⟨0, 0⟩ : VectorEntry), ⟨0, 0x700⟩], ∀ b ∈ [false, true],
    let s := { withEntry 9 x (start [(.rst, 0x01)] []) with
      pending := [⟨0x09, 0x61⟩, ⟨0x09, 0x62⟩], world := ⟨[], [], [⟨[], b, .nothing⟩], false, .nothing⟩ }
    let a := arrivals s
    s.halted = false ∧ (currentTick s).events.contains .badHardware = false ∧ a.interruptsOn = true ∧
    choosePending a.params a.pending a.hidden = some (⟨0x09, 0x61⟩, a.hidden) ∧
    a.pending.erase ⟨0x09, 0x61⟩ = [⟨0x09, 0x62⟩] ∧ a.tasksOn = false ∧ a.vector[8]? = some x ∧
    fits a.params 0x61 = true ∧ fits a.params x.handler = true ∧ ¬declared a .hardware 0x09 ∧
    a.world.deviceFails = b := by decide

/-- A declared interrupt whose routine raises a fault, and one whose routine runs. -/
theorem test_meets_HardwareDelivery_declared : ∀ f ∈ [none, some ArchFault.inputOutput],
    let r := withEntry 31 ⟨0, 0x700⟩ (withImpl f (start [(.rst, 0x01)] []))
    let s := { r with world := ⟨[], [], [⟨[.implRequest 31 5], false, r.world.routine⟩], false, .nothing⟩ }
    let a := arrivals s
    s.halted = false ∧ (currentTick s).events.contains .badHardware = false ∧ a.interruptsOn = true ∧
    choosePending a.params a.pending a.hidden = some (⟨31, 5⟩, a.hidden) ∧ a.vector[30]? = some ⟨0, 0x700⟩ ∧
    fits a.params 5 = true ∧ fits a.params 0x700 = true ∧ declared a .hardware 31 ∧
    a.world.routine.fault = f ∧ a.tasksOn = false := by decide

theorem test_delivery_declared :
    let r := withEntry 31 ⟨0, 0x700⟩ (withImpl none (start [(.rst, 0x01)] []))
    regsAfter (step { r with world := ⟨[], [], [⟨[.implRequest 31 5], false, r.world.routine⟩], false, .nothing⟩ })
      [.rgp1, .rgp2, .ral1, .rip] = some [5, 2, 3, 0x700] := by decide

/-- Vector H4, with a base task of level 0 and one of level 1. -/
theorem test_meets_HardwareDeliverySwitchesTask : ∀ x ∈ [(0x00, false), (0x08, true)],
    let s := { withEntry 16 ⟨0, 0x700⟩ (switching 0x05 [(0x4004, x.1)]) with pending := [⟨0x10, 3⟩] }
    let a := arrivals s
    let b := { a with pending := [] }
    s.halted = false ∧ (currentTick s).events.contains .badHardware = false ∧ a.params.wf = true ∧
    a.interruptsOn = true ∧ choosePending a.params a.pending a.hidden = some (⟨0x10, 3⟩, a.hidden) ∧
    a.pending.erase ⟨0x10, 3⟩ = [] ∧ a.tasksOn = true ∧ a.vector[15]? = some ⟨0, 0x700⟩ ∧ fits a.params 3 = true ∧
    fits a.params 0x700 = true ∧ ¬declared a .hardware 0x10 ∧
    (b.pagingOn = false ∧ taskAt b.params (a.reg .rct).toNat ∧ taskAt b.params (a.reg .rbt).toNat) ∧
    slotsHeld b (a.reg .rbt).toNat baseControl ∧
    (baseLevel1 b (a.reg .rct).toNat (a.reg .rbt).toNat (a.reg .rip) ↔ x.2 = true) := by
  decide

/-- Paging on, a declared interrupt. -/
theorem test_meets_HardwareDeliverySwitchesTask_paged :
    let s := { switchingPaged [(.rst, 0x15), (.rct, 0x00100010), (.rbt, 0x00200010)] with pending := [⟨31, 5⟩] }
    let a := arrivals s
    let b := { a with pending := [] }
    taskPlaces b (a.reg .rct) (a.reg .rbt) 0x2010 0x3010 ∧ a.params.wf = true ∧
    a.interruptsOn = true ∧ choosePending a.params a.pending a.hidden = some (⟨31, 5⟩, a.hidden) ∧ a.tasksOn = true ∧
    a.vector[30]? = some ⟨0, 0⟩ ∧ declared a .hardware 31 ∧ a.world.routine.fault = none ∧
    slotsHeld b 0x3010 baseControl ∧ ¬baseLevel1 b 0x2010 0x3010 (a.reg .rip) :=
  ⟨paged_places (by decide) rfl (by decide) rfl rfl, by decide⟩

end Sys2Proof.Tests
end

/-! SUPPORT. Data accesses from what their address resolves to: the word moved, the fault raised, and the word the stack
of return addresses gives. CPR from memory to memory (rules R171, R176) and RET (rule R198) are settled from these. -/

namespace Sys2Proof.Machine

/-! ### Parts of a step that raise a fault -/

theorem Res.All.of_raise {α : Type} {P : State → Prop} {x : Res α} {tr : Trap} {s : State} (hx : x.All P)
    (h : x = .raise tr s) : P s := by
  subst h; exact hx

theorem SameButHidden.trans {s t u : State} (h1 : SameButHidden s t) (h2 : SameButHidden t u) : SameButHidden s u := by
  unfold SameButHidden at *
  rw [h2, h1]

/-- An address that does not resolve changes nothing a program can read (rule R10). -/
theorem resolve_raise {a n align : Nat} {acc : Access} {s t : State} {tr : Trap}
    (h : resolve a n align acc s = .raise tr t) : SameButHidden s t :=
  (resolve_all (keepsLookup_sameButHidden s) a n align acc (SameButHidden.same s)).of_raise h

/-! ### Data accesses (rules R90, R91) -/

theorem loadWord_raise {s s1 : State} {a : Word} {acc : Access} {tr : Trap}
    (h : resolve a.toNat s.params.wb s.params.wb acc s = .raise tr s1) : loadWord a acc s = .raise tr s1 := by
  simp [loadWord, memRead, h]

theorem storeWord_eq {s s1 : State} {a v : Word} {acc : Access} {addrs : List Nat}
    (h : resolve a.toNat s.params.wb s.params.wb acc s = .ok addrs s1) :
    storeWord a v acc s = .ok () { s1 with mem := s1.mem.writeAll addrs (beBytes s.params.wb v.toNat) } := by
  simp [storeWord, memWrite, h]

theorem storeWord_raise {s s1 : State} {a v : Word} {acc : Access} {tr : Trap}
    (h : resolve a.toNat s.params.wb s.params.wb acc s = .raise tr s1) : storeWord a v acc s = .raise tr s1 := by
  simp [storeWord, memWrite, h]

/-! ### CPR from memory to memory (rules R171, R176) -/

/-- What the two forms of CPR from memory to memory share: the word at `a` goes to `b`, then on to `next`. -/
def copyWord (a b next : Word) (s : State) : Res Unit :=
  (loadWord a .read s).bind fun v s => thenGoTo next (storeWord b v .write s)

theorem exec_cprFmm {s : State} (n k : Word) (he : extKnown s) :
    exec (.cprFmm n k) s = finish (copyWord n k (nextAddress s (.cprFmm n k)) s) :=
  congrArg finish (nextPc_bind 2 (.cprFmm n k) rfl he _)

theorem exec_cprFrm {s : State} {rs : Reg} (n : Word) (he : extKnown s) (hr : isRfp rs = false) :
    exec (.cprFrm rs n) s = finish (copyWord (s.reg rs) n (nextAddress s (.cprFrm rs n)) s) := by
  change finish ((nextPc 1 s).bind fun next s =>
    if isRfp rs then .refuse .fpOperand else copyWord (s.reg rs) n next s) = _
  rw [nextPc_bind 1 (.cprFrm rs n) rfl he, if_neg (by simp [hr])]

section
variable {s s1 s2 : State} {a b : Word} {src dst : List Nat} {bs : List Byte}

/-- Both addresses resolve: the source's bytes stand at the target's addresses, and nothing else changes. -/
theorem copyWord_ok {i : Instr} (hb : src.map s.mem.read? = bs.map some)
    (h1 : resolve a.toNat s.params.wb s.params.wb .read s = .ok src s1)
    (h2 : resolve b.toNat s.params.wb s.params.wb .write s1 = .ok dst s2) :
    ∃ t, finish (copyWord a b (nextAddress s i) s) = .next t ∧ (dst.Nodup → dst.map t.mem.read? = bs.map some) ∧
      t.reg .rip = nextAddress s i ∧ Frame [.rip] dst s t ∧ t.hidden = s2.hidden := by
  obtain ⟨hload, hlt, hlen⟩ := loadWord_eq hb h1
  obtain ⟨hs1, -, -⟩ := resolve_ok h1
  obtain ⟨hs2, hdst, -⟩ := resolve_ok h2
  have hs : SameButHidden s s2 := hs1.trans hs2
  have hbytes : beBytes s1.params.wb (BitVec.ofNat 64 (beValue bs)).toNat = bs := by
    rw [toNat_ofNat_of_lt hlt, hs1.params, ← hlen, beBytes_beValue]
  have hstore : storeWord b (BitVec.ofNat 64 (beValue bs)) .write s1 =
      .ok () { s2 with mem := s2.mem.writeAll dst bs } := by
    rw [storeWord_eq (hs1.params ▸ h2), hbytes]
  refine ⟨({ s2 with mem := s2.mem.writeAll dst bs } : State).setReg .rip (nextAddress s i),
    ?_, fun hn => ?_, ?_, ?_, ?_⟩
  · simp [copyWord, hload, hstore, thenGoTo, finish]
  · exact Memory.map_read?_writeAll s2.mem hn (hdst.trans hlen.symm)
  · rw [State.reg_setReg_same]
    exact hs.params ▸ toWord_nextAddress s i
  · exact frame_setRip hs _ _ dst fun x hx => by rw [Memory.read?_writeAll_other _ _ _ hx, hs.mem]
  · exact State.setReg_hidden _ _ (by decide)

/-- The source is resolved first: its fault is the one reported, whatever the target (rule R171). -/
theorem copyWord_source_raise {next : Word} {tr : Trap}
    (h1 : resolve a.toNat s.params.wb s.params.wb .read s = .raise tr s1) :
    finish (copyWord a b next s) = faultEntry tr s1 ∧ SameButHidden s s1 :=
  ⟨by simp [copyWord, loadWord_raise h1, finish], resolve_raise h1⟩

/-- A target that does not resolve is a fault after the source was read, with nothing written. -/
theorem copyWord_target_raise {next : Word} {tr : Trap} (hb : src.map s.mem.read? = bs.map some)
    (h1 : resolve a.toNat s.params.wb s.params.wb .read s = .ok src s1)
    (h2 : resolve b.toNat s.params.wb s.params.wb .write s1 = .raise tr s2) :
    finish (copyWord a b next s) = faultEntry tr s2 ∧ SameButHidden s s2 := by
  obtain ⟨hload, -, -⟩ := loadWord_eq hb h1
  obtain ⟨hs1, -, -⟩ := resolve_ok h1
  refine ⟨?_, hs1.trans (resolve_raise h2)⟩
  simp [copyWord, hload, storeWord_raise (hs1.params ▸ h2), thenGoTo, finish]

end

/-- Settles O22: both forms are `copyWord`, and its three outcomes are the three clauses. -/
theorem copiesMoveOneWord : Obligations.CopiesMoveOneWord := by
  refine ⟨fun s s1 s2 src dst bs hb => ⟨fun n k he h1 h2 => ?_, fun rs n he hr h1 h2 => ?_⟩,
    fun s s1 tr => ⟨fun n k he h1 => ?_, fun rs n he hr h1 => ?_⟩,
    fun s s1 s2 src bs tr hb => ⟨fun n k he h1 h2 => ?_, fun rs n he hr h1 h2 => ?_⟩⟩
  · rw [exec_cprFmm n k he]; exact copyWord_ok hb h1 h2
  · rw [exec_cprFrm n he hr]; exact copyWord_ok hb h1 h2
  · rw [exec_cprFmm n k he]; exact copyWord_source_raise h1
  · rw [exec_cprFrm n he hr]; exact copyWord_source_raise h1
  · rw [exec_cprFmm n k he]; exact copyWord_target_raise hb h1 h2
  · rw [exec_cprFrm n he hr]; exact copyWord_target_raise hb h1 h2

/-! ### RET (rule R198) -/

theorem wb_lt_two_pow_xlen (p : Params) : p.wb < 2 ^ p.xlen := by
  unfold Params.wb Params.xlen
  cases p.variant <;> decide

/-- `popAddress` is RRA - WB, with the wrap past 0 written out. -/
theorem popAddress_toNat {s : State} (hf : fits s.params (s.reg .rra) = true) :
    (popAddress s).toNat = (if s.params.wb ≤ (s.reg .rra).toNat then (s.reg .rra).toNat - s.params.wb
      else (s.reg .rra).toNat + 2 ^ s.params.xlen - s.params.wb) := by
  have hlt := (fits_iff _ _).mp hf
  have hwb := wb_lt_two_pow_xlen s.params
  rw [popAddress, toWord_toNat]
  split
  · next hle =>
    rw [show (s.reg .rra).toNat + 2 ^ s.params.xlen - s.params.wb
      = (s.reg .rra).toNat - s.params.wb + 2 ^ s.params.xlen by omega, Nat.add_mod_right]
    exact Nat.mod_eq_of_lt (by omega)
  · exact Nat.mod_eq_of_lt (by omega)

theorem toWord_popAddress (s : State) : toWord s.params (popAddress s).toNat = popAddress s :=
  toWord_of_lt _ _ (toWord_lt _ _)

theorem exec_ret (s : State) :
    exec .ret s = finish ((loadWord (popAddress s) .ras s).bind fun t s1 =>
      .ok () ((s1.setReg .rra (popAddress s)).setReg .rip t)) := rfl

/-- The slot resolves: RIP takes the word there, and RRA the slot's address. -/
theorem exec_ret_ok {s s1 : State} {addrs : List Nat} {bs : List Byte}
    (h : resolve (popAddress s).toNat s.params.wb s.params.wb .ras s = .ok addrs s1)
    (hb : addrs.map s.mem.read? = bs.map some) :
    ∃ t, exec .ret s = .next t ∧ (t.reg .rip).toNat = beValue bs ∧ t.reg .rra = popAddress s ∧
      Frame [.rra, .rip] [] s t ∧ t.hidden = s1.hidden := by
  obtain ⟨hload, hlt, -⟩ := loadWord_eq hb h
  obtain ⟨hs, -, -⟩ := resolve_ok h
  refine ⟨(s1.setReg .rra (popAddress s)).setReg .rip (BitVec.ofNat 64 (beValue bs)), ?_, ?_, ?_, ?_, ?_⟩
  · simp [exec_ret, hload, finish]
  · rw [State.reg_setReg_same, toWord_toNat, toNat_ofNat_of_lt hlt, State.setReg_params, hs.params,
      Nat.mod_eq_of_lt hlt]
  · rw [State.reg_setReg_other _ _ (by decide), State.reg_setReg_same, hs.params, toWord_popAddress]
  · exact frame_setReg_rip hs .rra _ _ s1.mem [] fun x _ => by rw [hs.mem]
  · rw [State.setReg_hidden _ _ (by decide), State.setReg_hidden _ _ (by decide)]

/-- The slot does not resolve: the fault is taken before RRA or RIP is written (rule R10). -/
theorem exec_ret_raise {s s1 : State} {tr : Trap}
    (h : resolve (popAddress s).toNat s.params.wb s.params.wb .ras s = .raise tr s1) :
    exec .ret s = faultEntry tr s1 ∧ SameButHidden s s1 :=
  ⟨by simp [exec_ret, loadWord_raise h, finish], resolve_raise h⟩

/-- Settles O29: the popped slot's address, then the two outcomes of its read. -/
theorem retPopsAddress : Obligations.RetPopsAddress := fun _ hf =>
  ⟨popAddress_toNat hf, fun _ _ _ h hb => exec_ret_ok h hb, fun _ _ h => exec_ret_raise h⟩

end Sys2Proof.Machine

/-! SUPPORT. What every step keeps: the invariant, the control registers of Privilege Level 1, and the tables that only
INTR at level 0 changes; and the state after reset, of which the invariant holds. Each is a predicate that survives the
effects `KeepsStep` or `KeepsExec` lists. -/

namespace Sys2Proof.Machine

/-! ### The invariant after each update -/

theorem mem_setIfInBounds {α : Type} {n i : Nat} {xs : Vector α n} {x y : α} (h : y ∈ xs.setIfInBounds i x) :
    y ∈ xs ∨ y = x := by
  obtain ⟨j, hj, rfl⟩ := Vector.mem_iff_getElem.mp h
  rw [Vector.getElem_setIfInBounds]
  split
  · exact .inr rfl
  · exact .inl (Vector.getElem_mem hj)

section
variable {s : State}

theorem Inv.withHidden (hs : Inv s) {h : Hidden}
    (hc : ∀ c ∈ h.cache, c ∈ s.hidden.cache ∨ c.fits s.params = true) : Inv { s with hidden := h } :=
  { hs with cache := fun c hm => (hc c hm).elim (hs.cache c) id }

theorem Inv.withMem (hs : Inv s) {addrs : List Nat} (bs : List Byte)
    (ha : ∀ a ∈ addrs, reachable s.params a = true) : Inv { s with mem := s.mem.writeAll addrs bs } :=
  { hs with
    mem := Memory.writeAll_wf hs.mem addrs bs
    cells := fun c hc => (Memory.mem_writeAll hc).elim (ha c.1) (hs.cells c) }

theorem Inv.setReg (hs : Inv s) (r : Reg) (v : Word) : Inv (s.setReg r v) :=
  { hs with
    regs := fun q => by
      rw [State.reg_setReg]
      split
      · exact fits_toWord _ _
      · exact hs.regs q
    cache := fun c hc => hs.cache c (setRegs_cache_sub (vs := [(r, v)]) hc) }

theorem Inv.setRegs (hs : Inv s) (vs : List (Reg × Word)) : Inv (setRegs s vs) := by
  induction vs generalizing s with
  | nil => exact hs
  | cons x vs ih => exact ih (hs.setReg x.1 x.2)

theorem Inv.withEntry (hs : Inv s) (n : Nat) {e : VectorEntry} (he : e.legal s.params = true) :
    Inv { s with vector := s.vector.setIfInBounds n e } :=
  { hs with vector := fun x hx => (mem_setIfInBounds hx).elim (hs.vector x) fun h => h ▸ he }

theorem Inv.withTimer (hs : Inv s) (n : Nat) {x : Option Timer} (hx : ∀ t, x = some t → fits s.params t.tte = true) :
    Inv { s with timers := s.timers.setIfInBounds n x } :=
  { hs with timers := fun y hy => (mem_setIfInBounds hy).elim (hs.timers y) fun h => h ▸ hx }

/-- An entry INTR 0x01 writes: its flag check leaves bit 0 alone (rule R322). -/
theorem legal_of_bitsFrom {p : Params} {flags handler : Word} (hf : bitsFrom flags 1 = 0) (hh : fits p handler = true) :
    (⟨flags, handler⟩ : VectorEntry).legal p = true := by
  have : flags.toNat ≤ 1 := by simp only [bitsFrom] at hf; omega
  simp [VectorEntry.legal, this, hh]

end

theorem keepsStep_inv : KeepsStep Inv where
  exec i :=
    { hidden := fun _ _ hs hc => hs.withHidden hc
      mem := fun _ _ bs hs ha => hs.withMem bs ha
      rip := fun _ v hs => hs.setReg .rip v
      record := fun s t hs => hs.setReg .rff (rffWith (s.reg .rff) t)
      halt := fun _ hs => { hs with }
      base := fun _ vs hs _ _ => hs.setRegs vs
      checked := fun _ r v hs _ => hs.setReg r v
      unchecked := fun _ r v hs _ => hs.setReg r v
      full := fun _ vs hs _ _ _ _ => hs.setRegs vs
      vector := fun _ n hs _ hf => hs.withEntry n (legal_of_bitsFrom hf (hs.regs .rgp3))
      timer := fun s n g hs _ => hs.withTimer n fun t ht => by
        injection ht with ht
        exact ht ▸ hs.regs .rgp3
      display := fun _ _ hs _ => { hs with }
      storage := fun _ _ hs _ => { hs with } }
  pending _ _ hs hr := { hs with pending := fun r hm => (hr r hm).elim (hs.pending r) id }
  expiry _ n hs := hs.withTimer n fun _ ht => nomatch ht
  tick _ _ _ _ hs := { hs with }

/-- Settles O10: the invariant survives each effect a step may have. -/
theorem stepKeepsInvariants : Obligations.StepKeepsInvariants :=
  fun _ _ hs he => step_keeps keepsStep_inv hs he

/-! ### The control registers at Privilege Level 1 (rules R282, R283) -/

/-- The registers that hold the mode, the handler address, the task registers and the page list are as in `s`. -/
def SameControl (s t : State) : Prop := ∀ r ∈ [Reg.rst, .rfa, .rbt, .rct, .rpa], t.reg r = s.reg r

section
variable {s t : State}

theorem SameControl.level1 (h : SameControl s t) : t.level1 = s.level1 := by
  unfold State.level1; rw [h .rst (by decide)]

theorem SameControl.tasksOn (h : SameControl s t) : t.tasksOn = s.tasksOn := by
  unfold State.tasksOn; rw [h .rst (by decide)]

theorem SameControl.setReg (h : SameControl s t) {r : Reg} (v : Word) (hr : r ∉ [Reg.rst, .rfa, .rbt, .rct, .rpa]) :
    SameControl s (t.setReg r v) := fun q hq =>
  (t.reg_setReg_other v (by rintro rfl; exact hr hq)).trans (h q hq)

/-- At level 1 the check of an explicit register write refuses the control registers (rule R26). -/
theorem not_isProtected_of_writeFault {r : Reg} {v : Word} (hl : s.level1 = true) (hf : writeFault s r v = none) :
    isProtected r = false := by
  by_contra hp
  unfold writeFault at hf
  split at hf
  · cases hf
  · simp [hl, Bool.eq_true_of_not_eq_false hp] at hf

end

/-- At level 1 with RST bit 2 clear no effect of a step reaches the control registers: their explicit writes are
refused, and the context loads need level 0 or RST bit 2. -/
theorem keepsStep_sameControl {s : State} (hl : s.level1 = true) (ht : s.tasksOn = false) :
    KeepsStep (SameControl s) where
  exec i :=
    { hidden := fun _ _ h _ => h
      mem := fun _ _ _ h _ => h
      rip := fun _ v h => h.setReg v (by decide)
      record := fun _ _ h => h.setReg _ (by decide)
      halt := fun _ h => h
      base := fun _ _ h hon _ => absurd (h.tasksOn.symm.trans hon) (by simp [ht])
      checked := fun _ r v h hf => h.setReg v fun hm => by
        have hp := not_isProtected_of_writeFault (h.level1.trans hl) hf
        revert hp hm
        cases r <;> decide
      unchecked := fun _ r v h hu => h.setReg v fun hm => by
        revert hu hm
        cases r <;> decide
      full := fun _ _ h _ hon _ _ => absurd (h.tasksOn.symm.trans hon) (by simp [ht])
      vector := fun _ _ h _ _ => h
      timer := fun _ _ _ h _ => h
      display := fun _ _ h _ => h
      storage := fun _ _ h _ => h }
  pending _ _ h _ := h
  expiry _ _ h := h
  tick _ _ _ _ h := h

/-- Settles O12: the control registers survive each effect a step may have. -/
theorem levelOneControlKept : Obligations.LevelOneControlKept :=
  fun _ _ hl ht he => step_keeps (keepsStep_sameControl hl ht) (fun _ _ => rfl) he

/-! ### The tables only INTR changes (rules R53, R55, R56) -/

/-- The vector, the timers, the display and the storage devices are as in `s`, each unless `i` is its own INTR; and the
pending requests are. -/
structure SameTables (i : Instr) (s t : State) : Prop where
  vector : i ≠ .intr 0x01 → t.vector = s.vector
  timers : i ≠ .intr 0x0F → t.timers = s.timers
  display : i ≠ .intr 0x0A → t.world.display = s.world.display
  storage : i ≠ .intr 0x0B → t.world.storage = s.world.storage
  pending : t.pending = s.pending

theorem SameTables.same (i : Instr) (s : State) : SameTables i s s :=
  ⟨fun _ => rfl, fun _ => rfl, fun _ => rfl, fun _ => rfl, rfl⟩

section
variable {i : Instr} {s t : State}

theorem SameTables.setReg (h : SameTables i s t) (r : Reg) (v : Word) : SameTables i s (t.setReg r v) := { h with }

theorem SameTables.setRegs (h : SameTables i s t) (vs : List (Reg × Word)) : SameTables i s (setRegs t vs) := by
  induction vs generalizing t with
  | nil => exact h
  | cons x vs ih => exact ih (h.setReg x.1 x.2)

end

theorem keepsExec_sameTables (i : Instr) (s : State) : KeepsExec i (SameTables i s) where
  hidden _ _ h _ := { h with }
  mem _ _ _ h _ := { h with }
  rip _ v h := h.setReg .rip v
  record u t h := h.setReg .rff (rffWith (u.reg .rff) t)
  halt _ h := { h with }
  base _ vs h _ _ := h.setRegs vs
  checked _ r v h _ := h.setReg r v
  unchecked _ r v h _ := h.setReg r v
  full _ vs h _ _ _ _ := h.setRegs vs
  vector _ _ h hi _ := { h with vector := fun hne => absurd hi hne }
  timer _ _ _ h hi := { h with timers := fun hne => absurd hi hne }
  display _ _ h hi := { h with display := fun hne => absurd hi hne }
  storage _ _ h hi := { h with storage := fun hne => absurd hi hne }

/-- An instruction that takes a fault at once changes no table. -/
theorem sameTables_faultEntry {tr : Trap} {s t : State} (h : faultEntry tr s = .next t) : SameTables .nop s t :=
  faultEntry_keeps (keepsExec_sameTables .nop s).toKeepsEntry (SameTables.same .nop s) h

/-- INTR: a validation that fails is a fault with RIP at the INTR (rule R251). -/
theorem exec_intr_fault {s : State} {id : Byte} {tr : Trap} (h : intrFault s id = some tr) :
    exec (.intr id) s = faultEntry tr s := by
  change finish ((nextPc 0 s).bind _) = _
  rw [nextPc_zero_bind s (.intr id) rfl, h]
  rfl

/-- At level 1 the IDs 1 to 31 are a Privilege Fault (rule R251). -/
theorem intrFault_level1 {s : State} {id : Byte} (hl : s.level1 = true) (h1 : 1 ≤ id.toNat) (h31 : id.toNat ≤ 31) :
    ∃ tr, intrFault s id = some tr := by
  unfold intrFault
  rw [if_neg (by omega), if_pos h31, if_pos hl]
  exact ⟨_, rfl⟩

/-- An instruction that is not INTR `id`, or that runs at level 1, keeps what an instruction `j` keeps that is not INTR
`id`: at level 1 the INTR is a fault, which keeps all tables. -/
theorem sameTables_of_ne_or_level1 {i : Instr} {s t : State} {id : Byte} (he : exec i s = .next t) (h1 : 1 ≤ id.toNat)
    (h31 : id.toNat ≤ 31) (h : i ≠ .intr id ∨ s.level1 = true) : ∃ j, j ≠ .intr id ∧ SameTables j s t := by
  by_cases hi : i = .intr id
  · subst hi
    obtain ⟨tr, htr⟩ := intrFault_level1 (h.resolve_left fun hne => hne rfl) h1 h31
    exact ⟨.nop, nofun, sameTables_faultEntry ((exec_intr_fault htr).symm.trans he)⟩
  · exact ⟨i, hi, exec_keeps (keepsExec_sameTables i s) (SameTables.same i s) he⟩

/-- Settles O13: each table is kept by what is not its own INTR at level 0. -/
theorem tablesChangeByIntrOnly : Obligations.TablesChangeByIntrOnly := by
  intro i s t he
  refine ⟨fun h => ?_, fun h => ?_, fun h => ?_, fun h => ?_, ?_⟩
  · obtain ⟨j, hj, hk⟩ := sameTables_of_ne_or_level1 he (by decide) (by decide) h
    exact hk.vector hj
  · obtain ⟨j, hj, hk⟩ := sameTables_of_ne_or_level1 he (by decide) (by decide) h
    exact hk.timers hj
  · obtain ⟨j, hj, hk⟩ := sameTables_of_ne_or_level1 he (by decide) (by decide) h
    exact hk.display hj
  · obtain ⟨j, hj, hk⟩ := sameTables_of_ne_or_level1 he (by decide) (by decide) h
    exact hk.storage hj
  · exact (exec_keeps (keepsExec_sameTables i s) (SameTables.same i s) he).pending

end Sys2Proof.Machine

/-! SUPPORT. The Register IDs, the state after CPU initialization, and the events of the outside world. -/

namespace Sys2Proof.Machine

/-! ### Register IDs (rule R21) -/

theorem regId_toNat (r : Reg) : (regId r).toNat = 4 * regIndex r := by cases r <;> rfl

theorem mem_allRegs (r : Reg) : r ∈ allRegs := by cases r <;> decide

/-- A byte is a Register ID exactly when it is four times an index of Table 4.3 (rules R21, R146). -/
theorem regOfId_isSome_iff (b : Byte) : (regOfId b).isSome = true ↔ b.toNat % 4 = 0 ∧ b.toNat ≤ 0x6C := by
  have hlen : allRegs.length = 28 := rfl
  unfold regOfId
  split
  · next h4 =>
    rw [Option.isSome_iff_ne_none, ne_eq, List.getElem?_eq_none_iff, hlen]
    omega
  · next h4 => simp [h4]

/-- Settles O1: the table is computed, and an ID is read back by its index. -/
theorem registerIds : Obligations.RegisterIds :=
  ⟨rfl, fun r => ⟨mem_allRegs r, regId_toNat r, regOfId_regId r⟩, regOfId_isSome_iff⟩

/-! ### CPU initialization (rules R60, R382) -/

/-- What an image holds: its bytes at consecutive addresses, and nothing else. -/
theorem imageAt_read? (a : Nat) (bs : List Byte) (x : Nat) :
    (imageAt a bs).read? x = if a ≤ x then bs[x - a]? else none := by
  induction bs generalizing a with
  | nil => simp [imageAt, Memory.read?]
  | cons b bs ih =>
    rw [imageAt, Memory.read?, ih]
    by_cases hx : a = x
    · subst hx; simp
    · rw [if_neg hx]
      split
      · rw [if_pos (by omega), show x - a = x - (a + 1) + 1 by omega, List.getElem?_cons_succ]
      · rw [if_neg (by omega)]

theorem mem_imageAt {a : Nat} {bs : List Byte} {c : Host.Cell} (h : c ∈ imageAt a bs) :
    a ≤ c.1 ∧ c.1 < a + bs.length := by
  induction bs generalizing a with
  | nil => cases h
  | cons b bs ih =>
    rw [List.length_cons]
    rcases List.mem_cons.mp h with rfl | h
    · exact ⟨le_refl a, by show a < _; omega⟩
    · have := ih h
      omega

theorem State.init_reg (p : Params) (image : List Byte) (storage : List StorageDevice) (inputs : List Tick) (r : Reg) :
    (State.init p image storage inputs).reg r = if r = .rip then BitVec.ofNat 64 p.resetRip else 0 := by
  cases r <;> rfl

theorem resetRip_lt (p : Params) : p.resetRip < 2 ^ p.xlen := by
  unfold Params.resetRip Params.reservedEnd Params.xlen
  cases p.variant <;> decide

/-- Settles O8: the registers by `State.init_reg`, memory by `imageAt_read?`; the rest is written in `State.init`. -/
theorem cpuInitialization : Obligations.CpuInitialization := by
  intro p image storage inputs
  refine ⟨?_, rfl, rfl, fun e he => Vector.eq_of_mem_replicate he, fun x hx => Vector.eq_of_mem_replicate hx,
    rfl, rfl, rfl, rfl, rfl, fun k hk => ?_, fun a ha => ?_, rfl⟩
  · rw [State.init_reg, if_pos rfl, toNat_ofNat_of_lt (resetRip_lt p)]
    rfl
  · refine (imageAt_read? _ _ _).trans ?_
    rw [if_pos (by omega), Nat.add_sub_cancel_left]
  · refine (imageAt_read? _ _ _).trans ?_
    split
    · exact List.getElem?_eq_none (by omega)
    · rfl

/-- The invariant holds after CPU initialization with an image that fits in memory. -/
theorem init_inv {p : Params} {image : List Byte} (storage : List StorageDevice) (inputs : List Tick)
    (hp : p.wf = true) (hi : p.resetRip + image.length ≤ p.memSize) : Inv (State.init p image storage inputs) where
  params := hp
  mem := imageAt_wf _ _
  cells c hc := by
    have := mem_imageAt hc
    refine (reachable_iff _ _).mpr ⟨this.1, ?_⟩
    show c.1 < p.memSize
    omega
  regs r := by
    rw [State.init_reg]
    split
    · exact fits_ofNat _ (resetRip_lt p)
    · exact fits_ofNat _ (Nat.two_pow_pos _)
  vector e he := by
    obtain rfl := Vector.eq_of_mem_replicate he
    exact legal_of_bitsFrom rfl (fits_ofNat _ (Nat.two_pow_pos _))
  timers x hx t ht := by
    obtain rfl := Vector.eq_of_mem_replicate hx
    cases ht
  pending := nofun
  cache := nofun

/-- Settles O9: the reset state is an initialization with no image. -/
theorem resetHasInvariants : Obligations.ResetHasInvariants := init_inv [] [] (by decide) (by decide)

/-! ### Events of the outside world (rules R56, R333, R336) -/

/-- A datum of XLEN bits is stored as it is. -/
theorem addRequest_of_fits {s : State} (id : Byte) {d : Word} (h : fits s.params d = true) :
    addRequest s id d = { s with pending := s.pending ++ [⟨id, d⟩] } := by
  rw [addRequest, toWord_of_lt _ _ ((fits_iff _ _).mp h)]

theorem Frame.same (changed : List Reg) (stored : List Nat) (s : State) : Frame changed stored s s :=
  ⟨fun _ _ => rfl, fun _ _ => rfl, rfl, rfl, rfl, rfl, rfl, rfl⟩

theorem arrive_key {s : State} {d : Word} (h : fits s.params d = true) :
    arrive s (.key d) = { s with pending := s.pending ++ [⟨0x09, d⟩] } := addRequest_of_fits 0x09 h

theorem arrive_timerExpiry_none {s : State} {k : Fin 8} (h : s.timers[k] = none) : arrive s (.timerExpiry k) = s := by
  simp only [arrive]
  split
  · rfl
  · next h' => exact absurd (h.symm.trans h') nofun

theorem fin8_fits (p : Params) (k : Fin 8) : fits p (BitVec.ofNat 64 k.val) = true :=
  fits_ofNat p (lt_of_lt_of_le k.isLt (le_trans (by decide) (Nat.pow_le_pow_right (by decide) (xlen_ge p))))

theorem arrive_timerExpiry_some {s : State} {k : Fin 8} {x : Timer} (h : s.timers[k] = some x) :
    arrive s (.timerExpiry k) = { s with
      timers := s.timers.setIfInBounds k.val none
      pending := s.pending ++ [⟨0x10, BitVec.ofNat 64 k.val⟩] } := by
  simp only [arrive]
  split
  · next h' => exact absurd (h.symm.trans h') nofun
  · exact addRequest_of_fits _ (fin8_fits _ k)

theorem arrive_implRequest {s : State} {id : Byte} {d : Word} (hd : declared s .hardware id)
    (h : fits s.params d = true) :
    arrive s (.implRequest id d) = { s with pending := s.pending ++ [⟨id, d⟩] } := by
  simp only [arrive]
  rw [if_pos (isImplInt_iff.mpr hd), addRequest_of_fits id h]

theorem arrive_implRequest_undeclared {s : State} {id : Byte} (d : Word) (hd : ¬declared s .hardware id) :
    arrive s (.implRequest id d) = s := by
  simp only [arrive]
  rw [if_neg (fun h => hd (isImplInt_iff.mp h))]

/-- Settles O57, event by event. -/
theorem eventsBecomeRequests : Obligations.EventsBecomeRequests := by
  refine fun s => ⟨fun d hd => ?_, fun k hk => arrive_timerExpiry_none hk, fun k x hk => ?_, fun id d hi hd => ?_,
    fun id d hi => arrive_implRequest_undeclared d hi⟩
  · rw [arrive_key hd]
    exact ⟨rfl, Frame.same _ _ _, rfl⟩
  · rw [arrive_timerExpiry_some hk]
    refine ⟨rfl, Vector.getElem_setIfInBounds_self k.isLt, fun j hj => ?_, Frame.same _ _ _, rfl⟩
    exact Vector.getElem_setIfInBounds_ne j.isLt fun h => hj (Fin.ext h.symm)
  · rw [arrive_implRequest hi hd]
    exact ⟨rfl, Frame.same _ _ _, rfl⟩

end Sys2Proof.Machine

/-! SUPPORT. Explicit register writes (rule R26): the copies to a register where the check passes, and the fault it
raises in the copies, LGIC and ARTH. -/

namespace Sys2Proof.Machine

/-! ### The meanings that end in a checked register write -/

/-- An instruction that ends by writing `v` to register `rt` and goes on to `next`. -/
def writeThenGo (rt : Reg) (v next : Word) (s : State) : Host.Outcome State Fault Refusal :=
  finish (thenGoTo next (writeReg rt v s))

section
variable {s s1 : State} {rs rt : Reg}

theorem exec_cpvrFrr (s : State) (rs rt : Reg) :
    exec (.cpvrFrr rs rt) s = writeThenGo rt (s.reg rs) (nextAddress s (.cpvrFrr rs rt)) s :=
  congrArg finish (nextPc_zero_bind s (.cpvrFrr rs rt) rfl _)

theorem exec_cpvlFmr (he : extKnown s) (n : Word) (rt : Reg) :
    exec (.cpvlFmr n rt) s = writeThenGo rt n (nextAddress s (.cpvlFmr n rt)) s :=
  congrArg finish (nextPc_bind 1 (.cpvlFmr n rt) rfl he _)

theorem exec_cprFmr (he : extKnown s) {n v : Word} (ht : isRfp rt = false) (hl : loadWord n .read s = .ok v s1) :
    exec (.cprFmr n rt) s = writeThenGo rt v (nextAddress s (.cprFmr n rt)) s1 := by
  change finish ((nextPc 1 s).bind _) = _
  rw [nextPc_bind 1 (.cprFmr n rt) rfl he, if_neg (by simp [ht]), hl]
  rfl

theorem exec_cprFrr {v : Word} (hs : isRfp rs = false) (ht : isRfp rt = false)
    (hl : loadWord (s.reg rs) .read s = .ok v s1) :
    exec (.cprFrr rs rt) s = writeThenGo rt v (nextAddress s (.cprFrr rs rt)) s1 := by
  change finish ((nextPc 0 s).bind _) = _
  rw [nextPc_zero_bind s (.cprFrr rs rt) rfl, if_neg (by simp [hs, ht]), hl]
  rfl

theorem exec_lgic_valid (hs : isRfp rs = false) (ht : isRfp rt = false)
    (hc : checkRlgic s.params (s.reg .rlgic) = .valid) :
    exec (.lgic rs rt) s = writeThenGo rt (lgicValue s.params (s.reg .rlgic) rs rt (s.reg rt) (s.reg rs))
      (nextAddress s (.lgic rs rt)) s := by
  change finish ((nextPc 0 s).bind _) = _
  rw [nextPc_zero_bind s (.lgic rs rt) rfl]
  simp only [hc, hs, ht]
  rfl

theorem exec_arth_integer {x : ArthResult} (hs : isRfp rs = false) (ht : isRfp rt = false) (hne : rt ≠ .rarth)
    (hc : checkRarth s.params (s.reg .rarth) = .valid) (hx : extendedAllowed rs rt (s.reg .rarth) = true)
    (hr : arthInteger s.params (s.reg .rarth) rs rt (s.reg rt) (s.reg rs) = some x) :
    exec (.arth rs rt) s = finish (arthCommit rt x (nextAddress s (.arth rs rt)) s) := by
  change finish ((nextPc 0 s).bind _) = _
  rw [nextPc_zero_bind s (.arth rs rt) rfl]
  simp only [hc, hs, ht, hx, hr, if_neg hne]
  rfl

/-! ### A write that passes its check -/

theorem writeThenGo_ok {v : Word} (next : Word) (h : mayWrite s rt v) :
    writeThenGo rt v next s = .next ((s.setReg rt v).setReg .rip next) := by
  simp [writeThenGo, thenGoTo, writeReg, writeFault_eq_none h, finish]

/-- A write of any register does to `hidden` what rule R100 says of RPA. -/
theorem State.setReg_hidden_eq (s : State) (r : Reg) (v : Word) :
    (s.setReg r v).hidden = if r = .rpa then { s.hidden with cache := [] } else s.hidden := by
  split
  · next h => subst h; rfl
  · next h => exact s.setReg_hidden v h

/-- Result and frame of a copy to a register. -/
theorem writeThenGo_frame {i : Instr} {v : Word} (hv : fits s.params v = true) (h : mayWrite s rt v) :
    ∃ t, writeThenGo rt v (nextAddress s i) s = .next t ∧ t.reg rt = v ∧ t.reg .rip = nextAddress s i ∧
      Frame [rt, .rip] [] s t ∧ t.hidden = (if rt = .rpa then { s.hidden with cache := [] } else s.hidden) := by
  refine ⟨_, writeThenGo_ok _ h, ?_, ?_, ?_, ?_⟩
  · rw [State.reg_setReg_other _ _ h.1, State.reg_setReg_same, toWord_of_lt _ _ ((fits_iff _ _).mp hv)]
  · rw [State.reg_setReg_same]
    exact toWord_nextAddress s i
  · exact frame_setReg_rip (SameButHidden.same s) rt v _ s.mem [] fun _ _ => rfl
  · rw [State.setReg_hidden _ _ (by decide), State.setReg_hidden_eq]

end

/-- Settles O18: both forms end in a checked write of a value of XLEN bits. -/
theorem registerCopies : Obligations.RegisterCopies := by
  refine ⟨fun s rs rt hv h => ?_, fun s n rt he hv h => ?_⟩
  · rw [exec_cpvrFrr]
    exact writeThenGo_frame hv h
  · rw [exec_cpvlFmr he]
    exact writeThenGo_frame hv h

/-! ### A write that the check refuses -/

/-- What rule R26 forbids: RIP as a target, a protected control register at level 1, and reserved bits of RST. -/
def ForbiddenWrite (s : State) (rt : Reg) (v : Word) (f : ArchFault) : Prop :=
  (rt = .rip ∧ f = .illegalInstruction) ∨
    (s.level1 = true ∧ rt ∈ [Reg.rst, .rff, .rfa, .rbt, .rct, .rpa, .rra] ∧ f = .privilege) ∨
    (s.level1 = false ∧ rt = .rst ∧ 32 ≤ v.toNat ∧ f = .badRegisterValue)

section
variable {s s1 : State} {rt : Reg} {v : Word} {f : ArchFault}

theorem writeFault_of_forbidden (h : ForbiddenWrite s rt v f) : writeFault s rt v = some f := by
  rcases h with ⟨rfl, rfl⟩ | ⟨hl, hm, rfl⟩ | ⟨hl, rfl, hv, rfl⟩
  · rfl
  · have hne : rt ≠ .rip := by rintro rfl; revert hm; decide
    simp [writeFault, hne, hl, (isProtected_iff rt).mpr hm]
  · have hb : bitsFrom v 5 ≠ 0 := by simp only [bitsFrom]; omega
    simp [writeFault, hl, hb]

/-- No data register and no RARTH is ever forbidden. -/
theorem ForbiddenWrite.isRfp (h : ForbiddenWrite s rt v f) : isRfp rt = false := by
  rcases h with ⟨rfl, -⟩ | ⟨-, hm, -⟩ | ⟨-, rfl, -, -⟩
  · rfl
  · revert hm; cases rt <;> decide
  · rfl

theorem ForbiddenWrite.ne_rarth (h : ForbiddenWrite s rt v f) : rt ≠ .rarth := by
  rintro rfl
  rcases h with ⟨h, -⟩ | ⟨-, hm, -⟩ | ⟨-, h, -, -⟩
  · cases h
  · revert hm; decide
  · cases h

/-- A memory read before the write changes nothing the check reads. -/
theorem ForbiddenWrite.of_sameButHidden (h : ForbiddenWrite s rt v f) (hs : SameButHidden s s1) :
    ForbiddenWrite s1 rt v f := by
  have hl : s1.level1 = s.level1 := by unfold State.level1; rw [hs.reg]
  unfold ForbiddenWrite
  rw [hl]
  exact h

theorem writeThenGo_forbidden (h : ForbiddenWrite s rt v f) (next : Word) :
    writeThenGo rt v next s = faultEntry ⟨f, none⟩ s := by
  simp [writeThenGo, thenGoTo, writeReg, writeFault_of_forbidden h, raiseFault, finish]

theorem arthCommit_forbidden {x : ArthResult} (h : ForbiddenWrite s rt x.target f) (next : Word) :
    finish (arthCommit rt x next s) = faultEntry ⟨f, none⟩ s := by
  simp [arthCommit, writeFault_of_forbidden h, raiseFault, finish]

end

/-- Settles O19: each instruction ends in the same checked write, from the state its memory read left. -/
theorem forbiddenWritesFault : Obligations.ForbiddenWritesFault := by
  intro s rt v f he (h : ForbiddenWrite s rt v f)
  refine ⟨fun rs hv => ?_, ?_, fun n s1 hl => ?_, fun rs s1 hs hl => ?_, fun rs hs hc hv => ?_,
    fun rs x hs hc hx hr hv => ?_⟩
  · rw [exec_cpvrFrr]
    exact writeThenGo_forbidden (hv ▸ h) _
  · rw [exec_cpvlFmr he]
    exact writeThenGo_forbidden h _
  · rw [exec_cprFmr he h.isRfp hl]
    exact writeThenGo_forbidden (h.of_sameButHidden (loadWord_ok hl).1) _
  · rw [exec_cprFrr hs h.isRfp hl]
    exact writeThenGo_forbidden (h.of_sameButHidden (loadWord_ok hl).1) _
  · rw [exec_lgic_valid hs h.isRfp hc]
    exact writeThenGo_forbidden (hv ▸ h) _
  · rw [exec_arth_integer hs h.isRfp h.ne_rarth hc hx hr]
    exact arthCommit_forbidden (hv ▸ h) _

end Sys2Proof.Machine

/-! SUPPORT. Context switches: what the trap-entry switch leaves (`Switched`) carried through the writes of RIP around
it, in fault entry, in INTR of a user-defined interrupt and in LTSK; and the Machine Check of a switch that fails. -/

namespace Sys2Proof.Machine

/-! ### Machine Check -/

/-- A fault bit that is set stays set when another fault is recorded (rule R303). -/
theorem State.recordFault_keeps_faultBit {s : State} {f : ArchFault} (tr : Trap)
    (h : (s.reg .rff).getLsbD (faultBit f) = true) : ((s.recordFault tr).reg .rff).getLsbD (faultBit f) = true :=
  s.recordFault_keeps_bit tr (.inl (lt_trans (faultBit_lt f) (by decide))) h

/-- The halted state in which a context switch ends whose fault is `tr`, raised in state `u`: that fault is recorded,
then the Machine Check (rule R344). -/
def switchHalted (tr : Trap) (u : State) : State := ((u.recordFault tr).recordFault ⟨.machineCheck, none⟩).halt

theorem finish_machineCheck (tr : Trap) (u : State) :
    finish (raiseFault .machineCheck (u.recordFault tr)) = .next (switchHalted tr u) := rfl

theorem switchHalted_reg (tr : Trap) (u : State) {r : Reg} (h : r ≠ .rff) : (switchHalted tr u).reg r = u.reg r := by
  rw [switchHalted, State.halt_reg, State.recordFault_reg _ _ h, State.recordFault_reg _ _ h]

theorem machineChecked_switchHalted (tr : Trap) (u : State) : machineChecked (switchHalted tr u) :=
  ⟨rfl, (u.recordFault tr).recordFault_bit ⟨.machineCheck, none⟩⟩

theorem switchHalted_bit (tr : Trap) (u : State) :
    ((switchHalted tr u).reg .rff).getLsbD (faultBit tr.fault) = true := by
  rw [switchHalted, State.halt_reg]
  exact State.recordFault_keeps_faultBit _ (u.recordFault_bit tr)

/-- A fault recorded before the switch stays recorded. -/
theorem switchHalted_keeps_faultBit {u : State} {f : ArchFault} (tr : Trap)
    (h : (u.reg .rff).getLsbD (faultBit f) = true) : ((switchHalted tr u).reg .rff).getLsbD (faultBit f) = true := by
  rw [switchHalted, State.halt_reg]
  exact State.recordFault_keeps_faultBit _ (State.recordFault_keeps_faultBit tr h)

/-! ### The trap-entry switch, with RIP written before and after it -/

/-- A save reads every register but RIP. -/
theorem savedMemory_congr {s t : State} (hp : t.params = s.params) (hm : t.mem = s.mem)
    (hr : ∀ r, r ≠ .rip → t.reg r = s.reg r) (base : Nat) (v : Word) : savedMemory t base v = savedMemory s base v := by
  have hb : savedBytes t v = savedBytes s v := by
    unfold savedBytes
    refine List.flatMap_congr fun r _ => ?_
    rw [hp]
    by_cases h : r = .rip
    · rw [if_pos h, if_pos h]
    · rw [if_neg h, if_neg h, hr r h]
  rw [savedMemory, savedMemory, hb, hp, hm]

theorem savedMemory_setRip (s : State) (w : Word) (base : Nat) (v : Word) :
    savedMemory (s.setReg .rip w) base v = savedMemory s base v :=
  savedMemory_congr (s := s) (t := s.setReg .rip w) rfl rfl (fun _ h => s.reg_setReg_other w h) base v

section
variable {changed : List Reg} {s t : State} {ps pl : Nat} {v : Word}

theorem Switched.mono {more : List Reg} (h : Switched changed s ps pl v t) (hsub : changed ⊆ more) :
    Switched more s ps pl v t :=
  { h with
    frame := { h.frame with
      regs := fun r hr => h.frame.regs r fun hm =>
        hr ((List.mem_append.mp hm).elim (fun hc => List.mem_append_left _ (hsub hc)) (List.mem_append_right _)) } }

/-- Execution goes on elsewhere after the switch. -/
theorem Switched.setRip (h : Switched changed s ps pl v t) (hc : .rip ∈ changed) (w : Word) :
    Switched changed s ps pl v (t.setReg .rip w) where
  mem := h.mem
  base r hr := by
    rw [State.reg_setReg_other _ _ (by rintro rfl; revert hr; decide)]
    exact h.base r hr
  frame := { h.frame with
    regs := fun r hr => by
      rw [State.reg_setReg_other _ _ (by rintro rfl; exact hr (List.mem_append_left _ hc))]
      exact h.frame.regs r hr }
  cache := by
    rw [State.setReg_hidden _ _ (by decide)]
    exact h.cache

/-- RIP was written before the switch, which saved another value for it. -/
theorem Switched.of_setRip {w : Word} (h : Switched changed (s.setReg .rip w) ps pl v t) (hc : .rip ∈ changed) :
    Switched changed s ps pl v t where
  mem := by rw [h.mem, savedMemory_setRip]
  base r hr := by rw [h.base r hr, savedMemory_setRip]; rfl
  frame := { h.frame with
    regs := fun r hr => by
      rw [h.frame.regs r hr]
      exact s.reg_setReg_other w (by rintro rfl; exact hr (List.mem_append_left _ hc)) }
  cache := h.cache

end

/-- A write of a register that the switch does not read leaves the Task Structures where they are. -/
theorem taskPlaces_setReg {s : State} {ps pl : Nat} {r : Reg} (v : Word) (hr : r ∉ [Reg.rst, .rct, .rbt, .rpa])
    (hp : taskPlaces s (s.reg .rct) (s.reg .rbt) ps pl) :
    taskPlaces (s.setReg r v) ((s.setReg r v).reg .rct) ((s.setReg r v).reg .rbt) ps pl := by
  have hreg : ∀ q ∈ [Reg.rst, .rct, .rbt, .rpa], (s.setReg r v).reg q = s.reg q := fun q hq =>
    s.reg_setReg_other v (by rintro rfl; exact hr hq)
  have hcache : (s.setReg r v).hidden.cache = s.hidden.cache := by
    rw [State.setReg_hidden _ _ (by rintro rfl; exact hr (by decide))]
  rw [hreg .rct (by decide), hreg .rbt (by decide)]
  exact taskPlaces_congr (s := s) rfl rfl (hreg .rst (by decide)) (hreg .rpa (by decide)) hcache hp

/-- The switch of an INTR, whose RIP is `w` by then: `enterBase_placed` in terms of the state before it. -/
theorem switchToBase_setRip_placed {s : State} {ps pl : Nat} (hM : s.params.wf = true) (ht : s.tasksOn = true)
    (hp : taskPlaces s (s.reg .rct) (s.reg .rbt) ps pl) (hh : slotsHeld s pl baseControl) (v w : Word) :
    ∃ t, Switched [.rip] s ps pl v t ∧ switchToBase v (s.setReg .rip w) =
      if baseLevel1 s ps pl v then raiseFault .machineCheck (t.recordFault ⟨.machineCheck, none⟩) else .ok () t := by
  have ht' : (s.setReg .rip w).tasksOn = true := ht
  obtain ⟨t, hsw, he⟩ := enterBase_placed (s := s.setReg .rip w) hM (taskPlaces_setReg w (by decide) hp) hh v
  refine ⟨t, (hsw.mono (List.nil_subset _)).of_setRip List.mem_cons_self, ?_⟩
  rw [switchToBase, if_pos ht', he]
  simp only [baseLevel1, savedMemory_setRip, State.setReg_params]

/-! ### INTR of a user-defined interrupt (rules R251, R311) -/

/-- INTR: a validation that grants the request goes on with the sequence. -/
theorem exec_intr_granted {s : State} {id : Byte} (h : intrFault s id = none) :
    exec (.intr id) s = finish (intrSequence id (nextAddress s (.intr id)) s) := by
  change finish ((nextPc 0 s).bind _) = _
  rw [nextPc_zero_bind s (.intr id) rfl, h]

section
variable {s : State} {id : Byte}

/-- The validation grants a configured entry to level 0, and to level 1 where its flag says so. -/
theorem intrFault_user {e : VectorEntry} (h32 : 32 ≤ id.toNat) (h127 : id.toNat ≤ 127)
    (hv : s.vector[id.toNat - 1]? = some e) (hne : e ≠ ⟨0, 0⟩) (hl : s.level1 = true → e.flags.getLsbD 0 = true) :
    intrFault s id = none := by
  have he := vectorEntry_eq (by omega) hv
  unfold intrFault
  rw [if_neg (by omega), if_neg (by omega), he, if_neg (by simpa using hl),
    if_neg (fun hd => hne ((disabled_iff e).mp hd))]

theorem isImplInt_user (p : Params) (kind : ImplKind) (h32 : 32 ≤ id.toNat) : isImplInt p kind id = false := by
  have : ¬id.toNat ≤ 31 := by omega
  simp [isImplInt, this]

/-- A user-defined interrupt has no step 1 of its own. -/
theorem intrPrepare_user (s : State) (h32 : 32 ≤ id.toNat) : intrPrepare id s = .ok () s := by
  unfold intrPrepare
  split <;> try omega
  rw [isImplInt_user _ _ h32, if_neg (by decide)]

/-- A user-defined interrupt has no internal routine. -/
theorem intrRoutine_user (s : State) (h32 : 32 ≤ id.toNat) : intrRoutine id s = s := by
  unfold intrRoutine
  split <;> try omega
  rw [isImplInt_user _ _ h32, if_neg (by decide)]

/-- A user-defined interrupt goes on at its configured handler (rule R314). -/
theorem intrHandler_user {e : VectorEntry} (h32 : 32 ≤ id.toNat) (hv : s.vector[id.toNat - 1]? = some e)
    (hne : e ≠ ⟨0, 0⟩) : intrHandler id s = s.setReg .rip e.handler := by
  have htrap : isTrappable s.params id = true := by simp [isTrappable, h32]
  rw [intrHandler, if_pos htrap, enterHandler_eq (by omega) hv, if_neg hne]

theorem exec_intr_user {e : VectorEntry} (h32 : 32 ≤ id.toNat) (h127 : id.toNat ≤ 127)
    (hv : s.vector[id.toNat - 1]? = some e) (hne : e ≠ ⟨0, 0⟩) (hl : s.level1 = true → e.flags.getLsbD 0 = true) :
    exec (.intr id) s = finish ((switchToBase (nextAddress s (.intr id)) (s.setReg .rip (nextAddress s (.intr id)))).bind
      fun _ s2 => .ok () (intrHandler id s2)) := by
  rw [exec_intr_granted (intrFault_user h32 h127 hv hne hl), intrSequence, intrPrepare_user s h32]
  simp only [Res.bind_ok, intrRoutine_user _ h32]

end

/-- Settles O40: the sequence of a user-defined interrupt is the context switch and the entry of its handler. -/
theorem systemCallSwitchesTask : Obligations.SystemCallSwitchesTask := by
  intro s id e ps pl hM h32 h127 hv hne hl ht hf hp hh
  obtain ⟨t, hsw, hswitch⟩ := switchToBase_setRip_placed hM ht hp hh (nextAddress s (.intr id)) (nextAddress s (.intr id))
  have hexec := exec_intr_user h32 h127 hv hne hl
  refine ⟨fun hb => ⟨t.setReg .rip e.handler, ?_, ?_, hsw.setRip List.mem_cons_self _⟩,
    fun hb => ⟨switchHalted ⟨.machineCheck, none⟩ t, ?_, ?_⟩⟩
  · rw [hexec, hswitch, if_neg hb, Res.bind_ok, intrHandler_user h32 (hsw.frame.vector ▸ hv) hne]
    rfl
  · rw [State.reg_setReg_same, hsw.frame.params, toWord_of_lt _ _ ((fits_iff _ _).mp hf)]
  · rw [hexec, hswitch, if_pos hb]
    exact finish_machineCheck _ _
  · exact machineChecked_switchHalted _ _

/-! ### Fault entry (rules R301, R341) -/

section
variable {tr : Trap} {s t : State}

/-- Fault entry that switches context: the switch starts from the state with the fault recorded. -/
theorem faultEntry_switch_ok (hf : tr.fault ≠ .machineCheck) (hon : s.faultsOn = true) (ht : s.tasksOn = true)
    (hx : enterBase (s.reg .rip) (s.recordFault tr) = .ok () t) :
    faultEntry tr s = .next (t.setReg .rip (t.reg .rfa)) := by
  have hon' : (s.recordFault tr).faultsOn = true := hon
  have ht' : (s.recordFault tr).tasksOn = true := ht
  have hx' : enterBase ((s.recordFault tr).reg .rip) (s.recordFault tr) = .ok () t := hx
  simp only [faultEntry, if_neg hf, hon', switchToBase, ht', if_true, hx']

theorem faultEntry_switch_raise {tx : Trap} (hf : tr.fault ≠ .machineCheck) (hon : s.faultsOn = true)
    (ht : s.tasksOn = true)
    (hx : enterBase (s.reg .rip) (s.recordFault tr) = raiseFault .machineCheck (t.recordFault tx)) :
    faultEntry tr s = .next (switchHalted tx t) := by
  have hon' : (s.recordFault tr).faultsOn = true := hon
  have ht' : (s.recordFault tr).tasksOn = true := ht
  have hx' : enterBase ((s.recordFault tr).reg .rip) (s.recordFault tr) =
      raiseFault .machineCheck (t.recordFault tx) := hx
  simp only [faultEntry, if_neg hf, hon', switchToBase, ht', if_true, hx', raiseFault, switchHalted]

end

/-- Settles O53: fault entry is the context switch from the state with the fault recorded, then the RFA it loaded. -/
theorem faultEntrySwitchesTask : Obligations.FaultEntrySwitchesTask := by
  intro tr s ps pl hf hM hon ht hp hh u
  have hp' : taskPlaces u (u.reg .rct) (u.reg .rbt) ps pl := taskPlaces_setReg _ (by decide) hp
  obtain ⟨t, hsw, henter⟩ := enterBase_placed (s := u) hM hp' hh (s.reg .rip)
  refine ⟨fun hb => ⟨t.setReg .rip (t.reg .rfa), ?_, ?_, (hsw.mono (List.nil_subset _)).setRip List.mem_cons_self _⟩,
    fun hb => ⟨switchHalted ⟨.machineCheck, none⟩ t, ?_, ?_, ?_⟩⟩
  · exact faultEntry_switch_ok hf hon ht (henter.trans (if_neg hb))
  · have hfit : fits t.params (t.reg .rfa) = true := by
      rw [hsw.base .rfa (by decide), hsw.frame.params]
      exact slotValue_fits _ _ _ _
    rw [State.reg_setReg_same, State.reg_setReg_other _ _ (by decide), toWord_of_lt _ _ ((fits_iff _ _).mp hfit)]
  · exact faultEntry_switch_raise hf hon ht (henter.trans (if_pos hb))
  · exact machineChecked_switchHalted _ _
  · have hbit : (t.reg .rff).getLsbD (faultBit tr.fault) = true := by
      rw [hsw.frame.regs .rff (by decide)]
      exact s.recordFault_bit tr
    exact switchHalted_keeps_faultBit _ hbit

/-! ### LTSK (rules R260, R343) -/

section
variable {s : State}

theorem exec_ltsk (s : State) : exec .ltsk s = finish (if s.level1 then raiseFault .privilege s
    else if s.tasksOn then loadTask (nextAddress s .ltsk) s else .ok () (s.setReg .rip (nextAddress s .ltsk))) :=
  congrArg finish (nextPc_zero_bind s .ltsk rfl _)

theorem nextAddress_toNat (s : State) {i : Instr} (h : i.extWords = 0) :
    (nextAddress s i).toNat = ((s.reg .rip).toNat + 4) % 2 ^ s.params.xlen := by
  rw [nextAddress, toWord_toNat, Instr.length, h, Nat.zero_mul]

/-- A context load changes the registers it writes, after accesses that changed the bytes at `stored`. -/
theorem frame_setRegs_at {m : Memory} {stored : List Nat} (h : Hidden) (vs : List (Reg × Word))
    (hm : ∀ a, a ∉ stored → m.read? a = s.mem.read? a) :
    Frame (vs.map Prod.fst) stored s (setRegs (s.at m h) vs) where
  regs _ hr := setRegs_reg_other hr
  mem a ha := by rw [setRegs_mem]; exact hm a ha
  params := setRegs_params _ _
  vector := setRegs_vector _ _
  timers := setRegs_timers _ _
  pending := setRegs_pending _ _
  halted := setRegs_halted _ _
  world := setRegs_world _ _

/-- LTSK's save and full load, where both structures are in place. -/
theorem loadTask_placed {ps pl : Nat} (hM : s.params.wf = true) (hp : taskPlaces s (s.reg .rbt) (s.reg .rct) ps pl)
    (hh : slotsHeld s pl allRegs) (v : Word) :
    ∃ t, loadTask v s = .ok () t ∧ t.mem = savedMemory s ps v ∧
      (∀ r, t.reg r = slotValue s.params (savedMemory s ps v) pl r) ∧
      Frame allRegs (List.range' ps (28 * s.params.wb)) s t ∧ t.hidden.cache = [] := by
  obtain ⟨h1, h2, hsave, hload⟩ := saveThenLoad_placed hM hp v allRegs_filter_allRegs hh
  refine ⟨setRegs (s.at (savedMemory s ps v) h2) (loadedRegs s.params (savedMemory s ps v) pl allRegs),
    ?_, setRegs_mem _ _, fun r => setRegs_loadedRegs_reg _ _ _ _ (by decide) (mem_allRegs r), ?_,
    setRegs_rpa_cache (by rw [loadedRegs_fst]; decide)⟩
  · rw [loadTask, hsave, Res.bind_ok]
    exact congrArg contextFault hload
  · have hframe := frame_setRegs_at (s := s) h2 (loadedRegs s.params (savedMemory s ps v) pl allRegs)
      fun a ha => Memory.read?_writeAll_other s.mem (List.range' ps (28 * s.params.wb)) (savedBytes s v) ha
    rwa [loadedRegs_fst] at hframe

end

/-- Settles O51: the three branches of LTSK. -/
theorem ltskLoadsTask : Obligations.LtskLoadsTask := by
  refine fun s => ⟨fun hl => ?_, fun hl ht => ?_, fun ps pl hM hl ht hp hh => ?_⟩
  · rw [exec_ltsk, if_pos hl]
    rfl
  · refine ⟨s.setReg .rip (nextAddress s .ltsk), ?_, ?_, ?_, State.setReg_hidden _ _ (by decide)⟩
    · simp [exec_ltsk, hl, ht, finish]
    · rw [State.reg_setReg_same, toWord_nextAddress]
      exact nextAddress_toNat s rfl
    · exact frame_setRip (SameButHidden.same s) _ s.mem [] fun _ _ => rfl
  · obtain ⟨t, hload, hmem, hregs, hframe, hcache⟩ := loadTask_placed hM hp hh (nextAddress s .ltsk)
    refine ⟨t, ?_, hmem, hregs, hframe, hcache⟩
    simp [exec_ltsk, hl, ht, hload, finish]

end Sys2Proof.Machine

/-! SUPPORT. A context switch that an access of it stops (rule R344): what the raise leaves, the Machine Check it ends
in, and, with paging off, the accesses that fail. -/

namespace Sys2Proof.Machine

/-! ### What a switch that fails leaves -/

/-- Everything but memory and `hidden` is as in `s`. -/
def SameButMemory (s t : State) : Prop := t = { s with mem := t.mem, hidden := t.hidden }

theorem keepsAccess_sameButMemory (s : State) : KeepsAccess (SameButMemory s) where
  hidden t h ht _ := by unfold SameButMemory at ht ⊢; rw [ht]
  mem t addrs bs ht _ := by unfold SameButMemory at ht ⊢; rw [ht]

theorem loadContext_raise {base : Word} {keep : List Reg} {s u : State} {tr : Trap} :
    loadContext base keep s = .raise tr u ↔ loadSlots base keep allRegs s = .raise tr u := by
  unfold loadContext
  cases loadSlots base keep allRegs s <;> simp

section
variable {s u : State} {saved loaded v : Word} {keep : List Reg} {tr : Trap}

/-- No register is written before the failing access: a partial save is all there is. -/
theorem switchFails_sameButMemory (h : switchFails s saved loaded v keep tr u) : SameButMemory s u := by
  have k := keepsAccess_sameButMemory s
  have hsave := saveContext_all k saved v (s := s) rfl
  rcases h with h | ⟨s1, h1, h2⟩
  · exact hsave.of_raise h
  · exact (loadSlots_all k.toKeepsLookup loaded keep allRegs (hsave.of_ok h1)).of_raise (loadContext_raise.mp h2)

theorem enterBase_fails (h : switchFails s (s.reg .rct) (s.reg .rbt) v baseControl tr u) :
    enterBase v s = raiseFault .machineCheck (u.recordFault tr) := by
  rcases h with h | ⟨s1, h1, h2⟩
  · rw [enterBase, h]
    rfl
  · rw [enterBase, h1, Res.bind_ok, show baseRegs = baseControl from rfl, h2]
    rfl

theorem loadTask_fails (h : switchFails s (s.reg .rbt) (s.reg .rct) v allRegs tr u) :
    loadTask v s = raiseFault .machineCheck (u.recordFault tr) := by
  rcases h with h | ⟨s1, h1, h2⟩
  · rw [loadTask, h]
    rfl
  · rw [loadTask, h1, Res.bind_ok, h2]
    rfl

theorem switchHalts_of_fails (h : switchFails s saved loaded v keep tr u) : SwitchHalts tr s u (switchHalted tr u) where
  checked := machineChecked_switchHalted tr u
  bit := switchHalted_bit tr u
  partialSave := switchFails_sameButMemory h
  frame := ⟨fun _ hr => switchHalted_reg tr u (List.ne_of_not_mem_cons hr), fun _ _ => rfl, rfl, rfl, rfl, rfl, rfl, rfl⟩

end

/-! ### The four places of a switch -/

section
variable {s u : State} {tx : Trap}

theorem faultEntry_switch_fails {tr : Trap} (hf : tr.fault ≠ .machineCheck) (hon : s.faultsOn = true)
    (ht : s.tasksOn = true)
    (h : switchFails (s.recordFault tr) (s.reg .rct) (s.reg .rbt) (s.reg .rip) baseControl tx u) :
    faultEntry tr s = .next (switchHalted tx u) :=
  faultEntry_switch_raise hf hon ht (enterBase_fails (s := s.recordFault tr) h)

theorem intrSequence_fails {s1 : State} {id : Byte} {next : Word} (hp : intrPrepare id s = .ok () s1)
    (ht : s1.tasksOn = true)
    (h : switchFails (s1.setReg .rip next) (s1.reg .rct) (s1.reg .rbt) next baseControl tx u) :
    finish (intrSequence id next s) = .next (switchHalted tx u) := by
  have ht' : (s1.setReg .rip next).tasksOn = true := ht
  rw [intrSequence, hp, Res.bind_ok, switchToBase, if_pos ht', enterBase_fails (s := s1.setReg .rip next) h]
  rfl

/-- A step that finds a request to deliver is the delivery (rule R384). -/
theorem step_deliver {r : Request} {h : Hidden} (hh : s.halted = false)
    (hb : (currentTick s).events.contains .badHardware = false) (hon : (arrivals s).interruptsOn = true)
    (hc : choosePending (arrivals s).params (arrivals s).pending (arrivals s).hidden = some (r, h)) :
    step s = deliver r { arrivals s with pending := (arrivals s).pending.erase r, hidden := h } := by
  rw [step, cycle, hh, hb, if_neg (by decide), if_neg (by decide), runBoundary, hon, if_pos rfl, hc]

/-- No fault takes the place of a delivery where neither the keyboard nor a declared routine fails. -/
theorem deliveryFault_eq_none {id : Byte} (hk : id = 0x09 → s.world.deviceFails = false)
    (hd : declared s .hardware id → s.world.routine.fault = none) : deliveryFault id s = none := by
  unfold deliveryFault
  split
  · next h9 => simp [hk h9]
  · split
    · next hi => exact hd (isImplInt_iff.mp hi)
    · rfl

theorem deliver_fails {r : Request} (hn : deliveryFault r.id s = none) (ht : s.tasksOn = true)
    (h : switchFails s (s.reg .rct) (s.reg .rbt) (s.reg .rip) baseControl tx u) :
    deliver r s = .next (switchHalted tx u) := by
  rw [deliver, hn, switchToBase, if_pos ht, enterBase_fails h]
  rfl

theorem exec_ltsk_fails (hl : s.level1 = false) (ht : s.tasksOn = true)
    (h : switchFails s (s.reg .rbt) (s.reg .rct) (nextAddress s .ltsk) allRegs tx u) :
    exec .ltsk s = .next (switchHalted tx u) := by
  rw [exec_ltsk, hl, if_neg (by decide), if_pos ht, loadTask_fails h]
  rfl

end

/-! ### Which accesses fail, with paging off -/

theorem inMemory_iff {p : Params} {a n : Nat} :
    inMemory p a n = true ↔ p.reservedEnd ≤ a ∧ a + n ≤ p.memSize := by
  simp [inMemory]

/-- An aligned access outside memory or in the reserved region (rule R87). -/
theorem resolve_pagingOff_outside {s : State} {a n align : Nat} (acc : Access) (hp : s.pagingOn = false)
    (ha : a % align = 0) (hin : inMemory s.params a n = false) :
    resolve a n align acc s = .raise ⟨.badMemoryReference, none⟩ s := by
  simp [resolve, ha, resolveRange, hp, hin, raiseFault]

section
variable {s : State} {base : Word}

theorem slotAddress_zero (hf : fits s.params base = true) : slotAddress s.params base 0 = base := by
  rw [slotAddress, Nat.zero_mul, Nat.add_zero, toWord_of_lt _ _ ((fits_iff _ _).mp hf)]

/-- The save begins with the slot of RIP. -/
theorem saveContext_first_outside (v : Word) (hp : s.pagingOn = false) (hf : fits s.params base = true)
    (ha : base.toNat % s.params.wb = 0) (hin : inMemory s.params base.toNat s.params.wb = false) :
    saveContext base v s = .raise ⟨.badMemoryReference, none⟩ s := by
  have hstore : storeWord (slotAddress s.params base 0) v .write s = .raise ⟨.badMemoryReference, none⟩ s := by
    rw [slotAddress_zero hf]
    exact storeWord_raise (resolve_pagingOff_outside .write hp ha hin)
  change (storeWord (slotAddress s.params base 0) v .write s).bind _ = _
  rw [hstore, Res.bind_raise]

/-- With paging off, a save whose structure is in memory goes on and leaves all but memory as it was. -/
theorem saveContext_flat (v : Word) (hM : s.params.wf = true) (hp : s.pagingOn = false)
    (h : taskAt s.params base.toNat) :
    saveContext base v s = .ok () { s with mem := savedMemory s base.toNat v } := by
  have htop : base.toNat + 28 * s.params.wb ≤ 2 ^ s.params.xlen := by
    have h1 := h.2
    simp only [Params.wf, Bool.and_eq_true, decide_eq_true_eq] at hM
    rw [inMemory_iff] at h1
    omega
  obtain ⟨h', rfl, hsave⟩ := saveContext_placed (G := fun _ h => h = s.hidden) (slotsAt_flat hp _ .write h)
    (fun _ _ _ _ hG _ => hG) htop rfl v
  exact hsave

/-- An access to a slot in memory whose bytes hold values goes on. -/
theorem accessSlot_inMemory {a : Word} (keep : Bool) (hp : s.pagingOn = false) (ha : a.toNat % s.params.wb = 0)
    (hin : inMemory s.params a.toNat s.params.wb = true)
    (hh : ∀ x ∈ List.range' a.toNat s.params.wb, s.mem.read? x ≠ none) : ∃ w, accessSlot a keep s = .ok w s := by
  have hr := resolve_pagingOff (acc := .read) hp ha hin
  cases keep with
  | false => exact ⟨0, by rw [accessSlot, if_neg (by decide), hr]; rfl⟩
  | true =>
    have hb : (List.range' a.toNat s.params.wb).map s.mem.read? =
        ((List.range' a.toNat s.params.wb).map fun x => (s.mem.read? x).getD 0).map some := by
      rw [List.map_map]
      refine List.map_congr_left fun x hx => ?_
      obtain ⟨b, hb⟩ := Option.ne_none_iff_exists'.mp (hh x hx)
      simp [hb]
    exact ⟨_, (loadWord_eq hb hr).1⟩

theorem accessSlot_outside {a : Word} (keep : Bool) (hp : s.pagingOn = false) (ha : a.toNat % s.params.wb = 0)
    (hin : inMemory s.params a.toNat s.params.wb = false) :
    accessSlot a keep s = .raise ⟨.badMemoryReference, none⟩ s := by
  have hr := resolve_pagingOff_outside .read hp ha hin
  cases keep with
  | false => rw [accessSlot, if_neg (by decide), hr, Res.bind_raise]
  | true => exact loadWord_raise hr

/-- The register's slot in the Task Structure at `base` is in memory and clear of the reserved region. -/
abbrev slotInMemory (s : State) (base : Word) (r : Reg) : Prop :=
  inMemory s.params (base.toNat + regIndex r * s.params.wb) s.params.wb = true

/-- A load fails at its first slot outside memory; the slots before it only have to hold values. -/
theorem loadSlots_outside (keep : List Reg) {rs : List Reg} (hp : s.pagingOn = false)
    (ha : base.toNat % s.params.wb = 0) (htop : base.toNat + 28 * s.params.wb ≤ 2 ^ s.params.xlen)
    (hh : ∀ r ∈ rs, slotInMemory s base r →
      ∀ x ∈ List.range' (base.toNat + regIndex r * s.params.wb) s.params.wb, s.mem.read? x ≠ none)
    (hout : ∃ r ∈ rs, ¬slotInMemory s base r) :
    loadSlots base keep rs s = .raise ⟨.badMemoryReference, none⟩ s := by
  induction rs with
  | nil => obtain ⟨r, hr, -⟩ := hout; cases hr
  | cons r rs ih =>
    have hslot := slotAddress_toNat (regIndex_lt r) htop
    have hal : (slotAddress s.params base (regIndex r)).toNat % s.params.wb = 0 := by
      rw [hslot, Nat.add_mul_mod_self_right, ha]
    rw [loadSlots]
    by_cases hin : slotInMemory s base r
    · obtain ⟨w, hw⟩ := accessSlot_inMemory (keep.contains r) hp hal (hslot ▸ hin)
        (hslot ▸ hh r List.mem_cons_self hin)
      have hout' : ∃ q ∈ rs, ¬slotInMemory s base q := by
        obtain ⟨q, hq, hq2⟩ := hout
        rcases List.mem_cons.mp hq with rfl | hq
        · exact absurd hin hq2
        · exact ⟨q, hq, hq2⟩
      rw [hw, Res.bind_ok, ih (fun q hq => hh q (List.mem_cons_of_mem _ hq)) hout', Res.bind_raise]
    · rw [accessSlot_outside _ hp hal (hslot ▸ Bool.eq_false_of_not_eq_true hin), Res.bind_raise]

/-- A structure that is not all in memory has its first slot below it or its last above it. -/
theorem exists_slot_outside (h : inMemory s.params base.toNat (28 * s.params.wb) = false) :
    ∃ r ∈ allRegs, ¬slotInMemory s base r := by
  by_contra hall
  have hin : ∀ r, slotInMemory s base r := fun r => by
    by_contra hr
    exact hall ⟨r, mem_allRegs r, hr⟩
  have hfirst := inMemory_iff.mp (hin .rip)
  have hlast := inMemory_iff.mp (hin .rfp4)
  rw [show regIndex .rip = 0 from rfl] at hfirst
  rw [show regIndex .rfp4 = 27 from rfl] at hlast
  have hwhole : ¬inMemory s.params base.toNat (28 * s.params.wb) = true := by simp [h]
  rw [inMemory_iff] at hwhole
  omega

end

/-- Settles O54: the four places end in `switchHalted`, and the first slot of the save, or a slot of the load, raises
the access's fault. -/
theorem contextSwitchFaultHalts : Obligations.ContextSwitchFaultHalts := by
  refine ⟨fun tr tx s u hf hon ht h => ?_, fun id tx s s1 u hi hp ht h => ?_,
    fun r hd tx s u hh hb hon hc ht hk hdecl h => ?_, fun tx s u hl ht h => ?_,
    fun s saved loaded v keep hp hf ha hin => .inl (saveContext_first_outside v hp hf ha hin),
    fun s saved loaded v keep hM hp hs ha htop hin hh => .inr ⟨_, saveContext_flat v hM hp hs, ?_⟩⟩
  · refine ⟨switchHalted tx u, faultEntry_switch_fails hf hon ht h, switchHalts_of_fails h,
      switchHalted_keeps_faultBit tx ?_⟩
    rw [switchFails_sameButMemory h]
    exact s.recordFault_bit tr
  · exact ⟨switchHalted tx u, (exec_intr_granted hi).trans (intrSequence_fails hp ht h), switchHalts_of_fails h⟩
  · exact ⟨switchHalted tx u, (step_deliver hh hb hon hc).trans
      (deliver_fails (deliveryFault_eq_none hk hdecl) ht h), switchHalts_of_fails h⟩
  · exact ⟨switchHalted tx u, exec_ltsk_fails hl ht h, switchHalts_of_fails h⟩
  · refine loadContext_raise.mpr (loadSlots_outside keep hp ha htop (fun r _ hr x hx => ?_) (exists_slot_outside hin))
    refine Memory.read?_writeAll_ne_none (hh x ?_ (reachable_of_inMemory hr hx)) _ _
    have hle := slot_le s.params (regIndex_lt r)
    simp only [List.mem_range'_1] at hx ⊢
    omega

end Sys2Proof.Machine

/-! SUPPORT. The bytes no step changes: the reserved region and what lies outside system memory (rule R88). -/

namespace Sys2Proof.Machine

/-- A byte software cannot reach is in the reserved region or outside system memory (rules R80, R88). -/
theorem reachable_eq_false_iff (p : Params) (a : Nat) :
    reachable p a = false ↔ a < p.reservedEnd ∨ p.memSize ≤ a := by
  rw [← Bool.not_eq_true, reachable_iff, not_and_or, not_le, not_lt]

/-- The parameters, and the bytes that software cannot reach, are as in `s`. -/
structure SameReserved (s t : State) : Prop where
  params : t.params = s.params
  mem : ∀ a, reachable s.params a = false → t.mem.read? a = s.mem.read? a

section
variable {s t : State}

theorem SameReserved.setReg (h : SameReserved s t) (r : Reg) (v : Word) : SameReserved s (t.setReg r v) := { h with }

theorem SameReserved.setRegs (h : SameReserved s t) (vs : List (Reg × Word)) : SameReserved s (setRegs t vs) where
  params := (setRegs_params t vs).trans h.params
  mem a ha := by rw [setRegs_mem]; exact h.mem a ha

/-- A store at reachable addresses writes none of the other bytes. -/
theorem SameReserved.withMem (h : SameReserved s t) {addrs : List Nat} (bs : List Byte)
    (hr : ∀ a ∈ addrs, reachable t.params a = true) : SameReserved s { t with mem := t.mem.writeAll addrs bs } where
  params := h.params
  mem a ha := by
    have hout : a ∉ addrs := fun hm => by
      have := hr a hm
      rw [h.params, ha] at this
      cases this
    exact (Memory.read?_writeAll_other _ _ _ hout).trans (h.mem a ha)

end

/-- Of the effects of a step only stores touch memory, and those are at reachable addresses. -/
theorem keepsStep_sameReserved (s : State) : KeepsStep (SameReserved s) where
  exec _ :=
    { hidden := fun _ _ h _ => { h with }
      mem := fun _ _ bs h hr => h.withMem bs hr
      rip := fun _ v h => h.setReg .rip v
      record := fun u t h => h.setReg .rff (rffWith (u.reg .rff) t)
      halt := fun _ h => { h with }
      base := fun _ vs h _ _ => h.setRegs vs
      checked := fun _ r v h _ => h.setReg r v
      unchecked := fun _ r v h _ => h.setReg r v
      full := fun _ vs h _ _ _ _ => h.setRegs vs
      vector := fun _ _ h _ _ => { h with }
      timer := fun _ _ _ h _ => { h with }
      display := fun _ _ h _ => { h with }
      storage := fun _ _ h _ => { h with } }
  pending _ _ h _ := { h with }
  expiry _ _ h := { h with }
  tick _ _ _ _ h := { h with }

/-- Settles O11: the bytes that software cannot reach survive each effect a step may have. -/
theorem reservedRegionKept : Obligations.ReservedRegionKept := fun s _ he =>
  have h := step_keeps (keepsStep_sameReserved s) ⟨rfl, fun _ _ => rfl⟩ he
  ⟨h.params, fun a ha => h.mem a ((reachable_eq_false_iff _ _).mpr ha)⟩

end Sys2Proof.Machine

/-! SUPPORT. The step that runs an instruction (rule R384): the fetch, and with paging off the fetch of bytes that decode
(rules R92, R142). -/

namespace Sys2Proof

/-! ### Values taken off the front of a list of bytes -/

theorem takeValue_eq_some {n v : Nat} {bs rest : List Byte} (h : takeValue n bs = some (v, rest)) :
    ∃ as, as.length = n ∧ bs = as ++ rest ∧ v = beValue as := by
  unfold takeValue at h
  split at h
  · cases h
  · next hlen =>
    injection h with h
    injection h with hv hrest
    exact ⟨bs.take n, List.length_take_of_le (Nat.not_lt.mp hlen), hrest ▸ (List.take_append_drop n bs).symm, hv.symm⟩

theorem takeExt_succ_eq_some {e k : Nat} {bs rest : List Byte} {ws : List Word}
    (h : takeExt e (k + 1) bs = some (ws, rest)) :
    ∃ as mid vs, as.length = e ∧ bs = as ++ mid ∧ ws = BitVec.ofNat 64 (beValue as) :: vs ∧
      takeExt e k mid = some (vs, rest) := by
  simp only [takeExt] at h
  split at h
  · cases h
  · next v mid hv =>
    obtain ⟨as, hlen, hbs, rfl⟩ := takeValue_eq_some hv
    split at h
    · cases h
    · next vs rest' hvs =>
      injection h with h
      injection h with hws hrest
      exact ⟨as, mid, vs, hlen, hbs, hws.symm, hrest ▸ hvs⟩

/-- Bytes that decode are an opcode word of a row, and the extension words the row has (rules R140, R142). -/
theorem decode_eq_ok {p : Params} {bs rest : List Byte} {i : Instr} (h : decode p bs = .ok (i, rest)) :
    ∃ as ext j, as.length = 4 ∧ bs = as ++ ext ∧ decodeHead p (BitVec.ofNat 32 (beValue as)) = .ok j ∧
      (j.extWords = 0 ∧ i = j ∨ ∃ k e ws, j.extWords = k + 1 ∧ p.extBytes = some e ∧
        takeExt e (k + 1) ext = some (ws, rest) ∧ i = j.withExt (ws.getD 0 0) (ws.getD 1 0)) := by
  unfold decode at h
  split at h
  · cases h
  next w ext hw =>
  obtain ⟨as, hlen, hbs, rfl⟩ := takeValue_eq_some hw
  split at h
  · cases h
  next j hj =>
  refine ⟨as, ext, j, hlen, hbs, hj, ?_⟩
  split at h
  · next hn =>
    injection h with h
    injection h with hi _
    exact .inl ⟨hn, hi.symm⟩
  next k hn =>
  split at h
  · cases h
  next e he =>
  split at h
  · cases h
  next ws rest' hws =>
  injection h with h
  injection h with hi hrest
  exact .inr ⟨k, e, ws, hn, he, hrest ▸ hws, hi.symm⟩

/-- EXT_BYTES is 4 or 8 (rule R137). -/
theorem extBytes_pos_aligned {p : Params} {e : Nat} (h : p.extBytes = some e) : 0 < e ∧ e % 4 = 0 := by
  unfold Params.extBytes at h
  split at h
  · injection h with h; subst h; decide
  · split at h
    · injection h with h; subst h; decide
    · injection h with h; subst h; decide
    · cases h

namespace Machine

/-! ### Bytes at a physical address -/

section
variable {s : State} {a : Nat}

/-- Bytes one after the other. -/
theorem holds_append {bs cs : List Byte} (h : holds s a (bs ++ cs)) :
    holds s a bs ∧ holds s (a + bs.length) cs := by
  obtain ⟨hin, hbytes⟩ := h
  rw [List.length_append] at hin hbytes
  rw [inMemory_iff] at hin
  rw [← List.range'_append_1, List.map_append, List.map_append] at hbytes
  obtain ⟨hbs, hcs⟩ := List.append_inj hbytes (by simp)
  exact ⟨⟨inMemory_iff.mpr (by omega), hbs⟩, ⟨inMemory_iff.mpr (by omega), hcs⟩⟩

/-- With paging off a fetch reads the bytes at its own address (rules R84, R92). -/
theorem fetchValue_flat {bs : List Byte} (hp : s.pagingOn = false) (ha : a % 4 = 0) (h : holds s a bs) :
    fetchValue a bs.length s = .ok (beValue bs) s :=
  memRead_ok.mpr ⟨_, bs, resolve_pagingOff hp ha h.1, h.2, rfl⟩

/-- With paging off the extension words are those the bytes decode to (rules R92, R136). -/
theorem fetchExt_flat {e k : Nat} {bs rest : List Byte} {ws : List Word} (hM : s.params.wf = true)
    (hp : s.pagingOn = false) (he : 0 < e ∧ e % 4 = 0) (ha : a % 4 = 0) (h : holds s a bs)
    (hk : takeExt e k bs = some (ws, rest)) : fetchExt e k a s = .ok ws s := by
  induction k generalizing a bs ws with
  | zero =>
    injection hk with hk
    injection hk with hws _
    rw [← hws, fetchExt]
  | succ k ih =>
    obtain ⟨as, mid, vs, rfl, rfl, rfl, hvs⟩ := takeExt_succ_eq_some hk
    obtain ⟨has, hmid⟩ := holds_append h
    have hlt : a < 2 ^ s.params.xlen := by
      have hin := inMemory_iff.mp has.1
      simp only [Params.wf, Bool.and_eq_true, decide_eq_true_eq] at hM
      omega
    rw [fetchExt, Nat.mod_eq_of_lt hlt, fetchValue_flat hp ha has, Res.bind_ok, ih (by omega) hmid hvs, Res.bind_ok]

/-- With paging off the fetch gives the instruction the bytes at RIP decode to (rule R142). -/
theorem fetchInstr_flat {bs rest : List Byte} {i : Instr} (hM : s.params.wf = true) (hp : s.pagingOn = false)
    (ha : (s.reg .rip).toNat % 4 = 0) (h : holds s (s.reg .rip).toNat bs) (hd : decode s.params bs = .ok (i, rest)) :
    fetchInstr s = .ok i s := by
  obtain ⟨as, ext, j, hlen, rfl, hj, hext⟩ := decode_eq_ok hd
  obtain ⟨has, hrest⟩ := holds_append h
  have hfetch := fetchValue_flat hp ha has
  rw [hlen] at hfetch hrest
  rcases hext with ⟨hn, rfl⟩ | ⟨k, e, ws, hn, he, hws, rfl⟩
  · simp only [fetchInstr, hfetch, Res.bind_ok, hj, hn]
  · have hwords := fetchExt_flat hM hp (extBytes_pos_aligned he) (by omega) hrest hws
    simp only [fetchInstr, hfetch, Res.bind_ok, hj, hn, he, hwords]

end

/-! ### The step (rule R384) -/

theorem step_of_runsNext {s : State} (h : runsNext s) : step s = runInstr (arrivals s) := by
  obtain ⟨hh, hb, hnone⟩ := h
  rw [step, cycle, hh, hb, if_neg Bool.false_ne_true, if_neg Bool.false_ne_true, runBoundary]
  rcases hnone with hoff | hempty
  · rw [hoff, if_neg Bool.false_ne_true]
  · rw [hempty]
    split <;> rfl

/-- The events of the outside world leave the parameters. -/
theorem arrivals_params (s : State) : (arrivals s).params = s.params :=
  (arrivals_keeps (keepsStep_sameReserved s) ⟨rfl, fun _ _ => rfl⟩).params

/-- Settles O7: the three clauses are the outcomes of the fetch in `runInstr`, the third by `fetchInstr_flat`. -/
theorem stepRunsDecoded : Obligations.StepRunsDecoded := by
  refine ⟨fun s s1 i hr hf => ?_, fun s s1 tr hr hf => ⟨?_, ?_⟩, fun s bs i hM hr hp ha hh hd => ?_⟩
  · rw [step_of_runsNext hr, runInstr, hf]
  · rw [step_of_runsNext hr, runInstr, hf]
  · exact (fetchInstr_all (keepsLookup_sameButHidden _) (SameButHidden.same _)).of_raise hf
  · rw [← arrivals_params s] at hM hd
    rw [step_of_runsNext hr, runInstr, fetchInstr_flat hM hp ha hh hd]

end Machine

end Sys2Proof

/-! SUPPORT. Memory accesses: with paging off, through the page list whole or broken, byte by byte, and what a lookup may
give whatever the page cache holds. -/

namespace Sys2Proof.Machine

/-! ### Physical accesses (rules R84, R87) -/

theorem resolve_aligned {a align : Nat} (n : Nat) (acc : Access) (s : State) (ha : a % align = 0) :
    resolve a n align acc s = resolveRange a n acc s := if_pos ha

theorem resolve_misaligned_refuse {a align : Nat} (n : Nat) (acc : Access) {s : State} (ha : a % align ≠ 0)
    (hr : s.params.misaligned = .refuse) : resolve a n align acc s = .refuse .misaligned := by
  rw [resolve, if_neg ha, hr]

theorem resolve_misaligned_bytes {a align : Nat} (n : Nat) (acc : Access) {s : State} (ha : a % align ≠ 0)
    (hb : s.params.misaligned = .bytes) : resolve a n align acc s = resolveBytes acc n a s := by
  rw [resolve, if_neg ha, hb]

theorem inMemory_eq_false_iff {p : Params} {a n : Nat} :
    inMemory p a n = false ↔ a < p.reservedEnd ∨ p.memSize < a + n := by
  rw [← Bool.not_eq_true, inMemory_iff, not_and_or, not_le, not_le]

/-- Settles O14: the range check decides an aligned access, the policy a misaligned one. -/
theorem physicalAccess : Obligations.PhysicalAccess := fun _ _ n _ acc hp =>
  ⟨fun ha hlo hhi => resolve_pagingOff hp ha (inMemory_iff.mpr ⟨hlo, hhi⟩),
    fun ha hout => resolve_pagingOff_outside acc hp ha (inMemory_eq_false_iff.mpr hout),
    fun ha hr => resolve_misaligned_refuse n acc ha hr⟩

/-! ### What a lookup may give (rules R95, R100) -/

section
variable {s t : State} {w : Walk}

/-- Each end of `lookupWalked` names the end of the walk it came from. -/
theorem lookupWalked_ok {c : PageCopy} (h : lookupWalked s w = .ok c t) : w = .found c := by
  cases w with
  | found d => injection h with h; rw [h]
  | fault f => cases h
  | refused r => cases h
  | stopped f => cases h

theorem lookupWalked_raise {tr : Trap} (h : lookupWalked s w = .raise tr t) : ∃ f, w = .fault f ∧ tr = ⟨f, none⟩ := by
  cases w with
  | found d => cases h
  | fault f => injection h with h; exact ⟨f, rfl, h.symm⟩
  | refused r => cases h
  | stopped f => cases h

theorem lookupWalked_refuse {r : Refusal} (h : lookupWalked s w = .refuse r) : w = .refused r := by
  cases w with
  | found d => cases h
  | fault f => cases h
  | refused q => injection h with h; rw [h]
  | stopped f => cases h

theorem lookupWalked_stop {f : Fault} (h : lookupWalked s w = .stop f) : w = .stopped f := by
  cases w with
  | found d => cases h
  | fault g => cases h
  | refused r => cases h
  | stopped g => injection h with h; rw [h]

end

/-- A lookup ends as the walk of the list does, or gives a cached copy that matches. -/
theorem lookupPage_cases (la : Nat) (s : State) :
    (∃ h, lookupPage la s = lookupWalked { s with hidden := h } (walkFromRpa s la)) ∨
      ∃ c h, lookupPage la s = .ok c { s with hidden := h } ∧ c ∈ s.hidden.cache ∧ pageMatches la c = true := by
  simp only [lookupPage]
  split
  · exact .inl ⟨s.hidden, rfl⟩
  · next c cs hcs =>
    have hcached : ∀ d ∈ c :: cs, d ∈ s.hidden.cache ∧ pageMatches la d = true := by
      rw [← hcs]
      intro d hd
      simp only [List.mem_filter, Bool.and_eq_true, covers_eq_pageMatches] at hd
      exact ⟨hd.1, hd.2.1⟩
    split
    · exact .inl ⟨_, rfl⟩
    · next k _ => exact .inr ⟨_, _, rfl, hcached _ (getD_mem c cs k)⟩

/-- Settles O17: a lookup that did not take a cached copy ends as the walk, which names its own end. -/
theorem lookupFromListOrCache : Obligations.LookupFromListOrCache := by
  intro s t la
  have hsame := lookupPage_all (keepsLookup_sameButHidden s) la (SameButHidden.same s)
  rcases lookupPage_cases la s with ⟨h, hw⟩ | ⟨d, h, hd, hmem, hmatch⟩
  · refine ⟨fun c hc => ?_, fun tr hc => ?_, fun r hc => lookupWalked_refuse (hw ▸ hc),
      fun f hc => lookupWalked_stop (hw ▸ hc)⟩
    · have hfound := lookupWalked_ok (hw ▸ hc)
      exact ⟨hsame.of_ok hc, (walkPages_found hfound).2, .inl hfound⟩
    · exact ⟨hsame.of_raise hc, lookupWalked_raise (hw ▸ hc)⟩
  · rw [hd]
    refine ⟨fun c hc => ?_, nofun, nofun, nofun⟩
    injection hc with hc ht
    subst hc ht
    exact ⟨rfl, hmatch, .inr hmem⟩

/-! ### Where no page matches (rules R84, R87, R95) -/

section
variable {p : Params} {m : Memory} {la fuel ptr : Nat} {visited : List Nat}

/-- A pointer not met before to a misaligned Page Structure. -/
theorem walkPages_misaligned (h0 : ptr ≠ 0) (hv : ptr ∉ visited) (hr : p.misaligned = .refuse)
    (ha : ptr % p.wb ≠ 0) : walkPages p m la (fuel + 1) visited ptr = .refused .misaligned := by
  simp [walkPages, h0, hv, hr, ha]

/-- A pointer not met before to a Page Structure outside memory or in the reserved region. -/
theorem walkPages_outside (h0 : ptr ≠ 0) (hv : ptr ∉ visited) (ha : p.misaligned = .refuse → ptr % p.wb = 0)
    (hin : inMemory p ptr p.pageBytes = false) :
    walkPages p m la (fuel + 1) visited ptr = .fault .badMemoryReference := by
  simp +contextual [walkPages, h0, hv, ha, hin]

/-- A pointer not met before to a Page Structure with a byte that holds no value. -/
theorem walkPages_unwritten {a : Nat} (h0 : ptr ≠ 0) (hv : ptr ∉ visited)
    (ha : p.misaligned = .refuse → ptr % p.wb = 0) (hin : inMemory p ptr p.pageBytes = true)
    (hpage : readPage m p.wb ptr = .error a) :
    walkPages p m la (fuel + 1) visited ptr = .stopped (.uninitializedMemory a) := by
  simp +contextual [walkPages, h0, hv, ha, hin, hpage]

end

section
variable {s : State} {la q : Nat} {cs : List PageCopy}

/-- A lookup by the walk alone ends as `NoPage` says where no page on the path matches, whatever would come after it. -/
theorem noPage_lookupWalked (h : pagePath s.params s.mem q (s.reg .rpa).toNat cs)
    (hf : cs.find? (pageMatches la) = none) (k : PageCopy → State → Res (List Nat)) :
    NoPage s cs q ((lookupWalked s (walkFromRpa s la)).bind k) := by
  have hn : ∀ c ∈ cs, pageMatches la c = false := by simpa using hf
  refine ⟨fun h0 => ?_, fun h0 ha hin => ?_, fun h0 hr ha => ?_, fun hq => ?_, fun a h0 ha hin hpage => ?_⟩
  · subst h0
    rw [walkFromRpa_null h hf]
    rfl
  · obtain ⟨f, v, hv, hw⟩ := walkFromRpa_path (la := la) (fun _ _ _ _ hin' => by rw [hin] at hin'; cases hin') h hn
    rw [hw, walkPages_outside h0 hv ha hin]
    rfl
  · obtain ⟨f, v, hv, hw⟩ := walkFromRpa_path (la := la) (fun _ _ _ ha' _ => absurd (ha' hr) ha) h hn
    rw [hw, walkPages_misaligned h0 hv hr ha]
    rfl
  · rw [walkFromRpa, walkPages_loops h hn (pagePointers_ne_zero h q hq) (.inr hq)]
    rfl
  · obtain ⟨f, v, hv, hw⟩ := walkFromRpa_path (la := la) (fun _ hc _ _ _ => by rw [hpage] at hc; cases hc) h hn
    rw [hw, walkPages_unwritten h0 hv ha hin hpage]
    rfl

/-- An access with no stale copy for its address, where no page matches. -/
theorem resolveRange_noPage (n : Nat) (acc : Access) (hp : s.pagingOn = true)
    (h : pagePath s.params s.mem q (s.reg .rpa).toNat cs) (hc : cacheCurrent s.hidden.cache cs la)
    (hf : cs.find? (pageMatches la) = none) : NoPage s cs q (resolveRange la n acc s) := by
  rw [resolveRange, if_pos hp, translate, Res.bind_assoc, lookupPage_current h hc]
  exact noPage_lookupWalked h hf _

/-! ### An access through a page (rules R93 to R100) -/

/-- An access with no stale copy for its address, through the first page that matches. -/
theorem resolveRange_page {c : PageCopy} (n : Nat) (acc : Access) (hp : s.pagingOn = true)
    (h : pagePath s.params s.mem q (s.reg .rpa).toNat cs) (hc : cacheCurrent s.hidden.cache cs la)
    (hf : cs.find? (pageMatches la) = some c) :
    resolveRange la n acc s =
      if mayAccess c acc then
        if c.baseLogical.toNat + c.size.toNat < la + n then .refuse .crossesPageRegion
        else if inMemory s.params (pageAddress s.params c la) n then
          .ok (List.range' (pageAddress s.params c la) n) { s with hidden := cacheAdd s.hidden c }
        else .raise ⟨.badMemoryReference, none⟩ { s with hidden := cacheAdd s.hidden c }
      else .raise ⟨.pagePermission, none⟩ { s with hidden := cacheAdd s.hidden c } := by
  rw [resolveRange, if_pos hp, translate_current n acc h hc hf]
  split
  · split
    · rfl
    · rfl
  · rfl

end

/-- Settles O15: an aligned access is `resolveRange_noPage` or `resolveRange_page`. -/
theorem pagedAccess : Obligations.PagedAccess := by
  refine fun s la n align acc hp => ⟨fun ha hr => resolve_misaligned_refuse n acc ha hr, fun cs q ha h hc => ?_⟩
  rw [resolve_aligned n acc s ha]
  refine ⟨resolveRange_noPage n acc hp h hc, fun c hf => ?_⟩
  rw [resolveRange_page n acc hp h hc hf]
  refine ⟨fun hno => if_neg hno, fun hmay hcross => ?_, fun hmay hfit => ⟨fun hlo hhi => ?_, fun hout => ?_⟩⟩
  · rw [if_pos hmay, if_pos hcross]
  · rw [if_pos hmay, if_neg (Nat.not_lt.mpr hfit), if_pos (inMemory_iff.mpr ⟨hlo, hhi⟩)]
  · rw [if_pos hmay, if_neg (Nat.not_lt.mpr hfit), inMemory_eq_false_iff.mpr hout, if_neg Bool.false_ne_true]

/-! ### An access byte by byte (rule R84, MISALIGNED = bytes) -/

theorem byteAddress_zero {p : Params} {a : Nat} (h : a < 2 ^ p.xlen) : byteAddress p a 0 = a := Nat.mod_eq_of_lt h

/-- The byte after a byte, with the wrap past the top of the address space. -/
theorem byteAddress_succ (p : Params) (a k : Nat) : (byteAddress p a k + 1) % 2 ^ p.xlen = byteAddress p a (k + 1) :=
  Nat.mod_add_mod _ _ _

theorem inMemory_one (p : Params) (a : Nat) : inMemory p a 1 = reachable p a := by
  rw [Bool.eq_iff_iff, inMemory_iff, reachable_iff, Nat.add_one_le_iff]

section
variable {p : Params} {a : Nat} {acc : Access} {σ : Nat → State} {pa : Nat → Nat}

/-- The bytes of an access in order: where the first `m` go on, the byte at place `k` from `σ k` to `σ (k + 1)`, the
rest of the access starts in `σ m`. -/
theorem resolveBytes_first {n m : Nat} (hp : ∀ k, (σ k).params = p) (ha : a < 2 ^ p.xlen) (hm : m ≤ n)
    (hstep : ∀ k, k < m → resolveRange (byteAddress p a k) 1 acc (σ k) = .ok [pa k] (σ (k + 1))) :
    resolveBytes acc n a (σ 0) =
      (resolveBytes acc (n - m) (byteAddress p a m) (σ m)).bind fun rest t => .ok ((List.range m).map pa ++ rest) t := by
  induction m with
  | zero =>
    rw [byteAddress_zero ha]
    show _ = (resolveBytes acc n a (σ 0)).bind fun rest t => .ok rest t
    cases resolveBytes acc n a (σ 0) <;> rfl
  | succ m ih =>
    rw [ih (Nat.le_of_succ_le hm) fun k hk => hstep k (Nat.lt_succ_of_lt hk), show n - m = n - (m + 1) + 1 by omega,
      resolveBytes, hstep m (Nat.lt_succ_self m), Res.bind_ok, hp, byteAddress_succ, Res.bind_assoc]
    simp [List.range_succ]

/-- Every byte goes on. -/
theorem resolveBytes_every {n : Nat} (hp : ∀ k, (σ k).params = p) (ha : a < 2 ^ p.xlen)
    (hstep : ∀ k, k < n → resolveRange (byteAddress p a k) 1 acc (σ k) = .ok [pa k] (σ (k + 1))) :
    resolveBytes acc n a (σ 0) = .ok ((List.range n).map pa) (σ n) := by
  rw [resolveBytes_first hp ha (le_refl n) hstep, Nat.sub_self, resolveBytes, Res.bind_ok, List.append_nil]

/-- The byte at place `m`, the first that may fail, decides how the access ends or goes on. -/
theorem resolveBytes_at {n m : Nat} (hp : ∀ k, (σ k).params = p) (ha : a < 2 ^ p.xlen) (hm : m < n)
    (hstep : ∀ k, k < m → resolveRange (byteAddress p a k) 1 acc (σ k) = .ok [pa k] (σ (k + 1))) :
    ∃ k, resolveBytes acc n a (σ 0) = (resolveRange (byteAddress p a m) 1 acc (σ m)).bind k := by
  rw [resolveBytes_first hp ha hm.le hstep, show n - m = n - (m + 1) + 1 by omega, resolveBytes, Res.bind_assoc]
  exact ⟨_, rfl⟩

end

/-- With paging off a byte is at its own physical address. -/
theorem resolveRange_byte_pagingOff {s : State} (la : Nat) (acc : Access) (hp : s.pagingOn = false) :
    resolveRange la 1 acc s =
      if reachable s.params la then .ok [la] s else .raise ⟨.badMemoryReference, none⟩ s := by
  simp [resolveRange, hp, inMemory_one, raiseFault]

/-- With paging off an access byte by byte goes on where every byte is reachable, and is a fault elsewhere. -/
theorem resolveBytes_pagingOff {s : State} {a n : Nat} {acc : Access} (hp : s.pagingOn = false)
    (ha : a < 2 ^ s.params.xlen) :
    ((∀ k, k < n → reachable s.params (byteAddress s.params a k) = true) →
      resolveBytes acc n a s = .ok ((List.range n).map (byteAddress s.params a)) s) ∧
    ((∃ k, k < n ∧ reachable s.params (byteAddress s.params a k) = false) →
      resolveBytes acc n a s = .raise ⟨.badMemoryReference, none⟩ s) := by
  have hstep : ∀ k, reachable s.params (byteAddress s.params a k) = true →
      resolveRange (byteAddress s.params a k) 1 acc s = .ok [byteAddress s.params a k] s :=
    fun k hk => by rw [resolveRange_byte_pagingOff _ _ hp, if_pos hk]
  refine ⟨fun hall => ?_, fun hbad => ?_⟩
  · exact resolveBytes_every (σ := fun _ => s) (fun _ => rfl) ha fun k hk => hstep k (hall k hk)
  · have hmin : ∀ k, k < Nat.find hbad → reachable s.params (byteAddress s.params a k) = true := fun k hk => by
      have := Nat.find_min hbad hk
      simpa [hk.trans (Nat.find_spec hbad).1] using this
    obtain ⟨f, hf⟩ := resolveBytes_at (σ := fun _ => s) (fun _ => rfl) ha (Nat.find_spec hbad).1
      fun k hk => hstep k (hmin k hk)
    rw [hf, resolveRange_byte_pagingOff _ _ hp, (Nat.find_spec hbad).2, if_neg Bool.false_ne_true, Res.bind_raise]

/-- The state after pages `c 0` to `c (k - 1)` were used: their copies are cached (rule R100). -/
def afterPages (s : State) (c : Nat → PageCopy) : Nat → State
  | 0 => s
  | k + 1 => { s with hidden := cacheAdd (afterPages s c k).hidden (c k) }

theorem afterPages_same (s : State) (c : Nat → PageCopy) (k : Nat) : SameButHidden s (afterPages s c k) := by
  cases k with
  | zero => exact SameButHidden.same s
  | succ k => rfl

theorem afterPages_succ (s : State) (c : Nat → PageCopy) (k : Nat) :
    { afterPages s c k with hidden := cacheAdd (afterPages s c k).hidden (c k) } = afterPages s c (k + 1) := by
  rw [afterPages, afterPages_same s c k]

theorem mem_afterPages_cache {s : State} {c : Nat → PageCopy} {k m : Nat} (hk : k ≤ m) {d : PageCopy}
    (hd : d ∈ (afterPages s c k).hidden.cache) : d ∈ s.hidden.cache ++ (List.range m).map c := by
  induction k with
  | zero => exact List.mem_append_left _ hd
  | succ k ih =>
    rcases mem_cacheAdd hd with hd | rfl
    · exact ih (Nat.le_of_succ_le hk) hd
    · exact List.mem_append_right _ (List.mem_map_of_mem (List.mem_range.mpr hk))

/-- An outcome that is not to go on is the outcome of what follows it too. -/
theorem NoPage.bind {s : State} {cs : List PageCopy} {q : Nat} {x : Res (List Nat)} (h : NoPage s cs q x)
    (k : List Nat → State → Res (List Nat)) : NoPage s cs q (x.bind k) where
  null h0 := by rw [h.null h0]; rfl
  outside h0 ha hin := by rw [h.outside h0 ha hin]; rfl
  misaligned h0 hr ha := by rw [h.misaligned h0 hr ha]; rfl
  loops hq := by rw [h.loops hq]; rfl
  unwritten a h0 ha hin hpage := by rw [h.unwritten a h0 ha hin hpage]; rfl

/-- A single byte lies in one page: no region ends inside it. -/
theorem resolveRange_byte_page {s : State} {la q : Nat} {cs : List PageCopy} {c : PageCopy} (acc : Access)
    (hp : s.pagingOn = true) (h : pagePath s.params s.mem q (s.reg .rpa).toNat cs)
    (hc : cacheCurrent s.hidden.cache cs la) (hf : cs.find? (pageMatches la) = some c) :
    resolveRange la 1 acc s =
      if mayAccess c acc then
        if reachable s.params (pageAddress s.params c la) then
          .ok [pageAddress s.params c la] { s with hidden := cacheAdd s.hidden c }
        else .raise ⟨.badMemoryReference, none⟩ { s with hidden := cacheAdd s.hidden c }
      else .raise ⟨.pagePermission, none⟩ { s with hidden := cacheAdd s.hidden c } := by
  have hin : la < c.baseLogical.toNat + c.size.toNat := by
    have hm := List.find?_some hf
    simp only [pageMatches, Bool.and_eq_true, decide_eq_true_eq] at hm
    exact hm.2
  rw [resolveRange_page 1 acc hp h hc hf, if_neg (Nat.not_lt.mpr hin), inMemory_one]
  rfl

/-- The byte at place `k`, in its own page, from the state the pages before it left. -/
theorem resolveRange_afterPages {s : State} {la q k m : Nat} {cs : List PageCopy} {c : Nat → PageCopy} (acc : Access)
    (hp : s.pagingOn = true) (h : pagePath s.params s.mem q (s.reg .rpa).toNat cs) (hk : k ≤ m)
    (hc : cacheCurrent (s.hidden.cache ++ (List.range m).map c) cs la) (hf : cs.find? (pageMatches la) = some (c k)) :
    resolveRange la 1 acc (afterPages s c k) =
      if mayAccess (c k) acc then
        if reachable s.params (pageAddress s.params (c k) la) then
          .ok [pageAddress s.params (c k) la] (afterPages s c (k + 1))
        else .raise ⟨.badMemoryReference, none⟩ (afterPages s c (k + 1))
      else .raise ⟨.pagePermission, none⟩ (afterPages s c (k + 1)) := by
  have hs := afterPages_same s c k
  have hp' : (afterPages s c k).pagingOn = true := by rw [hs]; exact hp
  have h' : pagePath (afterPages s c k).params (afterPages s c k).mem q ((afterPages s c k).reg .rpa).toNat cs := by
    rw [hs.params, hs.mem, hs.reg]; exact h
  rw [resolveRange_byte_page acc hp' h' (fun d hd => hc d (mem_afterPages_cache hk hd)) hf, afterPages_succ, hs.params]

/-- A byte with no page, from the state the pages of the bytes before it left. -/
theorem noPage_afterPages {s : State} {la q m : Nat} {cs : List PageCopy} {c : Nat → PageCopy} (acc : Access)
    (hp : s.pagingOn = true) (h : pagePath s.params s.mem q (s.reg .rpa).toNat cs)
    (hc : cacheCurrent (s.hidden.cache ++ (List.range m).map c) cs la) (hf : cs.find? (pageMatches la) = none) :
    NoPage (afterPages s c m) cs q (resolveRange la 1 acc (afterPages s c m)) := by
  have hs := afterPages_same s c m
  refine resolveRange_noPage 1 acc (by rw [hs]; exact hp) ?_ (fun d hd => hc d (mem_afterPages_cache le_rfl hd)) hf
  rw [hs.params, hs.mem, hs.reg]
  exact h

/-- Settles O16: with paging off by `resolveBytes_pagingOff`; with paging on the first `m` bytes go on, each through its
page, and byte `m` ends the access: in its page, whose copy is cached by then, or with no page. -/
theorem misalignedBytes : Obligations.MisalignedBytes := by
  intro s a n align acc hb hal ha
  rw [resolve_misaligned_bytes n acc hal hb]
  refine ⟨fun hp => resolveBytes_pagingOff hp ha, fun hp cs q c m hmn h => ?_⟩
  intro la pa page hcache hgood
  have hparams : ∀ k, (afterPages s c k).params = s.params := fun k => (afterPages_same s c k).params
  have hstep : ∀ k, k < m → resolveRange (la k) 1 acc (afterPages s c k) = .ok [pa k] (afterPages s c (k + 1)) := by
    intro k hk
    obtain ⟨hpage, hmay, hreach⟩ := hgood k hk
    rw [resolveRange_afterPages acc hp h hk.le (hcache k (by omega) hk.le) hpage, if_pos hmay, if_pos hreach]
  by_cases hin : m < n ∧ page m = some (c m)
  · obtain ⟨hlt, hpage⟩ := hin
    obtain ⟨f, hat⟩ := resolveBytes_at hparams ha hlt hstep
    change resolveBytes acc n a s = _ at hat
    rw [hat, resolveRange_afterPages acc hp h le_rfl (hcache m hlt le_rfl) hpage]
    refine ⟨afterPages s c (m + 1), afterPages_same s c _, fun he => absurd he hlt.ne, fun _ hno => ?_,
      fun _ _ hno => ?_, fun _ _ hmay hreach => ?_⟩
    · rw [hpage] at hno; cases hno
    · rw [if_neg hno, Res.bind_raise]
    · rw [if_pos hmay, if_neg (by rw [hreach]; exact Bool.false_ne_true), Res.bind_raise]
  · refine ⟨afterPages s c m, afterPages_same s c m, fun he => ?_, fun hlt hno => ?_,
      fun hlt hpage => absurd ⟨hlt, hpage⟩ hin, fun hlt hpage => absurd ⟨hlt, hpage⟩ hin⟩
    · subst he
      exact resolveBytes_every hparams ha hstep
    · obtain ⟨f, hat⟩ := resolveBytes_at hparams ha hlt hstep
      change resolveBytes acc n a s = _ at hat
      rw [hat]
      exact (noPage_afterPages acc hp h (hcache m hlt le_rfl) hno).bind f

end Sys2Proof.Machine

/-! SUPPORT. One data access of an instruction: the stores of CPVR, CPVL and CPRR (rules R174, R175, R177) and the loads
of CPR to a register (rule R176), with the fault of an address that does not resolve. -/

namespace Sys2Proof.Machine

/-! ### Stores (rules R174, R175, R177) -/

/-- An instruction that ends by storing `v` at address `a` and goes on to `next`. -/
def storeThenGo (a v next : Word) (s : State) : Host.Outcome State Fault Refusal :=
  finish (thenGoTo next (storeWord a v .write s))

section
variable {s s1 : State} {rs rt : Reg}

theorem exec_cpvrFrm (he : extKnown s) (hs : isRfp rs = false) (n : Word) :
    exec (.cpvrFrm rs n) s = storeThenGo n (s.reg rs) (nextAddress s (.cpvrFrm rs n)) s := by
  change finish ((nextPc 1 s).bind _) = _
  rw [nextPc_bind 1 (.cpvrFrm rs n) rfl he, if_neg (by simp [hs])]
  rfl

theorem exec_cpvlFmm (he : extKnown s) (n k : Word) :
    exec (.cpvlFmm n k) s = storeThenGo k n (nextAddress s (.cpvlFmm n k)) s :=
  congrArg finish (nextPc_bind 2 (.cpvlFmm n k) rfl he _)

theorem exec_cprr (hs : isRfp rs = false) (ht : isRfp rt = false) :
    exec (.cprr rs rt) s = storeThenGo (s.reg rt) (s.reg rs) (nextAddress s (.cprr rs rt)) s := by
  change finish ((nextPc 0 s).bind _) = _
  rw [nextPc_zero_bind s (.cprr rs rt) rfl, if_neg (by simp [hs, ht])]
  rfl

/-- The address resolves: the word's bytes stand there, and nothing else changes but RIP. -/
theorem storeThenGo_ok {a : Word} {i : Instr} {addrs : List Nat} (v : Word)
    (h : resolve a.toNat s.params.wb s.params.wb .write s = .ok addrs s1) :
    ∃ t, storeThenGo a v (nextAddress s i) s = .next t ∧ bytesAre t addrs s.params.wb v.toNat ∧
      t.reg .rip = nextAddress s i ∧ Frame [.rip] addrs s t ∧ t.hidden = s1.hidden := by
  obtain ⟨hs, hlen, -⟩ := resolve_ok h
  refine ⟨({ s1 with mem := s1.mem.writeAll addrs (beBytes s.params.wb v.toNat) } : State).setReg .rip
    (nextAddress s i), ?_, fun hn => ?_, ?_, ?_, ?_⟩
  · simp [storeThenGo, storeWord_eq h, thenGoTo, finish]
  · exact Memory.map_read?_writeAll s1.mem hn (by rw [hlen, beBytes_length])
  · rw [State.reg_setReg_same]
    exact hs.params ▸ toWord_nextAddress s i
  · exact frame_setRip hs _ _ addrs fun x hx => by rw [Memory.read?_writeAll_other _ _ _ hx, hs.mem]
  · exact State.setReg_hidden _ _ (by decide)

/-- The address does not resolve: the fault is taken before a byte is written (rule R10). -/
theorem storeThenGo_raise {a next : Word} {tr : Trap} (v : Word)
    (h : resolve a.toNat s.params.wb s.params.wb .write s = .raise tr s1) :
    storeThenGo a v next s = faultEntry tr s1 ∧ SameButHidden s s1 :=
  ⟨by simp [storeThenGo, storeWord_raise h, thenGoTo, finish], resolve_raise h⟩

end

/-- Settles O20: the three forms are `storeThenGo`, and its two outcomes are the two clauses. -/
theorem storesWriteOneWord : Obligations.StoresWriteOneWord := by
  refine ⟨fun s s1 addrs => ⟨fun rs n he hs h => ?_, fun n k he h => ?_, fun rs rt hs ht h => ?_⟩,
    fun s s1 tr => ⟨fun rs n he hs h => ?_, fun n k he h => ?_, fun rs rt hs ht h => ?_⟩⟩
  · rw [exec_cpvrFrm he hs]; exact storeThenGo_ok _ h
  · rw [exec_cpvlFmm he]; exact storeThenGo_ok _ h
  · rw [exec_cprr hs ht]; exact storeThenGo_ok _ h
  · rw [exec_cpvrFrm he hs]; exact storeThenGo_raise _ h
  · rw [exec_cpvlFmm he]; exact storeThenGo_raise _ h
  · rw [exec_cprr hs ht]; exact storeThenGo_raise _ h

/-! ### Loads (rule R176) -/

/-- An instruction that loads register `rt` from address `a` and goes on to `next`. -/
def loadThenGo (a : Word) (rt : Reg) (next : Word) (s : State) : Host.Outcome State Fault Refusal :=
  finish ((loadWord a .read s).bind fun v s => thenGoTo next (writeReg rt v s))

section
variable {s s1 : State} {rs rt : Reg}

theorem exec_cprFmr_loadThenGo (he : extKnown s) (ht : isRfp rt = false) (n : Word) :
    exec (.cprFmr n rt) s = loadThenGo n rt (nextAddress s (.cprFmr n rt)) s := by
  change finish ((nextPc 1 s).bind _) = _
  rw [nextPc_bind 1 (.cprFmr n rt) rfl he, if_neg (by simp [ht])]
  rfl

theorem exec_cprFrr_loadThenGo (hs : isRfp rs = false) (ht : isRfp rt = false) :
    exec (.cprFrr rs rt) s = loadThenGo (s.reg rs) rt (nextAddress s (.cprFrr rs rt)) s := by
  change finish ((nextPc 0 s).bind _) = _
  rw [nextPc_zero_bind s (.cprFrr rs rt) rfl, if_neg (by simp [hs, ht])]
  rfl

/-- The register write check reads nothing a memory access changes. -/
theorem mayWrite_of_sameButHidden {v : Word} (h : mayWrite s rt v) (hs : SameButHidden s s1) : mayWrite s1 rt v := by
  have hl : s1.level1 = s.level1 := by unfold State.level1; rw [hs.reg]
  exact ⟨h.1, hl ▸ h.2⟩

/-- The address resolves: the register takes the word there, and nothing else changes but RIP. -/
theorem loadThenGo_ok {a : Word} {i : Instr} {addrs : List Nat} {bs : List Byte}
    (hb : addrs.map s.mem.read? = bs.map some) (hw : mayWrite s rt (BitVec.ofNat 64 (beValue bs)))
    (h : resolve a.toNat s.params.wb s.params.wb .read s = .ok addrs s1) :
    ∃ t, loadThenGo a rt (nextAddress s i) s = .next t ∧ (t.reg rt).toNat = beValue bs ∧
      t.reg .rip = nextAddress s i ∧ Frame [rt, .rip] [] s t ∧
      t.hidden = (if rt = .rpa then { s1.hidden with cache := [] } else s1.hidden) := by
  obtain ⟨hload, hlt, -⟩ := loadWord_eq hb h
  obtain ⟨hs, -, -⟩ := resolve_ok h
  refine ⟨(s1.setReg rt (BitVec.ofNat 64 (beValue bs))).setReg .rip (nextAddress s i), ?_, ?_, ?_, ?_, ?_⟩
  · rw [loadThenGo, hload]
    exact writeThenGo_ok _ (mayWrite_of_sameButHidden hw hs)
  · rw [State.reg_setReg_other _ _ hw.1, State.reg_setReg_same, toWord_toNat, toNat_ofNat_of_lt hlt, hs.params,
      Nat.mod_eq_of_lt hlt]
  · rw [State.reg_setReg_same]
    exact hs.params ▸ toWord_nextAddress s i
  · exact frame_setReg_rip hs rt _ _ s1.mem [] fun x _ => by rw [hs.mem]
  · rw [State.setReg_hidden _ _ (by decide), State.setReg_hidden_eq]

/-- The address does not resolve: the fault is taken before the register is written (rule R10). -/
theorem loadThenGo_raise {a next : Word} {tr : Trap}
    (h : resolve a.toNat s.params.wb s.params.wb .read s = .raise tr s1) :
    loadThenGo a rt next s = faultEntry tr s1 ∧ SameButHidden s s1 :=
  ⟨by simp [loadThenGo, loadWord_raise h, finish], resolve_raise h⟩

end

/-- Settles O21: both forms are `loadThenGo`, and its two outcomes are the two clauses. -/
theorem loadsReadOneWord : Obligations.LoadsReadOneWord := by
  refine ⟨fun s s1 addrs bs rt ht hb hw => ⟨fun n he h => ?_, fun rs hs h => ?_⟩,
    fun s s1 rt tr ht => ⟨fun n he h => ?_, fun rs hs h => ?_⟩⟩
  · rw [exec_cprFmr_loadThenGo he ht]; exact loadThenGo_ok hb hw h
  · rw [exec_cprFrr_loadThenGo hs ht]; exact loadThenGo_ok hb hw h
  · rw [exec_cprFmr_loadThenGo he ht]; exact loadThenGo_raise h
  · rw [exec_cprFrr_loadThenGo hs ht]; exact loadThenGo_raise h

end Sys2Proof.Machine

/-! SUPPORT. The decoder and the encoder: what decodes, and as what; the round trip in both directions; and the faults a
fetched opcode word is answered with (rules R130 to R148). -/

namespace Sys2Proof

/-! ### Opcode words and Register IDs -/

/-- An opcode word with zeros in bits 31:24 is made of its other three bytes (rule R130). -/
theorem opWord_opByte {w : OpWord} (h : opByte w 3 = 0) : opWord (opByte w 2) (opByte w 1) (opByte w 0) = w := by
  have hbyte (k i : Nat) (hi : i < 8) : (opByte w k).getLsbD i = w.getLsbD (8 * k + i) := by
    simp [opByte, hi]
  apply BitVec.eq_of_getLsbD_eq
  intro i hi
  rw [opWord_getLsbD]
  split
  · next h0 => rw [hbyte 0 i h0, Nat.mul_zero, Nat.zero_add]
  split
  · rw [hbyte 1 (i - 8) (by omega)]; congr 1; omega
  split
  · rw [hbyte 2 (i - 16) (by omega)]; congr 1; omega
  · have htop := hbyte 3 (i - 24) (by omega)
    rw [h, show 8 * 3 + (i - 24) = i by omega] at htop
    exact BitVec.getLsbD_zero ▸ htop

/-- Only its own Register ID names a register (rules R21, R146). -/
theorem regOfId_eq_some_iff {b : Byte} {r : Reg} : regOfId b = some r ↔ b = regId r := by
  refine ⟨fun h => ?_, fun h => h ▸ regOfId_regId r⟩
  unfold regOfId at h
  split at h
  · next h4 =>
    have hr : allRegs[regIndex r]? = some r := by cases r <;> rfl
    have hlt : regIndex r < allRegs.length := (List.getElem?_eq_some_iff.mp hr).1
    have hidx : regIndex r = b.toNat / 4 := (List.getElem?_inj hlt (by decide)).mp (hr.trans h.symm)
    apply BitVec.eq_of_toNat_eq
    rw [Machine.regId_toNat]
    omega
  · cases h

/-- The registers of a slot where the byte 0x00 has another meaning (rule R139). -/
theorem slotRegOk_iff {r : Reg} : slotRegOk r = true ↔ regId r ≠ 0#8 := by
  rw [slotRegOk, bne_iff_ne, ne_eq, ne_eq, show (0#8 : Byte) = 0 from rfl, regId_eq_zero]

/-! ### The register slots (rules R134, R142, R146) -/

section
variable {p : Params} {b xx yy : Byte} {mk : Reg → Instr} {mk2 : Reg → Reg → Instr} {j : Instr}

theorem withReg_eq_ok (h : withReg b mk = .ok j) : ∃ r, b = regId r ∧ j = mk r := by
  unfold withReg at h
  split at h
  · next r hr =>
    injection h with h
    exact ⟨r, regOfId_eq_some_iff.mp hr, h.symm⟩
  · cases h

theorem withReg_invalid (h : regOfId b = none) : withReg b mk = .error .badRegister := by
  rw [withReg, h]

/-- The bytes XX and YY of format FRR hold the two registers as RR_FIELD_ORDER says. -/
def FieldsHold (p : Params) (xx yy : Byte) (rs rt : Reg) : Prop :=
  p.fieldOrder = .table ∧ xx = regId rt ∧ yy = regId rs ∨ p.fieldOrder = .examples ∧ xx = regId rs ∧ yy = regId rt

theorem FieldsHold.opRegs_eq {rs rt : Reg} (h : FieldsHold p xx yy rs rt) (zz : Byte) :
    opRegs p rs rt zz = opWord xx yy zz := by
  rcases h with ⟨ho, rfl, rfl⟩ | ⟨ho, rfl, rfl⟩ <;> rw [opRegs, ho]

/-- Where neither byte is 0x00, neither register is RIP. -/
theorem FieldsHold.slotsOk {rs rt : Reg} (h : FieldsHold p xx yy rs rt) (hx : xx ≠ 0#8) (hy : yy ≠ 0#8) :
    slotRegOk rs = true ∧ slotRegOk rt = true := by
  rcases h with ⟨_, rfl, rfl⟩ | ⟨_, rfl, rfl⟩
  · exact ⟨slotRegOk_iff.mpr hy, slotRegOk_iff.mpr hx⟩
  · exact ⟨slotRegOk_iff.mpr hx, slotRegOk_iff.mpr hy⟩

theorem withRegs_eq_ok (h : withRegs p xx yy mk2 = .ok j) : ∃ rs rt, FieldsHold p xx yy rs rt ∧ j = mk2 rs rt := by
  unfold withRegs at h
  split at h
  · next x y hx hy =>
    have hx := regOfId_eq_some_iff.mp hx
    have hy := regOfId_eq_some_iff.mp hy
    split at h
    · next ho =>
      injection h with h
      exact ⟨y, x, .inl ⟨ho, hx, hy⟩, h.symm⟩
    · next ho =>
      injection h with h
      exact ⟨x, y, .inr ⟨ho, hx, hy⟩, h.symm⟩
  · cases h

theorem withRegs_invalid (h : regOfId xx = none ∨ regOfId yy = none) :
    withRegs p xx yy mk2 = .error .badRegister := by
  unfold withRegs
  split
  · next hx hy => simp [hx, hy] at h
  · rfl

end

/-! ### Extension words (rules R136, R137, R140) -/

theorem Instr.extList_withExt (i : Instr) (n k : Word) : (i.withExt n k).extList = [n, k].take i.extWords := by
  cases i <;> rfl

theorem Instr.extWords_withExt (i : Instr) (n k : Word) : (i.withExt n k).extWords = i.extWords := by
  cases i <;> rfl

theorem Instr.withExt_withExt (i : Instr) (m l n k : Word) : (i.withExt m l).withExt n k = i.withExt n k := by
  cases i <;> rfl

theorem Instr.withExt_extList (i : Instr) : i.withExt (i.extList.getD 0 0) (i.extList.getD 1 0) = i := by
  cases i <;> rfl

theorem Instr.extWords_le (i : Instr) : i.extWords ≤ 2 := by
  cases i <;> simp [extWords, extList]

/-- An instruction with no extension word is not changed by putting some in. -/
theorem Instr.withExt_of_noExt {i : Instr} (h : i.extWords = 0) (n k : Word) : i.withExt n k = i := by
  cases i <;> simp_all [extWords, extList, withExt]

/-- The extension words put in are the instruction's, where there are as many. -/
theorem Instr.extList_withExt_getD {i : Instr} {ws : List Word} (h : ws.length = i.extWords) :
    (i.withExt (ws.getD 0 0) (ws.getD 1 0)).extList = ws := by
  have hle := i.extWords_le
  rw [extList_withExt, ← h]
  match ws with
  | [] => rfl
  | [_] => rfl
  | [_, _] => rfl
  | _ :: _ :: _ :: _ => simp only [List.length_cons] at h; omega

theorem encodeHead_withExt (p : Params) (i : Instr) (n k : Word) : encodeHead p (i.withExt n k) = encodeHead p i := by
  cases i <;> rfl

/-- EXT_BYTES bytes fit the model's words. -/
theorem extBytes_le {p : Params} {e : Nat} (h : p.extBytes = some e) : e ≤ 8 := by
  unfold Params.extBytes at h
  split at h
  · injection h with h; omega
  · split at h
    · injection h with h; omega
    · injection h with h; omega
    · cases h

theorem extWordOk_iff {p : Params} {n : Word} : extWordOk p n = true ↔ ∃ e, p.extBytes = some e ∧ n.toNat < 256 ^ e := by
  unfold extWordOk
  cases p.extBytes <;> simp

theorem wf_extWordOk {p : Params} {i : Instr} (h : i.wf p = true) : ∀ v ∈ i.extList, extWordOk p v = true := by
  cases i <;> simp_all [Instr.wf, Instr.extList]

/-- The extension words as they stand in memory, `e` bytes each. -/
def extBytesOf (e : Nat) (ws : List Word) : List Byte := ws.flatMap fun v => beBytes e v.toNat

theorem extBytesOf_cons (e : Nat) (v : Word) (ws : List Word) :
    extBytesOf e (v :: ws) = beBytes e v.toNat ++ extBytesOf e ws := List.flatMap_cons

theorem takeValue_append {n : Nat} {as : List Byte} (h : as.length = n) (bs : List Byte) :
    takeValue n (as ++ bs) = some (beValue as, bs) := by
  subst h
  rw [takeValue, if_neg (by simp), List.take_left, List.drop_left]

/-- Extension words that fit are read back. -/
theorem takeExt_extBytesOf {e : Nat} {ws : List Word} (h : ∀ v ∈ ws, v.toNat < 256 ^ e) (rest : List Byte) :
    takeExt e ws.length (extBytesOf e ws ++ rest) = some (ws, rest) := by
  induction ws with
  | nil => rfl
  | cons v vs ih =>
    obtain ⟨hv, hvs⟩ := List.forall_mem_cons.mp h
    have ih := ih hvs
    rw [extBytesOf_cons, List.append_assoc, List.length_cons, takeExt, takeValue_append (beBytes_length e _)]
    simp only [ih, beValue_beBytes hv, BitVec.ofNat_toNat, BitVec.setWidth_eq]

/-- Bytes read as extension words are those words' bytes, and the words fit. -/
theorem takeExt_eq_some {e : Nat} (he : e ≤ 8) {k : Nat} {bs rest : List Byte} {ws : List Word}
    (h : takeExt e k bs = some (ws, rest)) :
    ws.length = k ∧ bs = extBytesOf e ws ++ rest ∧ ∀ v ∈ ws, v.toNat < 256 ^ e := by
  induction k generalizing bs ws with
  | zero =>
    injection h with h
    injection h with hws hrest
    subst hws hrest
    simp [extBytesOf]
  | succ k ih =>
    obtain ⟨as, mid, vs, rfl, rfl, rfl, hvs⟩ := takeExt_succ_eq_some h
    obtain ⟨rfl, rfl, hlt⟩ := ih hvs
    have hval : (BitVec.ofNat 64 (beValue as)).toNat = beValue as := by
      refine BitVec.toNat_ofNat _ _ ▸ Nat.mod_eq_of_lt (lt_of_lt_of_le (beValue_lt as) ?_)
      exact (Nat.pow_le_pow_right (by decide) he).trans (by decide)
    refine ⟨rfl, ?_, List.forall_mem_cons.mpr ⟨?_, hlt⟩⟩
    · rw [extBytesOf_cons, hval, beBytes_beValue, List.append_assoc]
    · rw [hval]
      exact beValue_lt as

/-! ### Decoding what was encoded (rules R134, R136, R140, R153) -/

section
variable {p : Params} {as : List Byte} {j : Instr}

/-- An opcode word of a row with no extension word is the whole instruction. -/
theorem decode_of_noExt (h4 : as.length = 4) (hj : decodeHead p (BitVec.ofNat 32 (beValue as)) = .ok j)
    (hn : j.extWords = 0) (rest : List Byte) : decode p (as ++ rest) = .ok (j, rest) := by
  simp only [decode, takeValue_append h4, hj, hn]

/-- An opcode word of a row with extension words takes the bytes of those words. -/
theorem decode_of_ext {e : Nat} {ws : List Word} (h4 : as.length = 4)
    (hj : decodeHead p (BitVec.ofNat 32 (beValue as)) = .ok j) (he : p.extBytes = some e)
    (hlen : ws.length = j.extWords) (hpos : j.extWords ≠ 0) (hlt : ∀ v ∈ ws, v.toNat < 256 ^ e) (rest : List Byte) :
    decode p (as ++ (extBytesOf e ws ++ rest)) = .ok (j.withExt (ws.getD 0 0) (ws.getD 1 0), rest) := by
  obtain ⟨k, hk⟩ := Nat.exists_eq_succ_of_ne_zero hpos
  have htake := takeExt_extBytesOf hlt rest
  rw [hlen, hk] at htake
  simp only [decode, takeValue_append h4, hj, hk, he, htake]

end

theorem ofNat_beValue_beBytes (w : OpWord) : BitVec.ofNat 32 (beValue (beBytes 4 w.toNat)) = w := by
  rw [beValue_beBytes w.isLt, BitVec.ofNat_toNat, BitVec.setWidth_eq]

/-- The opcode word of every well-formed instruction is decoded to it, its extension words apart. -/
theorem decodeHead_encodeHead (i : Instr) : Laws.HeadRoundTrip.Statement i := by
  cases i with
  | cpvrFrm rs n => exact Laws.HeadRoundTrip.cpvrFrm rs n
  | cpvrFrr rs rt => exact Laws.HeadRoundTrip.cpvrFrr rs rt
  | cpvlFmm n k => exact Laws.HeadRoundTrip.cpvlFmm n k
  | cpvlFmr n rt => exact Laws.HeadRoundTrip.cpvlFmr n rt
  | cprFmm n k => exact Laws.HeadRoundTrip.cprFmm n k
  | cprFrm rs n => exact Laws.HeadRoundTrip.cprFrm rs n
  | cprFmr n rt => exact Laws.HeadRoundTrip.cprFmr n rt
  | cprFrr rs rt => exact Laws.HeadRoundTrip.cprFrr rs rt
  | cprr rs rt => exact Laws.HeadRoundTrip.cprr rs rt
  | cmp rs rt => exact Laws.HeadRoundTrip.cmp rs rt
  | jmpFm n => exact Laws.HeadRoundTrip.jmpFm n
  | jmpFr rs => exact Laws.HeadRoundTrip.jmpFr rs
  | callFm n => exact Laws.HeadRoundTrip.callFm n
  | callFr rs => exact Laws.HeadRoundTrip.callFr rs
  | ret => exact Laws.HeadRoundTrip.ret
  | arth rs rt => exact Laws.HeadRoundTrip.arth rs rt
  | lgic rs rt => exact Laws.HeadRoundTrip.lgic rs rt
  | intr id => exact Laws.HeadRoundTrip.intr id
  | cebFmm n k => exact Laws.HeadRoundTrip.cebFmm n k
  | cebFrm rs n => exact Laws.HeadRoundTrip.cebFrm rs n
  | cebFmr n rt => exact Laws.HeadRoundTrip.cebFmr n rt
  | cebFrr rs rt => exact Laws.HeadRoundTrip.cebFrr rs rt
  | nop => exact Laws.HeadRoundTrip.nop
  | ltsk => exact Laws.HeadRoundTrip.ltsk

/-- Settles O3: the opcode word gives the row (`decodeHead_encodeHead`), and the row takes the extension words back. -/
theorem decodeOfEncode : Obligations.DecodeOfEncode := by
  intro p i rest hwf
  have hhead : decodeHead p (BitVec.ofNat 32 (beValue (beBytes 4 (encodeHead p i).toNat))) = .ok (i.withExt 0 0) := by
    rw [ofNat_beValue_beBytes]
    exact decodeHead_encodeHead i p hwf
  have h4 := beBytes_length 4 (encodeHead p i).toNat
  have hext := wf_extWordOk hwf
  rw [encode, List.append_assoc]
  by_cases hn : i.extWords = 0
  · have hnil : i.extList = [] := List.eq_nil_of_length_eq_zero hn
    rw [i.withExt_of_noExt hn] at hhead
    rw [hnil]
    exact decode_of_noExt h4 hhead hn rest
  · obtain ⟨v, hv⟩ := List.exists_mem_of_length_pos (Nat.pos_of_ne_zero hn)
    obtain ⟨e, he, _⟩ := extWordOk_iff.mp (hext v hv)
    have hlt : ∀ v ∈ i.extList, v.toNat < 256 ^ e := fun v hv => by
      obtain ⟨e', he', hlt⟩ := extWordOk_iff.mp (hext v hv)
      rw [he] at he'
      injection he' with he'
      exact he' ▸ hlt
    have hwords := (i.extWords_withExt 0 0).symm
    have h := decode_of_ext h4 hhead he (ws := i.extList) hwords (hwords ▸ hn) hlt rest
    rw [i.withExt_withExt, i.withExt_extList] at h
    rw [he]
    exact h

/-! ### Encoding what was decoded (rule R148) -/

/-- The opcode word `w` is the encoder's for the row `j`, and with extension words that fit `j` is well formed. -/
def EncodedBy (p : Params) (w : OpWord) (j : Instr) : Prop :=
  encodeHead p j = w ∧ ∀ n k, (∀ v ∈ (j.withExt n k).extList, extWordOk p v = true) → (j.withExt n k).wf p = true

section
variable {p : Params} {w : OpWord} {b xx yy zz : Byte} {j mm : Instr} {mr rm : Reg → Instr} {rr : Reg → Reg → Instr}

theorem encodedBy_of_withReg (h : withReg b mr = .ok j) (hr : ∀ r, b = regId r → EncodedBy p w (mr r)) :
    EncodedBy p w j := by
  obtain ⟨r, hb, rfl⟩ := withReg_eq_ok h
  exact hr r hb

theorem encodedBy_of_withRegs (h : withRegs p xx yy rr = .ok j)
    (hrr : ∀ rs rt, FieldsHold p xx yy rs rt → EncodedBy p (opRegs p rs rt zz) (rr rs rt)) :
    EncodedBy p (opWord xx yy zz) j := by
  obtain ⟨rs, rt, hf, rfl⟩ := withRegs_eq_ok h
  exact hf.opRegs_eq zz ▸ hrr rs rt hf

/-- The rows with no register and no extension word: RET, NOP and LTSK. -/
theorem encodedBy_of_zeros
    (h : (if xx = 0 ∧ yy = 0 then .ok mm else .error .illegalInstruction) = Except.ok (ε := DecodeError) j)
    (hmm : EncodedBy p (opWord 0 0 zz) mm) : EncodedBy p (opWord xx yy zz) j := by
  split at h
  · next h0 =>
    obtain ⟨rfl, rfl⟩ := h0
    cases h
    exact hmm
  · cases h

/-- The two forms of JMP and CALL: an extension word or a source register. -/
theorem encodedBy_of_twoForms
    (h : (if xx ≠ 0 then .error .illegalInstruction else if yy = 0 then .ok mm else withReg yy rm) = .ok j)
    (hmm : EncodedBy p (opWord 0 0 zz) mm)
    (hrm : ∀ r, slotRegOk r = true → EncodedBy p (opWord 0 (regId r) zz) (rm r)) :
    EncodedBy p (opWord xx yy zz) j := by
  split at h
  · cases h
  next hx =>
  obtain rfl := not_not.mp hx
  split at h
  · next hy =>
    subst hy
    cases h
    exact hmm
  · next hy => exact encodedBy_of_withReg h fun r hr => hr ▸ hrm r (slotRegOk_iff.mpr (hr ▸ hy))

/-- The four forms of CPR and CEB: each operand an extension word or a register. -/
theorem encodedBy_of_fourForms
    (h : (if yy = 0 then if xx = 0 then .ok mm else withReg xx mr
      else if xx = 0 then withReg yy rm else withRegs p xx yy rr) = .ok j)
    (hmm : EncodedBy p (opWord 0 0 zz) mm)
    (hmr : ∀ r, slotRegOk r = true → EncodedBy p (opWord (regId r) 0 zz) (mr r))
    (hrm : ∀ r, slotRegOk r = true → EncodedBy p (opWord 0 (regId r) zz) (rm r))
    (hrr : ∀ rs rt, slotRegOk rs = true → slotRegOk rt = true → EncodedBy p (opRegs p rs rt zz) (rr rs rt)) :
    EncodedBy p (opWord xx yy zz) j := by
  split at h
  · next hy =>
    subst hy
    split at h
    · next hx =>
      subst hx
      cases h
      exact hmm
    · next hx => exact encodedBy_of_withReg h fun r hr => hr ▸ hmr r (slotRegOk_iff.mpr (hr ▸ hx))
  · next hy =>
    split at h
    · next hx =>
      subst hx
      exact encodedBy_of_withReg h fun r hr => hr ▸ hrm r (slotRegOk_iff.mpr (hr ▸ hy))
    · next hx =>
      exact encodedBy_of_withRegs h fun rs rt hf => hrr rs rt (hf.slotsOk hx hy).1 (hf.slotsOk hx hy).2

/-- CPVR: the target is an extension word where XX is 0x00, else a register, which is RIP in neither field order. -/
theorem encodedBy_of_cpvr
    (h : (if xx = 0 then withReg yy (fun rs => .cpvrFrm rs 0)
      else if p.fieldOrder = .examples ∧ yy = 0 then .error .illegalInstruction
      else withRegs p xx yy .cpvrFrr) = .ok j) : EncodedBy p (opWord xx yy 0x01) j := by
  split at h
  · next hx =>
    subst hx
    exact encodedBy_of_withReg h fun r hr => by simp [EncodedBy, encodeHead, Instr.withExt, Instr.extList, Instr.wf, hr]
  next hx =>
  split at h
  · cases h
  next hy =>
  refine encodedBy_of_withRegs h fun rs rt hf => ⟨rfl, fun n k _ => ?_⟩
  cases ho : p.fieldOrder with
  | table =>
    obtain ⟨_, rfl, _⟩ | ⟨ho', _⟩ := hf
    · simp [Instr.withExt, Instr.wf, ho, slotRegOk_iff.mpr hx]
    · cases ho.symm.trans ho'
  | examples =>
    obtain ⟨hs, ht⟩ := hf.slotsOk hx fun h0 => hy ⟨ho, h0⟩
    simp [Instr.withExt, Instr.wf, ho, hs, ht]

/-- CPVL: the target is an extension word or a register. -/
theorem encodedBy_of_cpvl
    (h : (if yy ≠ 0 then .error .illegalInstruction else if xx = 0 then .ok (.cpvlFmm 0 0)
      else withReg xx (.cpvlFmr 0)) = .ok j) : EncodedBy p (opWord xx yy 0x02) j := by
  split at h
  · cases h
  next hy =>
  obtain rfl := not_not.mp hy
  split at h
  · next hx =>
    subst hx
    cases h
    simp [EncodedBy, encodeHead, Instr.withExt, Instr.extList, Instr.wf]
  · next hx =>
    refine encodedBy_of_withReg h fun r hr => ?_
    have hs := slotRegOk_iff.mpr (hr ▸ hx)
    simp [EncodedBy, encodeHead, Instr.withExt, Instr.extList, Instr.wf, hr, hs]

/-- INTR: any Special Literal. -/
theorem encodedBy_of_intr
    (h : (if xx = 0 then .ok (.intr yy) else .error .illegalInstruction) = Except.ok (ε := DecodeError) j) :
    EncodedBy p (opWord xx yy 0x0B) j := by
  split at h
  · next hx =>
    subst hx
    cases h
    simp [EncodedBy, encodeHead, Instr.withExt, Instr.wf]
  · cases h

/-- The row a decoded opcode word selects encodes it: the Instruction IDs of rule R140 one by one. -/
theorem encodedBy_of_decodeHead (h : decodeHead p w = .ok j) : EncodedBy p w j := by
  unfold decodeHead at h
  split at h
  · cases h
  next h3 =>
  rw [← opWord_opByte (not_not.mp h3)]
  have hz : opByte w 0 = BitVec.ofNat 8 (opByte w 0).toNat := by simp
  rw [hz]
  clear hz h3
  generalize (opByte w 0).toNat = zz at h ⊢
  split at h
  next => -- CPVR
    exact encodedBy_of_cpvr h
  next => -- CPVL
    exact encodedBy_of_cpvl h
  next => -- CPR
    refine encodedBy_of_fourForms h ?_ (fun r hr => ?_) (fun r hr => ?_) (fun rs rt hs ht => ?_) <;>
      simp [EncodedBy, encodeHead, Instr.withExt, Instr.extList, Instr.wf, *]
  next => -- CPRR
    exact encodedBy_of_withRegs h fun _ _ _ => ⟨rfl, fun _ _ _ => rfl⟩
  next => -- CMP
    exact encodedBy_of_withRegs h fun _ _ _ => ⟨rfl, fun _ _ _ => rfl⟩
  next => -- JMP
    refine encodedBy_of_twoForms h ?_ (fun r hr => ?_) <;>
      simp [EncodedBy, encodeHead, Instr.withExt, Instr.extList, Instr.wf, *]
  next => -- CALL
    refine encodedBy_of_twoForms h ?_ (fun r hr => ?_) <;>
      simp [EncodedBy, encodeHead, Instr.withExt, Instr.extList, Instr.wf, *]
  next => -- RET
    exact encodedBy_of_zeros h ⟨rfl, fun _ _ _ => rfl⟩
  next => -- ARTH
    exact encodedBy_of_withRegs h fun _ _ _ => ⟨rfl, fun _ _ _ => rfl⟩
  next => -- LGIC
    exact encodedBy_of_withRegs h fun _ _ _ => ⟨rfl, fun _ _ _ => rfl⟩
  next => -- INTR
    exact encodedBy_of_intr h
  next => -- CEB
    refine encodedBy_of_fourForms h ?_ (fun r hr => ?_) (fun r hr => ?_) (fun rs rt hs ht => ?_) <;>
      simp [EncodedBy, encodeHead, Instr.withExt, Instr.extList, Instr.wf, *]
  next => -- NOP
    exact encodedBy_of_zeros h ⟨rfl, fun _ _ _ => rfl⟩
  next => -- LTSK
    exact encodedBy_of_zeros h ⟨rfl, fun _ _ _ => rfl⟩
  next => cases h

end

theorem beBytes_ofNat_beValue {as : List Byte} (h4 : as.length = 4) :
    beBytes 4 (BitVec.ofNat 32 (beValue as)).toNat = as := by
  have hlt : beValue as < 2 ^ 32 := by
    have h := beValue_lt as
    rwa [h4] at h
  rw [BitVec.toNat_ofNat, Nat.mod_eq_of_lt hlt, ← h4, beBytes_beValue]

/-- Settles O4: the opcode word by `encodedBy_of_decodeHead`, the extension words by `takeExt_eq_some`. -/
theorem encodeOfDecode : Obligations.EncodeOfDecode := by
  intro p bs rest i h
  obtain ⟨as, ext, j, h4, rfl, hj, hcase⟩ := decode_eq_ok h
  obtain ⟨hhead, hwf⟩ := encodedBy_of_decodeHead hj
  rcases hcase with ⟨hn, rfl⟩ | ⟨k, e, ws, hn, he, hws, rfl⟩
  · obtain rfl : ext = rest := by
      rw [decode_of_noExt h4 hj hn] at h
      injection h with h
      exact (Prod.mk.inj h).2
    have hnil : i.extList = [] := List.eq_nil_of_length_eq_zero hn
    have hwf := hwf 0 0
    rw [i.withExt_of_noExt hn, hnil] at hwf
    refine ⟨hwf (by simp), ?_⟩
    rw [encode, hhead, beBytes_ofNat_beValue h4, hnil, List.flatMap_nil, List.append_nil]
  · obtain ⟨hlen, rfl, hlt⟩ := takeExt_eq_some (extBytes_le he) hws
    have hlist := Instr.extList_withExt_getD (hlen.trans hn.symm)
    refine ⟨hwf _ _ fun v hv => extWordOk_iff.mpr ⟨e, he, hlt v (hlist ▸ hv)⟩, ?_⟩
    rw [encode, encodeHead_withExt, hhead, beBytes_ofNat_beValue h4, hlist, he, List.append_assoc]
    rfl

/-- Bytes that are the encoding of a well-formed instruction decode to it, with nothing left. -/
theorem decode_eq_ok_of_encode_eq {p : Params} {i : Instr} {bs : List Byte} (hwf : i.wf p = true)
    (h : encode p i = bs) : decode p bs = .ok (i, []) := by
  rw [← h, ← (encode p i).append_nil]
  exact decodeOfEncode p i [] hwf

/-- Settles O2: each word is the encoding of its instruction. -/
theorem sampleOpcodeWords : Obligations.SampleOpcodeWords := by
  refine ⟨?_, ?_, ?_, ?_, ?_, ?_, ?_, ?_, ?_, ?_, ?_, ?_, ?_⟩ <;> exact decode_eq_ok_of_encode_eq rfl rfl

/-! ### The decode faults (rules R143, R144, R146) -/

/-- A byte that is no Register ID names no register (rule R146). -/
theorem regOfId_eq_none {b : Byte} (h : b.toNat % 4 ≠ 0 ∨ 0x6C < b.toNat) : regOfId b = none := by
  rw [← Option.not_isSome_iff_eq_none, Machine.regOfId_isSome_iff]
  omega

theorem ne_zero_of_regOfId {b : Byte} (h : regOfId b = none) : b ≠ 0#8 := by
  rintro rfl
  cases h

theorem byte_toNat_eq_zero {b : Byte} : b.toNat = 0 ↔ b = 0#8 :=
  ⟨fun h => BitVec.eq_of_toNat_eq h, fun h => h ▸ rfl⟩

/-- Bits that are nonzero where the format of the opcode word has zeros (rule R144, log entry 18). -/
def NonzeroFormatBits (o : FieldOrder) (w : OpWord) : Prop :=
  let xx := (opByte w 2).toNat
  let yy := (opByte w 1).toNat
  let zz := (opByte w 0).toNat
  opByte w 3 ≠ 0 ∨ (zz = 0x02 ∧ yy ≠ 0) ∨ (zz ∈ [0x06, 0x07, 0x0B] ∧ xx ≠ 0) ∨
    (zz ∈ [0x08, 0x0D, 0x0E] ∧ (xx ≠ 0 ∨ yy ≠ 0)) ∨ (o = .examples ∧ zz = 0x01 ∧ xx ≠ 0 ∧ yy = 0)

section
variable {p : Params} {w : OpWord} {xx yy : Byte}

/-- An Instruction ID no instruction has (rule R143). -/
theorem decodeHead_of_unknownId (h : (opByte w 0).toNat = 0 ∨ 0x0E < (opByte w 0).toNat) :
    decodeHead p w = .error .illegalInstruction := by
  unfold decodeHead
  split
  · rfl
  · split
    case h_15 => rfl
    all_goals omega

theorem decodeHead_of_nonzeroFormatBits (h : NonzeroFormatBits p.fieldOrder w) :
    decodeHead p w = .error .illegalInstruction := by
  rcases h with h3 | ⟨hz, hy⟩ | ⟨hz, hx⟩ | ⟨hz, hxy⟩ | ⟨ho, hz, hx, hy⟩
  · rw [decodeHead, if_pos h3]
  · simp [decodeHead, hz, mt byte_toNat_eq_zero.mpr hy]
  · simp only [List.mem_cons, List.not_mem_nil, or_false] at hz
    rcases hz with hz | hz | hz <;> simp [decodeHead, hz, mt byte_toNat_eq_zero.mpr hx]
  · have h0 : ¬(opByte w 2 = 0 ∧ opByte w 1 = 0) := fun ⟨hx, hy⟩ => by simp [hx, hy] at hxy
    simp only [List.mem_cons, List.not_mem_nil, or_false] at hz
    rcases hz with hz | hz | hz <;> simp only [decodeHead, hz, if_neg h0, ite_self]
  · have hy : opByte w 1 = 0#8 := BitVec.eq_of_toNat_eq hy
    simp [decodeHead, hz, mt byte_toNat_eq_zero.mpr hx, hy, ho]

/-- The four forms of CPR and CEB where a byte is no Register ID. -/
theorem fourForms_invalid {mm : Instr} {mr rm : Reg → Instr} {rr : Reg → Reg → Instr}
    (h : regOfId yy = none ∨ regOfId xx = none) :
    (if yy = 0#8 then if xx = 0#8 then .ok mm else withReg xx mr
      else if xx = 0#8 then withReg yy rm else withRegs p xx yy rr) = .error .badRegister := by
  by_cases hy : yy = 0#8
  · have hbad := h.resolve_left fun hn => ne_zero_of_regOfId hn hy
    rw [if_pos hy, if_neg (ne_zero_of_regOfId hbad), withReg_invalid hbad]
  by_cases hx : xx = 0#8
  · rw [if_neg hy, if_pos hx, withReg_invalid (h.resolve_right fun hn => ne_zero_of_regOfId hn hx)]
  · rw [if_neg hy, if_neg hx, withRegs_invalid h.symm]

/-- The two forms of JMP and CALL where the byte of the source is no Register ID. -/
theorem twoForms_invalid {mm : Instr} {rm : Reg → Instr} (hx : xx = 0#8) (h : regOfId yy = none) :
    (if xx ≠ 0#8 then .error .illegalInstruction else if yy = 0#8 then .ok mm else withReg yy rm) =
      .error .badRegister := by
  rw [if_neg (not_not.mpr hx), if_neg (ne_zero_of_regOfId h), withReg_invalid h]

/-- A row of rule R140 with a byte in a register slot that is no Register ID (rule R146). -/
theorem decodeHead_of_invalidId (hlow : 1 ≤ (opByte w 0).toNat) (hhigh : (opByte w 0).toNat ≤ 0x0E)
    (hrow : ¬NonzeroFormatBits p.fieldOrder w)
    (hbad : (opByte w 0).toNat ≠ 0x0B ∧ regOfId (opByte w 1) = none ∨ regOfId (opByte w 2) = none) :
    decodeHead p w = .error .badRegister := by
  simp only [NonzeroFormatBits, ne_eq, byte_toNat_eq_zero, not_or, not_and, not_not] at hrow
  obtain ⟨h3, hcpvl, hzeroX, hzeroXY, hcpvr⟩ := hrow
  rw [decodeHead, if_neg (not_not.mpr h3)]
  clear h3
  generalize opByte w 2 = xx at *
  generalize opByte w 1 = yy at *
  generalize (opByte w 0).toNat = zz at *
  have hxy : regOfId yy = none ∨ regOfId xx = none := hbad.imp_left And.right
  have hx : xx = 0#8 → regOfId yy = none := fun h0 => hxy.resolve_right fun hn => ne_zero_of_regOfId hn h0
  have hy : yy = 0#8 → regOfId xx = none := fun h0 => hxy.resolve_left fun hn => ne_zero_of_regOfId hn h0
  have hne : ¬(xx = 0#8 ∧ yy = 0#8) := fun h0 => ne_zero_of_regOfId (hx h0.1) h0.2
  split
  next => -- CPVR
    split
    · next h0 => exact withReg_invalid (hx h0)
    next h0 =>
    rw [if_neg fun h => hcpvr h.1 rfl h0 h.2]
    exact withRegs_invalid hxy.symm
  next => -- CPVL
    have h0 := hcpvl rfl
    exact (if_neg (not_not.mpr h0)).trans ((if_neg (ne_zero_of_regOfId (hy h0))).trans (withReg_invalid (hy h0)))
  next => -- CPR
    exact fourForms_invalid hxy
  next => -- CPRR
    exact withRegs_invalid hxy.symm
  next => -- CMP
    exact withRegs_invalid hxy.symm
  next => -- JMP
    exact twoForms_invalid (hzeroX (by decide)) (hx (hzeroX (by decide)))
  next => -- CALL
    exact twoForms_invalid (hzeroX (by decide)) (hx (hzeroX (by decide)))
  next => -- RET
    exact absurd (hzeroXY (by decide)) hne
  next => -- ARTH
    exact withRegs_invalid hxy.symm
  next => -- LGIC
    exact withRegs_invalid hxy.symm
  next => -- INTR
    have hnone : regOfId xx = none := hbad.resolve_left fun h => h.1 rfl
    exact absurd (hzeroX (by decide)) (ne_zero_of_regOfId hnone)
  next => -- CEB
    exact fourForms_invalid hxy
  next => -- NOP
    exact absurd (hzeroXY (by decide)) hne
  next => -- LTSK
    exact absurd (hzeroXY (by decide)) hne
  next => interval_cases zz <;> contradiction

end

namespace Machine

section
variable {s s1 : State} {w : OpWord}

/-- A fetch leaves the parameters, whatever it reads. -/
theorem fetchValue_params {a n v : Nat} (h : fetchValue a n s = .ok v s1) : s1.params = s.params :=
  ((memRead_all (keepsLookup_sameButHidden s) a n 4 .exec (SameButHidden.same s)).of_ok h).params

/-- A fetched opcode word that is no instruction raises its fault (rules R143, R144, R146). -/
theorem fetchInstr_of_decodeHead_error {f : ArchFault} {e : DecodeError}
    (hf : fetchValue (s.reg .rip).toNat 4 s = .ok w.toNat s1) (hd : decodeHead s.params w = .error e)
    (he : e = .illegalInstruction ∧ f = .illegalInstruction ∨ e = .badRegister ∧ f = .badRegisterReference) :
    fetchInstr s = .raise ⟨f, none⟩ s1 := by
  simp only [fetchInstr, hf, Res.bind_ok, BitVec.ofNat_toNat, BitVec.setWidth_eq, fetchValue_params hf, hd]
  rcases he with ⟨rfl, rfl⟩ | ⟨rfl, rfl⟩ <;> rfl

/-- The step then takes the fault with RIP at the word (rule R384). -/
theorem step_of_decodeHead_error {f : ArchFault} {e : DecodeError} (hr : runsNext s)
    (hf : fetchValue ((arrivals s).reg .rip).toNat 4 (arrivals s) = .ok w.toNat s1)
    (hd : decodeHead s.params w = .error e)
    (he : e = .illegalInstruction ∧ f = .illegalInstruction ∨ e = .badRegister ∧ f = .badRegisterReference) :
    step s = faultEntry ⟨f, none⟩ s1 := by
  rw [← arrivals_params s] at hd
  rw [step_of_runsNext hr, runInstr, fetchInstr_of_decodeHead_error hf hd he]

end

/-- Settles O5: both clauses are decode errors of the fetched word, which the step takes as faults. -/
theorem decodeFaults : Obligations.DecodeFaults := by
  intro s s1 w hr hf xx yy zz noRow badId
  refine ⟨fun hid => ?_, fun hlow hhigh hrow hbad => ?_⟩
  · exact step_of_decodeHead_error hr hf (decodeHead_of_unknownId hid) (.inl ⟨rfl, rfl⟩)
  · have hslots := hbad.imp (And.imp_right regOfId_eq_none) regOfId_eq_none
    exact step_of_decodeHead_error hr hf (decodeHead_of_invalidId hlow hhigh hrow hslots) (.inr ⟨rfl, rfl⟩)

/-- Settles O6: such a word is a decode error (`decodeHead_of_nonzeroFormatBits`). -/
theorem nonZeroFormatBits : Obligations.NonZeroFormatBits := fun _ _ _ hr hf h =>
  step_of_decodeHead_error hr hf (decodeHead_of_nonzeroFormatBits h) (.inl ⟨rfl, rfl⟩)

end Machine

end Sys2Proof

/-! SUPPORT. The RFP operands that the copies and LGIC refuse (rules R173, R228, U3): in each meaning the operand test
stands before the first access and the register write. -/

namespace Sys2Proof.Machine

section
variable {s : State} {rs rt : Reg}

/-- A meaning that refuses as soon as its next address is known. A form without extension words knows it without
EXT_BYTES (rule R137). -/
theorem finish_nextPc_refuse (i : Instr) {r : Refusal} {k : Word → State → Res Unit}
    (hn : i.extWords = 0 ∨ extKnown s) (hk : k (nextAddress s i) s = .refuse r) :
    finish ((nextPc i.extWords s).bind k) = .refused r := by
  have hbind : (nextPc i.extWords s).bind k = k (nextAddress s i) s := by
    rcases hn with h0 | he
    · rw [h0, nextPc_zero_bind s i h0]
    · exact nextPc_bind i.extWords i rfl he k
  rw [hbind, hk]
  rfl

/-! ### One RFP operand (rule R173) -/

theorem exec_cpvrFrm_rfp (he : extKnown s) (hs : isRfp rs = true) (n : Word) :
    exec (.cpvrFrm rs n) s = .refused .fpOperand :=
  finish_nextPc_refuse (.cpvrFrm rs n) (.inr he) (if_pos hs)

theorem exec_cprFrm_rfp (he : extKnown s) (hs : isRfp rs = true) (n : Word) :
    exec (.cprFrm rs n) s = .refused .fpOperand :=
  finish_nextPc_refuse (.cprFrm rs n) (.inr he) (if_pos hs)

theorem exec_cprFmr_rfp (he : extKnown s) (ht : isRfp rt = true) (n : Word) :
    exec (.cprFmr n rt) s = .refused .fpOperand :=
  finish_nextPc_refuse (.cprFmr n rt) (.inr he) (if_pos ht)

/-! ### An RFP register in either position (rules R173, R228) -/

theorem exec_cprFrr_rfp (h : (isRfp rs || isRfp rt) = true) : exec (.cprFrr rs rt) s = .refused .fpOperand :=
  finish_nextPc_refuse (.cprFrr rs rt) (.inl rfl) (if_pos h)

theorem exec_cprr_rfp (h : (isRfp rs || isRfp rt) = true) : exec (.cprr rs rt) s = .refused .fpOperand :=
  finish_nextPc_refuse (.cprr rs rt) (.inl rfl) (if_pos h)

/-- LGIC checks its control word before its operands (rule R228). -/
theorem exec_lgic_rfp (h : (isRfp rs || isRfp rt) = true) (hc : checkRlgic s.params (s.reg .rlgic) = .valid) :
    exec (.lgic rs rt) s = .refused .fpOperand :=
  finish_nextPc_refuse (.lgic rs rt) (.inl rfl) (by simp only [hc]; exact if_pos h)

end

/-- Settles O23: each form meets its operand test with the RFP register in a position that the test names. -/
theorem rfpOperandsRefused : Obligations.RfpOperandsRefused := by
  refine fun s rs rt n => ⟨fun hs he => ⟨exec_cpvrFrm_rfp he hs n, exec_cprFrm_rfp he hs n⟩,
    fun ht he => exec_cprFmr_rfp he ht n, fun h => ?_⟩
  have hor : (isRfp rs || isRfp rt) = true := (Bool.or_eq_true _ _).mpr h
  exact ⟨exec_cprFrr_rfp hor, exec_cprr_rfp hor, exec_lgic_rfp hor⟩

end Sys2Proof.Machine

/-! SUPPORT. Comparison and control flow: what CMP leaves in RCMP and where it does not compare (rule R191), JMP (rule
R193), and CALL with the RET that undoes it (rules R196, R198). -/

namespace Sys2Proof.Machine

/-! ### The check of RCMP (rule R191) -/

theorem checkRcmp_badValue {c : Word} (h : 32 ≤ c.toNat) : checkRcmp c = .badValue := by
  have hreserved : bitsFrom c 5 ≠ 0 := by simp only [bitsFrom]; omega
  exact if_pos hreserved

/-- Without a reserved bit, RCMP is valid where it selects a relation. -/
theorem checkRcmp_of_lt {c : Word} (h : c.toNat < 32) : checkRcmp c = if c.toNat < 2 then .unselected else .valid := by
  have hreserved : ¬bitsFrom c 5 ≠ 0 := by simp only [bitsFrom]; omega
  have hselect : bitField c 1 4 = 0 ↔ c.toNat < 2 := by simp only [bitField]; omega
  rw [checkRcmp, if_neg hreserved]
  exact if_congr hselect rfl rfl

theorem checkRcmp_valid {c : Word} (h2 : 2 ≤ c.toNat) (h : c.toNat < 32) : checkRcmp c = .valid := by
  rw [checkRcmp_of_lt h, if_neg (by omega)]

/-! ### The relations (rule R191) -/

theorem anyRelation_iff {c : Word} {holds : Relation → Bool} :
    anyRelation c holds = true ↔
      (c.getLsbD 1 = true ∧ holds .notEqual = true) ∨ (c.getLsbD 2 = true ∧ holds .greaterThan = true) ∨
        (c.getLsbD 3 = true ∧ holds .lesserThan = true) ∨ (c.getLsbD 4 = true ∧ holds .equal = true) := by
  simp only [anyRelation, Bool.or_eq_true, Bool.and_eq_true, or_assoc]

theorem signedValue_eq (w n : Nat) : signedValue w n = if 2 ^ (w - 1) ≤ n then (n : Int) - 2 ^ w else n := by
  rw [signedValue, ← ite_not]
  simp only [not_lt]

/-- The model's operand value is the one the statements name. -/
theorem operandValue_eq_operandAt (signed : Bool) (w : Nat) (v : Word) :
    operandValue signed w v = operandAt signed w v := by
  cases signed with
  | false => simp [operandValue, operandAt, lowBits]
  | true => simp [operandValue, operandAt, lowBits, signedValue_eq]

section
variable {p : Params} {a b : Word}

theorem intCompare_notEqual : intCompare p .notEqual a b = true ↔
    operandAt p.cmpSigned p.xlen a ≠ operandAt p.cmpSigned p.xlen b := by
  simp [intCompare, intRelation, operandValue_eq_operandAt]

theorem intCompare_greaterThan : intCompare p .greaterThan a b = true ↔
    operandAt p.cmpSigned p.xlen a > operandAt p.cmpSigned p.xlen b := by
  simp [intCompare, intRelation, operandValue_eq_operandAt]

theorem intCompare_lesserThan : intCompare p .lesserThan a b = true ↔
    operandAt p.cmpSigned p.xlen a < operandAt p.cmpSigned p.xlen b := by
  simp [intCompare, intRelation, operandValue_eq_operandAt]

theorem intCompare_equal : intCompare p .equal a b = true ↔
    operandAt p.cmpSigned p.xlen a = operandAt p.cmpSigned p.xlen b := by
  simp [intCompare, intRelation, operandValue_eq_operandAt]

end

/-! ### What a comparison leaves (rule R191) -/

theorem withBit_zero_true (v : Word) : withBit v 0 true = v ||| 1#64 := rfl

theorem withBit_zero_false (v : Word) : withBit v 0 false = v &&& ~~~1#64 := rfl

theorem withBit_zero_getLsbD_zero (v : Word) (b : Bool) : (withBit v 0 b).getLsbD 0 = b := by
  cases b with
  | true => simp [withBit_zero_true]
  | false => simp [withBit_zero_false]

theorem withBit_zero_getLsbD_pos (v : Word) (b : Bool) {k : Nat} (hk : 1 ≤ k) :
    (withBit v 0 b).getLsbD k = v.getLsbD k := by
  have hone : (1#64).getLsbD k = false := by simp [BitVec.getLsbD_one, Nat.ne_of_gt hk]
  cases b with
  | true => rw [withBit_zero_true, BitVec.getLsbD_or, hone, Bool.or_false]
  | false =>
    rcases Nat.lt_or_ge k 64 with h | h
    · rw [withBit_zero_false, BitVec.getLsbD_and, BitVec.getLsbD_not, hone, decide_eq_true h, Bool.not_false,
        Bool.and_true, Bool.and_true]
    · rw [BitVec.getLsbD_of_ge _ _ h, BitVec.getLsbD_of_ge _ _ h]

theorem withBit_zero_lt {v : Word} {n : Nat} (b : Bool) (hn : 1 ≤ n) (h : v.toNat < 2 ^ n) :
    (withBit v 0 b).toNat < 2 ^ n := by
  cases b with
  | true =>
    rw [withBit_zero_true, BitVec.toNat_or]
    exact Nat.or_lt_two_pow h (Nat.one_lt_two_pow (by omega))
  | false =>
    rw [withBit_zero_false, BitVec.toNat_and]
    exact Nat.and_le_left.trans_lt h

section
variable {s : State} {rs rt : Reg}

/-- Bit 0 of RCMP takes the selected relations, OR-ed, and nothing else changes but RIP. -/
theorem compareResult_ends {i : Instr} (holds : Relation → Bool) (hc : (s.reg .rcmp).toNat < 32) :
    ∃ t, finish (compareResult holds (nextAddress s i) s) = .next t ∧
      ((t.reg .rcmp).getLsbD 0 = true ↔
        ((s.reg .rcmp).getLsbD 1 = true ∧ holds .notEqual = true) ∨
          ((s.reg .rcmp).getLsbD 2 = true ∧ holds .greaterThan = true) ∨
          ((s.reg .rcmp).getLsbD 3 = true ∧ holds .lesserThan = true) ∨
          ((s.reg .rcmp).getLsbD 4 = true ∧ holds .equal = true)) ∧
      (∀ k, 1 ≤ k → (t.reg .rcmp).getLsbD k = (s.reg .rcmp).getLsbD k) ∧ t.reg .rip = nextAddress s i ∧
      Frame [.rcmp, .rip] [] s t ∧ t.hidden = s.hidden := by
  have hx := xlen_ge s.params
  have hlt : (s.reg .rcmp).toNat < 2 ^ s.params.xlen :=
    hc.trans_le (Nat.pow_le_pow_right (n := 2) (i := 5) (by decide) (by omega))
  refine ⟨_, rfl, ?_⟩
  rw [State.reg_setReg_other (r := .rip) (q := .rcmp) _ _ (by decide), State.reg_setReg_same,
    toWord_of_lt _ _ (withBit_zero_lt _ (by omega) hlt)]
  refine ⟨?_, fun k hk => withBit_zero_getLsbD_pos _ _ hk, ?_,
    frame_setReg_rip (SameButHidden.same s) .rcmp _ _ s.mem [] fun _ _ => rfl, ?_⟩
  · rw [withBit_zero_getLsbD_zero, anyRelation_iff]
  · rw [State.reg_setReg_same]
    exact toWord_nextAddress s i
  · rw [State.setReg_hidden _ _ (by decide), State.setReg_hidden _ _ (by decide)]

/-! ### CMP, after the check of RCMP -/

theorem exec_cmp_badValue (h : checkRcmp (s.reg .rcmp) = .badValue) :
    exec (.cmp rs rt) s = faultEntry ⟨.badRegisterValue, none⟩ s := by
  change finish ((nextPc 0 s).bind _) = _
  rw [nextPc_zero_bind s (.cmp rs rt) rfl]
  simp only [h]
  rfl

theorem exec_cmp_unselected (h : checkRcmp (s.reg .rcmp) = .unselected) :
    exec (.cmp rs rt) s = .refused .cmpNoRelation :=
  finish_nextPc_refuse (.cmp rs rt) (.inl rfl) (by simp only [h])

theorem exec_cmp_mixed (h : checkRcmp (s.reg .rcmp) = .valid) (hne : isRfp rs ≠ isRfp rt) :
    exec (.cmp rs rt) s = .refused .mixedFpOperands := by
  refine finish_nextPc_refuse (.cmp rs rt) (.inl rfl) ?_
  cases hs : isRfp rs with
  | false =>
    have ht : isRfp rt = true := by simpa [hs] using hne
    simp only [h, ht]
  | true =>
    have ht : isRfp rt = false := by simpa [hs] using hne
    simp only [h, ht]

theorem exec_cmp_integers (h : checkRcmp (s.reg .rcmp) = .valid) (hs : isRfp rs = false) (ht : isRfp rt = false) :
    exec (.cmp rs rt) s = finish (compareResult (fun r => intCompare s.params r (s.reg rs) (s.reg rt))
      (nextAddress s (.cmp rs rt)) s) := by
  change finish ((nextPc 0 s).bind _) = _
  rw [nextPc_zero_bind s (.cmp rs rt) rfl]
  simp only [h, hs, ht]

theorem exec_cmp_floats (h : checkRcmp (s.reg .rcmp) = .valid) (hs : isRfp rs = true) (ht : isRfp rt = true) :
    exec (.cmp rs rt) s = finish (compareResult
      (fun r => Config.fpRelation s.params.variant r (s.reg rs) (s.reg rt)) (nextAddress s (.cmp rs rt)) s) := by
  change finish ((nextPc 0 s).bind _) = _
  rw [nextPc_zero_bind s (.cmp rs rt) rfl]
  simp only [h, hs, ht]

end

/-- Settles O24: the comparison of `exec_cmp_integers`, its relations read as those of the operands' values. -/
theorem cmpIntegers : Obligations.CmpIntegers := by
  intro s rs rt hs ht h2 hc _ _
  rw [exec_cmp_integers (checkRcmp_valid h2 hc) hs ht]
  simpa only [intCompare_notEqual, intCompare_greaterThan, intCompare_lesserThan, intCompare_equal] using
    compareResult_ends (i := .cmp rs rt) (fun r => intCompare s.params r (s.reg rs) (s.reg rt)) hc

/-- Settles O25: the comparison of `exec_cmp_floats`, whatever the FP configuration. -/
theorem cmpFloats : Obligations.CmpFloats := by
  intro s rs rt hs ht h2 hc
  rw [exec_cmp_floats (checkRcmp_valid h2 hc) hs ht]
  exact compareResult_ends _ hc

/-- Settles O26: RCMP is checked first, then the classes of the operands. -/
theorem cmpStops : Obligations.CmpStops := by
  refine fun s rs rt => ⟨fun hbad => ?_, fun hlow => ?_, fun h2 hc hne => ?_⟩
  · exact exec_cmp_badValue (checkRcmp_badValue hbad)
  · exact exec_cmp_unselected (by rw [checkRcmp_of_lt (by omega), if_pos hlow])
  · exact exec_cmp_mixed (checkRcmp_valid h2 hc) hne

/-! ### JMP (rule R193) -/

section
variable {s : State}

theorem exec_jmpFm (he : extKnown s) (n : Word) :
    exec (.jmpFm n) s = finish (jumpTo n (nextAddress s (.jmpFm n)) s) :=
  congrArg finish (nextPc_bind 1 (.jmpFm n) rfl he _)

theorem exec_jmpFr (s : State) (rs : Reg) :
    exec (.jmpFr rs) s = finish (jumpTo (s.reg rs) (nextAddress s (.jmpFr rs)) s) :=
  congrArg finish (nextPc_zero_bind s (.jmpFr rs) rfl fun next s => jumpTo (s.reg rs) next s)

/-- RIP takes the target or the next address, by bit 0 of RCMP, and nothing else changes. -/
theorem jumpTo_ends {target : Word} {i : Instr} (hf : fits s.params target = true) :
    ∃ t, finish (jumpTo target (nextAddress s i) s) = .next t ∧
      t.reg .rip = (if (s.reg .rcmp).getLsbD 0 then target else nextAddress s i) ∧
      Frame [.rip] [] s t ∧ t.hidden = s.hidden := by
  refine ⟨_, rfl, ?_, frame_setRip (SameButHidden.same s) _ s.mem [] fun _ _ => rfl, State.setReg_hidden _ _ (by decide)⟩
  rw [State.reg_setReg_same]
  split
  · exact toWord_of_lt _ _ ((fits_iff _ _).mp hf)
  · exact toWord_nextAddress s i

end

/-- Settles O27: both forms are `jumpTo`. -/
theorem jumpIfCompareBit : Obligations.JumpIfCompareBit := by
  refine fun s => ⟨fun n he hf => ?_, fun rs hf => ?_⟩
  · rw [exec_jmpFm he]
    exact jumpTo_ends hf
  · rw [exec_jmpFr]
    exact jumpTo_ends hf

/-! ### CALL (rule R196) -/

section
variable {s s1 : State} {target : Word}

theorem exec_callFm (he : extKnown s) (n : Word) :
    exec (.callFm n) s = finish (callTo n (nextAddress s (.callFm n)) s) :=
  congrArg finish (nextPc_bind 1 (.callFm n) rfl he _)

theorem exec_callFr (s : State) (rs : Reg) :
    exec (.callFr rs) s = finish (callTo (s.reg rs) (nextAddress s (.callFr rs)) s) :=
  congrArg finish (nextPc_zero_bind s (.callFr rs) rfl _)

theorem callTo_eq {next : Word} {addrs : List Nat}
    (h : resolve (s.reg .rra).toNat s.params.wb s.params.wb .ras s = .ok addrs s1) :
    callTo target next s = .ok () ((({ s1 with mem := s1.mem.writeAll addrs (beBytes s.params.wb next.toNat) } :
      State).setReg .rra (toWord s.params ((s.reg .rra).toNat + s.params.wb))).setReg .rip target) := by
  obtain ⟨hs, -, -⟩ := resolve_ok h
  rw [callTo, storeWord_eq h, Res.bind_ok, State.reg_withMem, hs.reg, hs.params]

/-- The slot at RRA resolves: the next address is stored there, RRA grows by WB, and RIP takes the target's XLEN bits. -/
theorem callTo_ok {next : Word} {addrs : List Nat}
    (h : resolve (s.reg .rra).toNat s.params.wb s.params.wb .ras s = .ok addrs s1) :
    ∃ t, finish (callTo target next s) = .next t ∧ bytesAre t addrs s.params.wb next.toNat ∧
      (t.reg .rra).toNat = ((s.reg .rra).toNat + s.params.wb) % 2 ^ s.params.xlen ∧
      t.reg .rip = toWord s.params target.toNat ∧ Frame [.rra, .rip] addrs s t ∧ t.hidden = s1.hidden := by
  obtain ⟨hs, hlen, -⟩ := resolve_ok h
  refine ⟨_, congrArg finish (callTo_eq h), fun hn => ?_, ?_, ?_, ?_, ?_⟩
  · exact Memory.map_read?_writeAll s1.mem hn (by rw [hlen, beBytes_length])
  · rw [State.reg_setReg_other _ _ (by decide), State.reg_setReg_same, toWord_toNat, toWord_toNat, hs.params,
      Nat.mod_mod]
  · rw [State.reg_setReg_same, State.setReg_params, hs.params]
  · exact frame_setReg_rip hs .rra _ _ _ addrs fun x hx => by rw [Memory.read?_writeAll_other _ _ _ hx, hs.mem]
  · rw [State.setReg_hidden _ _ (by decide), State.setReg_hidden _ _ (by decide)]

/-- The slot at RRA does not resolve: the fault is taken before RRA or RIP is written. -/
theorem callTo_raise {next : Word} {tr : Trap}
    (h : resolve (s.reg .rra).toNat s.params.wb s.params.wb .ras s = .raise tr s1) :
    finish (callTo target next s) = faultEntry tr s1 ∧ SameButHidden s s1 :=
  ⟨by simp [callTo, storeWord_raise h, finish], resolve_raise h⟩

end

/-- Settles O28: both forms are `callTo`, and its two outcomes are the two clauses. -/
theorem callPushesNext : Obligations.CallPushesNext := by
  intro s i target hf hi
  have hcall : exec i s = finish (callTo target (nextAddress s i) s) := by
    rcases hi with ⟨he, rfl⟩ | ⟨rs, rfl, rfl⟩
    · exact exec_callFm he target
    · exact exec_callFr s rs
  rw [hcall]
  refine ⟨fun addrs s1 h => ?_, fun tr s1 h => callTo_raise h⟩
  have hends := callTo_ok (target := target) (next := nextAddress s i) h
  rwa [toWord_of_lt _ _ ((fits_iff _ _).mp hf)] at hends

/-! ### RET after CALL (rules R196, R198) -/

/-- Where RRA has grown by WB, RET pops the slot RRA pointed at. -/
theorem popAddress_of_advanced {s t : State} (hp : t.params = s.params) (hf : fits s.params (s.reg .rra) = true)
    (h : (t.reg .rra).toNat = ((s.reg .rra).toNat + s.params.wb) % 2 ^ s.params.xlen) :
    popAddress t = s.reg .rra := by
  have hlt := (fits_iff _ _).mp hf
  have hwb := wb_lt_two_pow_xlen s.params
  apply BitVec.eq_of_toNat_eq
  calc (popAddress t).toNat
      = (((s.reg .rra).toNat + s.params.wb) % 2 ^ s.params.xlen + (2 ^ s.params.xlen - s.params.wb))
          % 2 ^ s.params.xlen := by rw [popAddress, toWord_toNat, hp, h, Nat.add_sub_assoc hwb.le]
    _ = ((s.reg .rra).toNat + 2 ^ s.params.xlen) % 2 ^ s.params.xlen := by
        rw [Nat.mod_add_mod, show (s.reg .rra).toNat + s.params.wb + (2 ^ s.params.xlen - s.params.wb)
          = (s.reg .rra).toNat + 2 ^ s.params.xlen by omega]
    _ = (s.reg .rra).toNat := by rw [Nat.add_mod_right, Nat.mod_eq_of_lt hlt]

/-- Settles O30: CALL leaves the next address in the slot that RET then pops. -/
theorem retUndoesCall : Obligations.RetUndoesCall := by
  intro s rs hoff hf halign hin
  obtain ⟨t, hcall, hbytes, hrra, -, hframe, -⟩ :=
    callTo_ok (target := s.reg rs) (next := nextAddress s (.callFr rs)) (resolve_pagingOff hoff halign hin)
  have hpop : popAddress t = s.reg .rra := popAddress_of_advanced hframe.params hf hrra
  have hoff' : t.pagingOn = false := by rw [State.pagingOn, hframe.regs .rst (by decide)]; exact hoff
  have hslot : resolve (popAddress t).toNat t.params.wb t.params.wb .ras t =
      .ok (List.range' (s.reg .rra).toNat s.params.wb) t := by
    rw [hpop, hframe.params]
    exact resolve_pagingOff hoff' halign (by rw [hframe.params]; exact hin)
  obtain ⟨u, hret, hrip, hrra', hframe', -⟩ := exec_ret_ok hslot (hbytes List.nodup_range')
  refine ⟨t, u, by rw [exec_callFr]; exact hcall, hret, ?_, fun r hr => ?_, fun a => hframe'.mem a (by simp)⟩
  · apply BitVec.eq_of_toNat_eq
    rw [hrip]
    exact beValue_beBytes (by rw [pow_wb]; exact toWord_lt _ _)
  · by_cases hr' : r = .rra
    · rw [hr', hrra', hpop]
    · rw [hframe'.regs r (by simp [hr, hr']), hframe.regs r (by simp [hr, hr'])]

end Sys2Proof.Machine

/-! SUPPORT. The control words of ARTH and LGIC: their bit fields, the width flags they share (rule R215), when they are
valid, and what their instructions do when they are not (rules R212, R228). -/

namespace Sys2Proof.Machine

/-! ### Bit fields -/

theorem getLsbD_eq_testBit_bitField (v : Word) (lo : Nat) {n i : Nat} (hi : i < n) :
    v.getLsbD (lo + i) = (bitField v lo n).testBit i := by
  rw [bitField, Nat.testBit_mod_two_pow, Nat.testBit_div_two_pow, BitVec.testBit_toNat, decide_eq_true hi,
    Bool.true_and, Nat.add_comm]

theorem getLsbD_eq_testBit_bitsFrom (v : Word) (lo i : Nat) : v.getLsbD (lo + i) = (bitsFrom v lo).testBit i := by
  rw [bitsFrom, Nat.testBit_div_two_pow, BitVec.testBit_toNat, Nat.add_comm]

/-- Counting the set bits of a field tells whether two of them are set. -/
theorem one_lt_bitCount_iff (v : Word) (lo n : Nat) : 1 < bitCount v lo n ↔ twoSet v lo (lo + n) := by
  have hcard : bitCount v lo n = ((Finset.Ico lo (lo + n)).filter fun i => v.getLsbD i).card := by
    rw [← Nat.add_sub_cancel_left (n := lo) (m := n)]
    simp [bitCount, Finset.card, Finset.filter, Finset.Ico, LocallyFiniteOrder.finsetIco]
  rw [hcard, Finset.one_lt_card_iff]
  simp only [Finset.mem_filter, Finset.mem_Ico]
  constructor
  · rintro ⟨i, j, ⟨hi, hvi⟩, ⟨hj, hvj⟩, hne⟩
    rcases Nat.lt_or_gt_of_ne hne with hlt | hlt
    · exact ⟨i, j, hi.1, hlt, hj.2, hvi, hvj⟩
    · exact ⟨j, i, hj.1, hlt, hi.2, hvj, hvi⟩
  · rintro ⟨i, j, hlo, hlt, hhi, hvi, hvj⟩
    exact ⟨i, j, ⟨⟨hlo, by omega⟩, hvi⟩, ⟨⟨by omega, hhi⟩, hvj⟩, hlt.ne⟩

/-- In a field without two set bits, a bit that is set is the only one. -/
theorem getLsbD_eq_decide_of_not_twoSet {v : Word} {lo hi i j : Nat} (h : ¬twoSet v lo hi) (hv : v.getLsbD j = true)
    (hj : lo ≤ j ∧ j < hi) (hi : lo ≤ i ∧ i < hi) : v.getLsbD i = decide (i = j) := by
  rcases Nat.lt_trichotomy i j with hlt | rfl | hlt
  · rw [decide_eq_false hlt.ne]
    exact Bool.eq_false_iff.mpr fun hvi => h ⟨i, j, hi.1, hlt, hj.2, hvi, hv⟩
  · rw [decide_eq_true rfl, hv]
  · rw [decide_eq_false hlt.ne']
    exact Bool.eq_false_iff.mpr fun hvi => h ⟨j, i, hj.1, hlt, hi.2, hv, hvi⟩

/-- A field that is zero or a power of two does not have two set bits. -/
theorem not_twoSet_of_bitField {v : Word} {lo n : Nat} (h : bitField v lo n = 0 ∨ ∃ j, bitField v lo n = 2 ^ j) :
    ¬twoSet v lo (lo + n) := by
  rintro ⟨i, j, hlo, hlt, hhi, hvi, hvj⟩
  obtain ⟨a, rfl⟩ := Nat.exists_eq_add_of_le hlo
  obtain ⟨b, rfl⟩ := Nat.exists_eq_add_of_le (hlo.trans hlt.le)
  rw [getLsbD_eq_testBit_bitField v lo (n := n) (by omega)] at hvi hvj
  rcases h with h | ⟨k, h⟩
  · rw [h, Nat.zero_testBit] at hvi
    cases hvi
  · rw [h, Nat.testBit_two_pow, decide_eq_true_eq] at hvi hvj
    omega

/-! ### The width flags (rules R212, R215, R228) -/

section
variable {p : Params} {c : Word} {k : Nat}

theorem widthFlagsBad_iff (p : Params) (c : Word) : widthFlagsBad p c = true ↔
    c.toNat / 2 ^ 19 ≠ 0 ∨ (p.variant = .leg32 ∧ c.getLsbD 18 = true) ∨ twoSet c 16 19 := by
  simp only [widthFlagsBad, Bool.or_eq_true, Bool.and_eq_true, decide_eq_true_iff, one_lt_bitCount_iff, or_assoc]
  rfl

/-- The width flags stand above the other bits of a control word. -/
theorem exists_eq_mul_of_widthSelected {flags : Nat} (h : widthSelected p flags k) : ∃ f, flags = 2 ^ 16 * f := by
  rcases h with ⟨rfl, -⟩ | ⟨rfl, -⟩ | ⟨rfl, -⟩ | ⟨-, rfl, -⟩
  exacts [⟨0, rfl⟩, ⟨1, rfl⟩, ⟨2, rfl⟩, ⟨4, rfl⟩]

/-- The width flags as one number: none set, or one of the three. -/
theorem bitsFrom_of_widthSelected (h : widthSelected p (bitsFrom c 16 * 2 ^ 16) k) :
    (bitsFrom c 16 = 0 ∧ k = p.xlen) ∨ (bitsFrom c 16 = 1 ∧ k = 8) ∨ (bitsFrom c 16 = 2 ∧ k = 16) ∨
      (p.variant = .leg64 ∧ bitsFrom c 16 = 4 ∧ k = 32) := by
  rcases h with ⟨h, hk⟩ | ⟨h, hk⟩ | ⟨h, hk⟩ | ⟨hp, h, hk⟩
  · exact .inl ⟨by omega, hk⟩
  · exact .inr (.inl ⟨by omega, hk⟩)
  · exact .inr (.inr (.inl ⟨by omega, hk⟩))
  · exact .inr (.inr (.inr ⟨hp, by omega, hk⟩))

theorem flagWidth_eq (p : Params) (c : Word) : flagWidth p c =
    if (bitsFrom c 16).testBit 0 then 8 else if (bitsFrom c 16).testBit 1 then 16
    else if (bitsFrom c 16).testBit 2 then 32 else p.xlen := by
  simp only [flagWidth, ← getLsbD_eq_testBit_bitsFrom, Nat.reduceAdd]

theorem flagWidth_of_widthSelected (h : widthSelected p (bitsFrom c 16 * 2 ^ 16) k) : flagWidth p c = k := by
  rw [flagWidth_eq]
  rcases bitsFrom_of_widthSelected h with ⟨hn, rfl⟩ | ⟨hn, rfl⟩ | ⟨hn, rfl⟩ | ⟨-, hn, rfl⟩
  · rw [hn]; rfl
  · rw [hn]; rfl
  · rw [hn]; rfl
  · rw [hn]; rfl

theorem widthFlagsBad_of_widthSelected (h : widthSelected p (bitsFrom c 16 * 2 ^ 16) k) :
    widthFlagsBad p c = false := by
  have hn := bitsFrom_of_widthSelected h
  have hfield : bitField c 16 3 = bitsFrom c 16 := by
    simp only [bitField, bitsFrom] at hn ⊢
    omega
  rw [Bool.eq_false_iff, Ne, widthFlagsBad_iff]
  rintro (hhigh | ⟨hp, h18⟩ | htwo)
  · simp only [bitsFrom] at hn
    omega
  · rw [getLsbD_eq_testBit_bitsFrom c 16 2] at h18
    rcases hn with ⟨hn, -⟩ | ⟨hn, -⟩ | ⟨hn, -⟩ | ⟨hp', -⟩
    · simp [hn] at h18
    · simp [hn, Nat.testBit] at h18
    · simp [hn, Nat.testBit] at h18
    · rw [hp] at hp'
      cases hp'
  · refine not_twoSet_of_bitField (n := 3) ?_ htwo
    rw [hfield]
    rcases hn with ⟨hn, -⟩ | ⟨hn, -⟩ | ⟨hn, -⟩ | ⟨-, hn, -⟩
    · exact .inl hn
    · exact .inr ⟨0, hn⟩
    · exact .inr ⟨1, hn⟩
    · exact .inr ⟨2, hn⟩

theorem width_le_xlen (h : widthSelected p (bitsFrom c 16 * 2 ^ 16) k) : k ≤ p.xlen := by
  have hx := xlen_ge p
  rcases bitsFrom_of_widthSelected h with ⟨-, hk⟩ | ⟨-, hk⟩ | ⟨-, hk⟩ | ⟨-, -, hk⟩ <;> omega

theorem operandWidth_le_xlen (hk : k ≤ p.xlen) (r : Reg) : operandWidth p k r ≤ p.xlen := by
  rw [operandWidth]
  split
  · exact hk
  · exact le_rfl

/-! ### Validity (rules R212, R228) -/

/-- The bits that make RARTH a Bad Register Value. -/
def ArthInvalid (p : Params) (c : Word) : Prop :=
  c.toNat / 2 ^ 19 ≠ 0 ∨ (p.variant = .leg32 ∧ c.getLsbD 18 = true) ∨ twoSet c 16 19 ∨ twoSet c 0 5 ∨ twoSet c 8 16

/-- The bits that make RLGIC a Bad Register Value. -/
def LgicInvalid (p : Params) (g : Word) : Prop :=
  g.toNat / 2 ^ 19 ≠ 0 ∨ g.toNat / 2 ^ 8 % 2 ^ 8 ≠ 0 ∨ (p.variant = .leg32 ∧ g.getLsbD 18 = true) ∨
    twoSet g 16 19 ∨ twoSet g 1 8 ∨ (g.getLsbD 0 = true ∧ g.toNat / 2 ^ 4 % 2 ^ 4 ≠ 0)

theorem arthInvalid_iff : ArthInvalid p c ↔
    (widthFlagsBad p c = true ∨ 1 < bitCount c 0 5) ∨ 1 < bitCount c 8 8 := by
  rw [ArthInvalid, widthFlagsBad_iff, one_lt_bitCount_iff, one_lt_bitCount_iff]
  simp only [or_assoc, Nat.zero_add, Nat.reduceAdd]

theorem lgicInvalid_iff : LgicInvalid p c ↔
    ((widthFlagsBad p c = true ∨ bitField c 8 8 ≠ 0) ∨ 1 < bitCount c 1 7) ∨
      (c.getLsbD 0 = true ∧ bitField c 4 4 ≠ 0) := by
  rw [LgicInvalid, widthFlagsBad_iff, one_lt_bitCount_iff]
  simp only [bitField, Nat.reduceAdd]
  tauto

theorem checkRarth_badValue (h : ArthInvalid p c) : checkRarth p c = .badValue := by
  rw [arthInvalid_iff] at h
  exact if_pos (by simpa using h)

theorem checkRarth_of_not_arthInvalid (h : ¬ArthInvalid p c) :
    checkRarth p c = if c.toNat % 32 = 0 then .unselected else .valid := by
  rw [arthInvalid_iff] at h
  rw [checkRarth, if_neg (by simpa using h), bitField, Nat.pow_zero, Nat.div_one]
  rfl

theorem checkRarth_valid_iff : checkRarth p c = .valid ↔ ¬ArthInvalid p c ∧ c.toNat % 32 ≠ 0 := by
  by_cases h : ArthInvalid p c
  · simp [h, checkRarth_badValue h]
  · simp [h, checkRarth_of_not_arthInvalid h]

theorem checkRlgic_badValue (h : LgicInvalid p c) : checkRlgic p c = .badValue := by
  rw [lgicInvalid_iff] at h
  exact if_pos (by simpa using h)

theorem checkRlgic_of_not_lgicInvalid (h : ¬LgicInvalid p c) :
    checkRlgic p c = if c.toNat % 256 = 0 then .unselected else .valid := by
  rw [lgicInvalid_iff] at h
  rw [checkRlgic, if_neg (by simpa using h), bitField, Nat.pow_zero, Nat.div_one]
  rfl

/-- What a valid RARTH rules out. -/
theorem of_checkRarth_valid (h : checkRarth p c = .valid) :
    c.toNat < 2 ^ 19 ∧ ¬twoSet c 0 5 ∧ ¬twoSet c 8 16 := by
  obtain ⟨hvalid, -⟩ := checkRarth_valid_iff.mp h
  simp only [ArthInvalid, not_or] at hvalid
  obtain ⟨hhigh, -, -, hop, hext⟩ := hvalid
  exact ⟨by omega, hop, hext⟩

end

/-! ### Where ARTH and LGIC stop at their control words -/

section
variable {s : State} {rs rt : Reg}

theorem exec_arth_badValue (h : checkRarth s.params (s.reg .rarth) = .badValue) :
    exec (.arth rs rt) s = faultEntry ⟨.badRegisterValue, none⟩ s := by
  change finish ((nextPc 0 s).bind _) = _
  rw [nextPc_zero_bind s (.arth rs rt) rfl]
  simp only [h]
  rfl

theorem exec_arth_unselected (h : checkRarth s.params (s.reg .rarth) = .unselected) :
    exec (.arth rs rt) s = .refused .arthNoOperation :=
  finish_nextPc_refuse (.arth rs rt) (.inl rfl) (by simp only [h])

theorem exec_lgic_badValue (h : checkRlgic s.params (s.reg .rlgic) = .badValue) :
    exec (.lgic rs rt) s = faultEntry ⟨.badRegisterValue, none⟩ s := by
  change finish ((nextPc 0 s).bind _) = _
  rw [nextPc_zero_bind s (.lgic rs rt) rfl]
  simp only [h]
  rfl

theorem exec_lgic_unselected (h : checkRlgic s.params (s.reg .rlgic) = .unselected) :
    exec (.lgic rs rt) s = .refused .lgicNoOperation :=
  finish_nextPc_refuse (.lgic rs rt) (.inl rfl) (by simp only [h])

end

/-- Settles O33: each control word is invalid, selects nothing, or is valid, and its instruction asks that first. -/
theorem controlWords : Obligations.ControlWords := by
  intro s rs rt
  refine ⟨fun h => exec_arth_badValue (checkRarth_badValue h), fun h hsel => exec_arth_unselected ?_, fun h hsel => ?_,
    fun h => exec_lgic_badValue (checkRlgic_badValue h), fun h hsel => exec_lgic_unselected ?_, fun h hsel => ?_⟩
  · rw [checkRarth_of_not_arthInvalid h, if_pos hsel]
  · rw [checkRarth_of_not_arthInvalid h, if_neg hsel]
  · rw [checkRlgic_of_not_lgicInvalid h, if_pos hsel]
  · rw [checkRlgic_of_not_lgicInvalid h, if_neg hsel]

end Sys2Proof.Machine

/-! SUPPORT. ARTH (rules R210 to R226): what a valid RARTH selects, its two result flags, the exact integer results, and
the commit that ends it. -/

namespace Sys2Proof.Machine

/-! ### The two result flags of RARTH (rules R210, R211) -/

theorem getLsbD_withoutFlags (c : Word) (i : Nat) :
    (withoutFlags c).getLsbD i = (c.getLsbD i && !(decide (i = 6) || decide (i = 7))) := by
  have hmask : (0xC0#64) = BitVec.twoPow 64 6 ||| BitVec.twoPow 64 7 := by decide
  rcases Nat.lt_or_ge i 64 with h | h
  · rw [withoutFlags, hmask]
    simp only [BitVec.getLsbD_and, BitVec.getLsbD_not, BitVec.getLsbD_or, BitVec.getLsbD_twoPow, h]
    simp [eq_comm]
  · rw [BitVec.getLsbD_of_ge _ _ h, BitVec.getLsbD_of_ge _ _ h, Bool.false_and]

theorem withoutFlags_mod (c : Word) : (withoutFlags c).toNat % 2 ^ 6 = c.toNat % 2 ^ 6 := by
  refine Nat.eq_of_testBit_eq fun i => ?_
  rw [Nat.testBit_mod_two_pow, Nat.testBit_mod_two_pow, BitVec.testBit_toNat, BitVec.testBit_toNat,
    getLsbD_withoutFlags]
  by_cases h : i < 6
  · simp [h.ne, (h.trans (by decide : 6 < 7)).ne]
  · simp [h]

theorem withoutFlags_div (c : Word) : (withoutFlags c).toNat / 2 ^ 8 = c.toNat / 2 ^ 8 := by
  refine Nat.eq_of_testBit_eq fun i => ?_
  rw [Nat.testBit_div_two_pow, Nat.testBit_div_two_pow, BitVec.testBit_toNat, BitVec.testBit_toNat,
    getLsbD_withoutFlags]
  simp

theorem getLsbD_withBit (v : Word) {n k : Nat} (b : Bool) (hn : n < 64) (hk : k < 64) :
    (withBit v n b).getLsbD k = if k = n then b else v.getLsbD k := by
  cases b with
  | true =>
    rw [withBit_getLsbD v n k hn]
    by_cases h : k = n <;> simp [h]
  | false =>
    have hone : (1#64 <<< n).getLsbD k = decide (k = n) := by
      rw [← BitVec.twoPow_eq, BitVec.getLsbD_twoPow, decide_eq_true hn, Bool.true_and]
      exact decide_eq_decide.mpr eq_comm
    have hclear : withBit v n false = v &&& ~~~(1#64 <<< n) := rfl
    rw [hclear, BitVec.getLsbD_and, BitVec.getLsbD_not, hone, decide_eq_true hk]
    by_cases h : k = n <;> simp [h]

theorem getLsbD_withFlags (c : Word) (ovf unf : Bool) (k : Nat) : (withFlags c ovf unf).getLsbD k =
    (c.getLsbD k || (ovf && decide (k = 6)) || (unf && decide (k = 7))) := by
  have h6 : (0x40 : Word).getLsbD k = decide (k = 6) := by
    rw [show (0x40 : Word) = BitVec.twoPow 64 6 from rfl, BitVec.getLsbD_twoPow]
    simp [eq_comm]
  have h7 : (0x80 : Word).getLsbD k = decide (k = 7) := by
    rw [show (0x80 : Word) = BitVec.twoPow 64 7 from rfl, BitVec.getLsbD_twoPow]
    simp [eq_comm]
  have hbit : ∀ (b : Bool) (m : Word), (if b then m else 0).getLsbD k = (b && m.getLsbD k) := by
    intro b m
    cases b <;> simp
  rw [withFlags, BitVec.getLsbD_or, BitVec.getLsbD_or, hbit, hbit, h6, h7]

/-- ARTH clears both bits and sets those its result asks for. -/
theorem rarthAfter_eq (c : Word) (ovf unf : Bool) : rarthAfter c ovf unf = withFlags (withoutFlags c) ovf unf := by
  refine BitVec.eq_of_getLsbD_eq fun k hk => ?_
  rw [rarthAfter, getLsbD_withBit _ _ (by decide) hk, getLsbD_withBit _ _ (by decide) hk, getLsbD_withFlags,
    getLsbD_withoutFlags]
  by_cases h7 : k = 7
  · simp [h7]
  · by_cases h6 : k = 6
    · simp [h6]
    · simp [h6, h7]

theorem withFlags_false (c : Word) : withFlags c false false = c := by simp [withFlags]

theorem withoutFlags_lt {c : Word} {n : Nat} (h : c.toNat < 2 ^ n) : (withoutFlags c).toNat < 2 ^ n := by
  rw [withoutFlags, BitVec.toNat_and]
  exact Nat.and_le_left.trans_lt h

theorem withFlags_lt {c : Word} {n : Nat} (hn : 8 ≤ n) (h : c.toNat < 2 ^ n) (ovf unf : Bool) :
    (withFlags c ovf unf).toNat < 2 ^ n := by
  have h256 : 2 ^ 8 ≤ 2 ^ n := Nat.pow_le_pow_right (by decide) hn
  rw [withFlags, BitVec.toNat_or, BitVec.toNat_or]
  refine Nat.or_lt_two_pow (Nat.or_lt_two_pow h (lt_of_lt_of_le ?_ h256)) (lt_of_lt_of_le ?_ h256)
  · cases ovf <;> decide
  · cases unf <;> decide

/-! ### What a valid RARTH selects (rules R211, R213) -/

/-- The operation of each bit of RARTH. -/
def arthOpOfBit (op : Nat) : ArthOp :=
  match op with
  | 0 => .mul
  | 1 => .div
  | 2 => .sub
  | 3 => .add
  | _ => .mod

theorem arthOp_of_bit {c : Word} {op : Nat} (h : ¬twoSet c 0 5) (hop : op ≤ 4) (hbit : c.getLsbD op = true) :
    arthOp c = arthOpOfBit op := by
  have hsel : ∀ i, i ≤ 4 → c.getLsbD i = decide (i = op) := fun i hi =>
    getLsbD_eq_decide_of_not_twoSet h hbit ⟨by omega, by omega⟩ ⟨by omega, by omega⟩
  rw [arthOp, hsel 0 (by decide), hsel 1 (by decide), hsel 2 (by decide), hsel 3 (by decide)]
  interval_cases op <;> rfl

theorem arthOp_eq_div_iff {c : Word} (h : ¬twoSet c 0 5) : arthOp c = .div ↔ c.getLsbD 1 = true := by
  refine ⟨fun hdiv => ?_, fun hbit => arthOp_of_bit h (by decide) hbit⟩
  by_contra hbit
  rw [arthOp, if_neg hbit] at hdiv
  revert hdiv
  split_ifs <;> decide

/-- The registers that bits 15:8 of RARTH name. -/
abbrev extendedRegs : List Reg := [.ral1, .ral2, .ral3, .ral4, .rfp1, .rfp2, .rfp3, .rfp4]

theorem arthExtended_of_bit {c : Word} {j : Nat} {e : Reg} (h : ¬twoSet c 8 16) (he : extendedRegs[j]? = some e)
    (hbit : c.getLsbD (8 + j) = true) : arthExtended c = some e := by
  obtain ⟨hj, he⟩ := List.getElem?_eq_some_iff.mp he
  have hj : j < 8 := hj
  have hsel : ∀ i, 8 ≤ i → i < 16 → c.getLsbD i = decide (i = 8 + j) := fun i hlo hhi =>
    getLsbD_eq_decide_of_not_twoSet h hbit ⟨by omega, by omega⟩ ⟨hlo, hhi⟩
  rw [arthExtended, hsel 8 (by decide) (by decide), hsel 9 (by decide) (by decide), hsel 10 (by decide) (by decide),
    hsel 11 (by decide) (by decide), hsel 12 (by decide) (by decide), hsel 13 (by decide) (by decide),
    hsel 14 (by decide) (by decide), hsel 15 (by decide) (by decide), ← he]
  interval_cases j <;> rfl

theorem arthExtended_of_bitField_zero {c : Word} (h : bitField c 8 8 = 0) : arthExtended c = none := by
  have hclear : ∀ i, i < 8 → c.getLsbD (8 + i) = false := fun i hi => by
    rw [getLsbD_eq_testBit_bitField c 8 hi, h, Nat.zero_testBit]
  rw [arthExtended, hclear 0 (by decide), hclear 1 (by decide), hclear 2 (by decide), hclear 3 (by decide),
    hclear 4 (by decide), hclear 5 (by decide), hclear 6 (by decide), hclear 7 (by decide)]
  rfl

/-- RARTH selects operation `op`, signedness, the width `k` of RAL operands, and `ext` as extended operand bits. -/
structure ArthSelects (p : Params) (c : Word) (op : Nat) (signed : Bool) (k ext : Nat) : Prop where
  le : op ≤ 4
  operation : bitField c 0 5 = 2 ^ op
  sign : c.getLsbD 5 = signed
  extended : bitField c 8 8 = ext
  width : widthSelected p (bitsFrom c 16 * 2 ^ 16) k

/-- The fields of RARTH, read from its value without the two result flags. -/
theorem arthSelects_of_withoutFlags {p : Params} {c : Word} {op ext flags k : Nat} {signed : Bool} (hop : op ≤ 4)
    (hext : ext < 2 ^ 8) (hw : widthSelected p flags k)
    (h : (withoutFlags c).toNat = 2 ^ op + (if signed then 32 else 0) + (2 ^ 8 * ext + flags)) :
    ArthSelects p c op signed k ext := by
  have hpow : 2 ^ op ≤ 2 ^ 4 := Nat.pow_le_pow_right (by decide) hop
  have hlow := withoutFlags_mod c
  have hhigh := withoutFlags_div c
  rw [h] at hlow hhigh
  obtain ⟨f, rfl⟩ := exists_eq_mul_of_widthSelected hw
  have hsigned : (if signed then 32 else 0) = 32 * signed.toNat := by cases signed <;> rfl
  have hle := Bool.toNat_le signed
  rw [hsigned] at hlow hhigh
  generalize hm : 2 ^ op = m at hpow hlow hhigh
  have hfield : bitsFrom c 16 = f := by simp only [bitsFrom]; omega
  refine ⟨hop, ?_, ?_, ?_, ?_⟩
  · simp only [bitField, hm]; omega
  · have hbit : bitField c 5 1 = signed.toNat := by simp only [bitField]; omega
    rw [show 5 = 5 + 0 from rfl, getLsbD_eq_testBit_bitField c 5 (n := 1) (by decide), hbit]
    cases signed <;> rfl
  · simp only [bitField]; omega
  · rw [hfield, Nat.mul_comm]
    exact hw

section
variable {p : Params} {c : Word} {op k ext j : Nat} {signed : Bool}

theorem ArthSelects.not_twoSet (h : ArthSelects p c op signed k ext) : ¬twoSet c 0 5 :=
  not_twoSet_of_bitField (n := 5) (.inr ⟨op, h.operation⟩)

theorem ArthSelects.arthOp_eq (h : ArthSelects p c op signed k ext) : arthOp c = arthOpOfBit op := by
  refine arthOp_of_bit h.not_twoSet h.le ?_
  rw [← Nat.zero_add op, getLsbD_eq_testBit_bitField c 0 (n := 5) (Nat.lt_succ_of_le h.le), h.operation,
    Nat.testBit_two_pow_self]

theorem ArthSelects.checkRarth_valid (h : ArthSelects p c op signed k ext) (hext : ¬twoSet c 8 16) :
    checkRarth p c = .valid := by
  have hsel : bitField c 0 5 ≠ 0 := by rw [h.operation]; exact (Nat.two_pow_pos op).ne'
  rw [checkRarth_valid_iff, arthInvalid_iff, widthFlagsBad_of_widthSelected h.width, one_lt_bitCount_iff,
    one_lt_bitCount_iff]
  refine ⟨?_, by simpa [bitField] using hsel⟩
  simp [h.not_twoSet, hext]

end

/-! ### The exact integer result (rules R216 to R224) -/

theorem arthExact_of_exactResult {op : Nat} {a b r : Int} (h : exactResult op a b r) :
    arthExact (arthOpOfBit op) a b = some r := by
  rcases h with ⟨rfl, rfl⟩ | ⟨rfl, hb, rfl⟩ | ⟨rfl, rfl⟩ | ⟨rfl, rfl⟩ | ⟨rfl, hb, rfl⟩
  · rfl
  · exact if_neg hb
  · rfl
  · rfl
  · rw [Int.tmod_def]
    exact if_neg hb

theorem arthExact_zero {op : ArthOp} (h : op = .div ∨ op = .mod) (a : Int) : arthExact op a 0 = none := by
  rcases h with rfl | rfl <;> rfl

theorem operandAt_eq_zero {w : Nat} {v : Word} (h : v.toNat % 2 ^ w = 0) (signed : Bool) :
    operandAt signed w v = 0 := by
  have hpos := Nat.two_pow_pos (w - 1)
  rw [operandAt, h, if_neg (by omega)]
  rfl

theorem overflows_eq (signed : Bool) (w : Nat) (r : Int) :
    overflows signed w r = decide (if signed then (2 : Int) ^ (w - 1) ≤ r else (2 : Int) ^ w ≤ r) := by
  cases signed <;> rfl

theorem underflows_eq (signed : Bool) (w : Nat) (r : Int) :
    underflows signed w r = decide (if signed then r < -(2 : Int) ^ (w - 1) else r < 0) := by
  cases signed <;> rfl

/-- No result is both above and below the range of its width. -/
theorem not_overflows_and_underflows (signed : Bool) (w : Nat) (r : Int) :
    ¬(overflows signed w r = true ∧ underflows signed w r = true) := by
  rintro ⟨hovf, hunf⟩
  have hw : (0 : Int) < 2 ^ w := by positivity
  have hw' : (0 : Int) < 2 ^ (w - 1) := by positivity
  cases signed with
  | false =>
    have h1 : (2 : Int) ^ w ≤ r := of_decide_eq_true hovf
    have h2 : r < 0 := of_decide_eq_true hunf
    omega
  | true =>
    have h1 : (2 : Int) ^ (w - 1) ≤ r := of_decide_eq_true hovf
    have h2 : r < -(2 : Int) ^ (w - 1) := of_decide_eq_true hunf
    omega

theorem wrap_lt (w : Nat) (r : Int) : wrap w r < 2 ^ w := by
  have hw : (0 : Int) < 2 ^ w := by positivity
  have hlt := Int.emod_lt_of_pos r hw
  have hnonneg := Int.emod_nonneg r hw.ne'
  zify
  rw [wrap, Int.toNat_of_nonneg hnonneg]
  exact hlt

theorem wrap_cast (w : Nat) (r : Int) : (wrap w r : Int) = r % 2 ^ w :=
  Int.toNat_of_nonneg (Int.emod_nonneg r (by positivity))

section
variable {p : Params} {c : Word} {rs rt e : Reg} {a b : Word} {op k ext : Nat} {signed : Bool} {r : Int}

/-- Without an extended operand the wrapped result replaces the low bits of the target. -/
theorem ArthSelects.arthInteger_wrapped (h : ArthSelects p c op signed k ext) (he : arthExtended c = none)
    (hr : exactResult op (operandAt signed (operandWidth p k rt) a) (operandAt signed (operandWidth p k rs) b) r) :
    arthInteger p c rs rt a b = some ⟨replaceLow (operandWidth p k rt) a (wrap (operandWidth p k rt) r), none,
      overflows signed (operandWidth p k rt) r, underflows signed (operandWidth p k rt) r⟩ := by
  simp only [arthInteger, h.arthOp_eq, h.sign, flagWidth_of_widthSelected h.width, operandValue_eq_operandAt,
    arthExact_of_exactResult hr, he]

/-- With one, the result of twice the width is cut into two halves. -/
theorem ArthSelects.arthInteger_halves (h : ArthSelects p c op signed k ext) (he : arthExtended c = some e)
    (hr : exactResult op (operandAt signed (operandWidth p k rt) a) (operandAt signed (operandWidth p k rs) b) r) :
    arthInteger p c rs rt a b = some ⟨toWord p (wrap (2 * p.xlen) r),
      some (e, toWord p (wrap (2 * p.xlen) r / 2 ^ p.xlen)), false, false⟩ := by
  simp only [arthInteger, h.arthOp_eq, h.sign, flagWidth_of_widthSelected h.width, operandValue_eq_operandAt,
    arthExact_of_exactResult hr, he]

theorem arthInteger_divByZero (h : arthOp c = .div ∨ arthOp c = .mod)
    (hb : b.toNat % 2 ^ operandWidth p (flagWidth p c) rs = 0) : arthInteger p c rs rt a b = none := by
  simp only [arthInteger, operandValue_eq_operandAt, operandAt_eq_zero hb, arthExact_zero h]

end

/-! ### The low bits of a word replaced (rule R223) -/

section
variable {w N : Nat}

theorem div_mul_add_mod_lt (m n : Nat) (hw : w ≤ N) (hm : m < 2 ^ N) : m / 2 ^ w * 2 ^ w + n % 2 ^ w < 2 ^ N := by
  have hlow : n % 2 ^ w < 2 ^ w := Nat.mod_lt _ (Nat.two_pow_pos w)
  have hhigh : m / 2 ^ w + 1 ≤ 2 ^ (N - w) := by
    rw [Nat.succ_le_iff, Nat.div_lt_iff_lt_mul (Nat.two_pow_pos w), ← pow_add, Nat.sub_add_cancel hw]
    exact hm
  calc m / 2 ^ w * 2 ^ w + n % 2 ^ w
      < (m / 2 ^ w + 1) * 2 ^ w := by rw [Nat.succ_mul]; omega
    _ ≤ 2 ^ (N - w) * 2 ^ w := Nat.mul_le_mul_right _ hhigh
    _ = 2 ^ N := by rw [← pow_add, Nat.sub_add_cancel hw]

theorem toNat_replaceLow (hw : w ≤ 64) (v : Word) (n : Nat) :
    (replaceLow w v n).toNat = v.toNat / 2 ^ w * 2 ^ w + n % 2 ^ w := by
  rw [replaceLow, BitVec.toNat_ofNat, Nat.mod_eq_of_lt (div_mul_add_mod_lt _ _ hw v.isLt)]

theorem fits_replaceLow {p : Params} (hw : w ≤ p.xlen) (hv : fits p v = true) (n : Nat) :
    fits p (replaceLow w v n) = true := by
  rw [fits_iff] at hv ⊢
  rw [toNat_replaceLow (hw.trans (xlen_le p))]
  exact div_mul_add_mod_lt _ _ hw hv

theorem replaceLow_mod (hw : w ≤ 64) (v : Word) (n : Nat) : (replaceLow w v n).toNat % 2 ^ w = n % 2 ^ w := by
  rw [toNat_replaceLow hw, Nat.mul_add_mod_self_right, Nat.mod_mod]

theorem replaceLow_div (hw : w ≤ 64) (v : Word) (n : Nat) :
    (replaceLow w v n).toNat / 2 ^ w = v.toNat / 2 ^ w := by
  rw [toNat_replaceLow hw, Nat.add_comm, Nat.add_mul_div_right _ _ (Nat.two_pow_pos w),
    Nat.div_eq_of_lt (Nat.mod_lt _ (Nat.two_pow_pos w)), Nat.zero_add]

theorem getLsbD_replaceLow (hw : w ≤ 64) (v : Word) (n i : Nat) :
    (replaceLow w v n).getLsbD i = if i < w then n.testBit i else v.getLsbD i := by
  rw [← BitVec.testBit_toNat, toNat_replaceLow hw, Nat.mul_comm,
    Nat.testBit_two_pow_mul_add _ (Nat.mod_lt _ (Nat.two_pow_pos w)), Nat.testBit_mod_two_pow, Nat.testBit_div_two_pow]
  split
  · next h => rw [decide_eq_true h, Bool.true_and]
  · next h => rw [Nat.sub_add_cancel (by omega), BitVec.testBit_toNat]

end

/-! ### The commit (rule R211) -/

/-- A write of a register that the frame lists stays in the frame. -/
theorem Frame.setReg {changed : List Reg} {stored : List Nat} {s t : State} (h : Frame changed stored s t) {r : Reg}
    (hr : r ∈ changed) (v : Word) : Frame changed stored s (t.setReg r v) where
  regs q hq := by rw [State.reg_setReg_other _ _ (by rintro rfl; exact hq hr), h.regs q hq]
  mem := h.mem
  params := h.params
  vector := h.vector
  timers := h.timers
  pending := h.pending
  halted := h.halted
  world := h.world

section
variable {s : State} {rs rt e : Reg} {v u : Word}

/-- A valid RARTH with new flags is a value of XLEN bits. -/
theorem toWord_rarthAfter {c : Word} (p : Params) (hc : c.toNat < 2 ^ 19) (ovf unf : Bool) :
    toWord p (rarthAfter c ovf unf).toNat = withFlags (withoutFlags c) ovf unf := by
  have hx := xlen_ge p
  have hlt : c.toNat < 2 ^ p.xlen := hc.trans_le (Nat.pow_le_pow_right (by decide) (by omega))
  rw [rarthAfter_eq]
  exact toWord_of_lt _ _ (withFlags_lt (by omega) (withoutFlags_lt hlt) _ _)

/-- The commit without an extended operand: the target, RARTH and RIP. -/
theorem arthCommit_ends (i : Instr) (ovf unf : Bool) (hm : mayWrite s rt v) (hne : rt ≠ .rarth)
    (hc : (s.reg .rarth).toNat < 2 ^ 19) :
    ∃ t, finish (arthCommit rt ⟨v, none, ovf, unf⟩ (nextAddress s i) s) = .next t ∧
      t.reg rt = toWord s.params v.toNat ∧ t.reg .rarth = withFlags (withoutFlags (s.reg .rarth)) ovf unf ∧
      t.reg .rip = nextAddress s i ∧ Frame [rt, .rarth, .rip] [] s t ∧
      t.hidden = (if rt = .rpa then { s.hidden with cache := [] } else s.hidden) := by
  have hcommit : arthCommit rt ⟨v, none, ovf, unf⟩ (nextAddress s i) s = .ok () (((s.setReg rt v).setReg .rarth
      (rarthAfter (s.reg .rarth) ovf unf)).setReg .rip (nextAddress s i)) := by
    simp only [arthCommit, writeFault_eq_none hm]
  refine ⟨_, congrArg finish hcommit, ?_, ?_, ?_, ?_, ?_⟩
  · rw [State.reg_setReg_other _ _ hm.1, State.reg_setReg_other _ _ hne, State.reg_setReg_same]
  · rw [State.reg_setReg_other _ _ (by decide), State.reg_setReg_same]
    exact toWord_rarthAfter _ hc _ _
  · rw [State.reg_setReg_same]
    exact toWord_nextAddress s i
  · exact (((Frame.same _ _ s).setReg (by simp) _).setReg (by simp) _).setReg (by simp) _
  · rw [State.setReg_hidden _ _ (by decide), State.setReg_hidden _ _ (by decide), State.setReg_hidden_eq]

/-- The commit with an extended operand `e`, which takes the second half; no flag is set. -/
theorem arthCommit_extended_ends (i : Instr) (hm : mayWrite s rt v) (hne : rt ≠ .rarth)
    (hc : (s.reg .rarth).toNat < 2 ^ 19) (het : e ≠ rt) (he : e ∉ [Reg.rip, .rpa, .rarth]) :
    ∃ t, finish (arthCommit rt ⟨v, some (e, u), false, false⟩ (nextAddress s i) s) = .next t ∧
      t.reg rt = toWord s.params v.toNat ∧ t.reg e = toWord s.params u.toNat ∧
      t.reg .rarth = withoutFlags (s.reg .rarth) ∧ t.reg .rip = nextAddress s i ∧
      Frame [rt, e, .rarth, .rip] [] s t ∧
      t.hidden = (if rt = .rpa then { s.hidden with cache := [] } else s.hidden) := by
  simp only [List.mem_cons, List.not_mem_nil, or_false, not_or] at he
  obtain ⟨herip, herpa, herarth⟩ := he
  have hcommit : arthCommit rt ⟨v, some (e, u), false, false⟩ (nextAddress s i) s =
      .ok () ((((s.setReg rt v).setReg e u).setReg .rarth (rarthAfter (s.reg .rarth) false false)).setReg .rip
        (nextAddress s i)) := by
    simp only [arthCommit, writeFault_eq_none hm]
  refine ⟨_, congrArg finish hcommit, ?_, ?_, ?_, ?_, ?_, ?_⟩
  · rw [State.reg_setReg_other _ _ hm.1, State.reg_setReg_other _ _ hne, State.reg_setReg_other _ _ het.symm,
      State.reg_setReg_same]
  · rw [State.reg_setReg_other _ _ herip, State.reg_setReg_other _ _ herarth, State.reg_setReg_same,
      State.setReg_params]
  · rw [State.reg_setReg_other _ _ (by decide), State.reg_setReg_same]
    exact (toWord_rarthAfter _ hc _ _).trans (withFlags_false _)
  · rw [State.reg_setReg_same]
    exact toWord_nextAddress s i
  · exact ((((Frame.same _ _ s).setReg (by simp) _).setReg (by simp) _).setReg (by simp) _).setReg (by simp) _
  · rw [State.setReg_hidden _ _ (by decide), State.setReg_hidden _ _ (by decide), State.setReg_hidden _ _ herpa,
      State.setReg_hidden_eq]

end

/-- Settles O31: the result by `ArthSelects.arthInteger_wrapped`, the writes by `arthCommit_ends`. -/
theorem arthIntegers : Obligations.ArthIntegers := by
  intro s rs rt op flags k signed r hs ht hne hfit hword hop hwidth w b hr ovf unf
  have hsel : ArthSelects s.params (s.reg .rarth) op signed k 0 :=
    arthSelects_of_withoutFlags hop (by decide) hwidth (by rw [hword]; omega)
  have hext : arthExtended (s.reg .rarth) = none := arthExtended_of_bitField_zero hsel.extended
  have hvalid := hsel.checkRarth_valid (not_twoSet_of_bitField (n := 8) (.inl hsel.extended))
  have hw : w ≤ s.params.xlen := operandWidth_le_xlen (width_le_xlen hsel.width) rt
  have hw64 := hw.trans (xlen_le s.params)
  have hovf : overflows signed w r = ovf := overflows_eq signed w r
  have hunf : underflows signed w r = unf := underflows_eq signed w r
  refine ⟨by rw [← hovf, ← hunf]; exact not_overflows_and_underflows signed w r,
    replaceLow w (s.reg rt) (wrap w r), ?_, replaceLow_div hw64 _ _, fun hm => ?_⟩
  · rw [replaceLow_mod hw64, Nat.mod_eq_of_lt (wrap_lt w r)]
    exact wrap_cast w r
  · have hends := arthCommit_ends (.arth rs rt) ovf unf hm hne (of_checkRarth_valid hvalid).1
    rw [toWord_of_lt _ _ ((fits_iff _ _).mp (fits_replaceLow hw hfit (wrap w r)))] at hends
    rw [exec_arth_integer hs ht hne hvalid (by rw [extendedAllowed, hext]) (hsel.arthInteger_wrapped hext hr)]
    rwa [← hovf, ← hunf] at hends ⊢

theorem operandWidth_xlen (p : Params) (r : Reg) : operandWidth p p.xlen r = p.xlen := ite_self _

/-- The high half of a result of twice the width is a value of XLEN bits. -/
theorem toWord_half (p : Params) (r : Int) : toWord p (toWord p (wrap (2 * p.xlen) r / 2 ^ p.xlen)).toNat =
    BitVec.ofNat 64 (wrap (2 * p.xlen) r / 2 ^ p.xlen) := by
  have hlt : wrap (2 * p.xlen) r / 2 ^ p.xlen < 2 ^ p.xlen := by
    rw [Nat.div_lt_iff_lt_mul (Nat.two_pow_pos _), ← pow_add, ← two_mul]
    exact wrap_lt _ r
  rw [toWord_of_lt _ _ (toWord_lt _ _), toWord, Nat.mod_eq_of_lt hlt]

/-- The RAL registers are the first four that RARTH can name as an extended operand. -/
theorem extendedRegs_of_ral {j : Nat} {e : Reg} (h : [Reg.ral1, .ral2, .ral3, .ral4][j]? = some e) :
    j < 4 ∧ extendedRegs[j]? = some e ∧ isRfp e = false ∧ e ∉ [Reg.rip, .rpa, .rarth] := by
  match j, h with
  | 0, rfl => decide
  | 1, rfl => decide
  | 2, rfl => decide
  | 3, rfl => decide

/-- When an extended operand may be used (rules R213, R224). -/
theorem extendedAllowed_iff {rs rt e : Reg} {c : Word} (he : arthExtended c = some e) :
    extendedAllowed rs rt c = true ↔ isRfp e = isRfp rt ∧ bitField c 16 3 = 0 ∧ e ≠ rs ∧ e ≠ rt := by
  simp only [extendedAllowed, he, Bool.and_eq_true, decide_eq_true_iff, and_assoc]

/-- Settles O32: the halves by `ArthSelects.arthInteger_halves`, the writes by `arthCommit_extended_ends`. -/
theorem arthExtendedOperand : Obligations.ArthExtendedOperand := by
  intro s rs rt e op j signed r hs ht hne hes het hj hword hop hr full low hm
  obtain ⟨hj4, hej, herfp, hefixed⟩ := extendedRegs_of_ral hj
  have hjpow : 2 ^ j < 2 ^ 8 := Nat.pow_lt_pow_right (by decide) (by omega)
  have hsel : ArthSelects s.params (s.reg .rarth) op signed s.params.xlen (2 ^ j) :=
    arthSelects_of_withoutFlags hop hjpow (.inl ⟨rfl, rfl⟩) (by rw [hword, pow_add, Nat.add_zero])
  have hone : ¬twoSet (s.reg .rarth) 8 16 := not_twoSet_of_bitField (n := 8) (.inr ⟨j, hsel.extended⟩)
  have hvalid := hsel.checkRarth_valid hone
  have hext : arthExtended (s.reg .rarth) = some e := by
    refine arthExtended_of_bit hone hej ?_
    rw [getLsbD_eq_testBit_bitField _ 8 (n := 8) (by omega), hsel.extended, Nat.testBit_two_pow_self]
  have hnowidth : bitField (s.reg .rarth) 16 3 = 0 := by
    have hdiv := withoutFlags_div (s.reg .rarth)
    have hpow : 2 ^ op ≤ 2 ^ 4 := Nat.pow_le_pow_right (by decide) hop
    rw [hword, pow_add] at hdiv
    simp only [bitField]
    split at hdiv <;> omega
  have hallowed := (extendedAllowed_iff (rs := rs) hext).mpr ⟨herfp.trans ht.symm, hnowidth, hes, het⟩
  have hr' : exactResult op (operandAt signed (operandWidth s.params s.params.xlen rt) (s.reg rt))
      (operandAt signed (operandWidth s.params s.params.xlen rs) (s.reg rs)) r := by
    rwa [operandWidth_xlen, operandWidth_xlen]
  have hends := arthCommit_extended_ends (.arth rs rt) (u := toWord s.params (full / 2 ^ s.params.xlen)) hm hne
    (of_checkRarth_valid hvalid).1 het hefixed
  rw [exec_arth_integer hs ht hne hvalid hallowed (hsel.arthInteger_halves hext hr')]
  have hhigh : toWord s.params (toWord s.params (full / 2 ^ s.params.xlen)).toNat =
      BitVec.ofNat 64 (full / 2 ^ s.params.xlen) := toWord_half s.params r
  rwa [hhigh, toWord_of_lt _ low (toWord_lt _ _)] at hends

/-! ### Where ARTH stops under a valid RARTH (rules R213, R220, R221, R226) -/

section
variable {s : State} {rs rt : Reg}

theorem exec_arth_targetsRarth (hc : checkRarth s.params (s.reg .rarth) = .valid) (ht : rt = .rarth) :
    exec (.arth rs rt) s = .refused .arthTargetsRarth :=
  finish_nextPc_refuse (.arth rs rt) (.inl rfl) (by simp only [hc, if_pos ht])

theorem exec_arth_mixed (hc : checkRarth s.params (s.reg .rarth) = .valid) (ht : rt ≠ .rarth)
    (hne : isRfp rs ≠ isRfp rt) : exec (.arth rs rt) s = .refused .mixedFpOperands :=
  finish_nextPc_refuse (.arth rs rt) (.inl rfl) (by simp only [hc, if_neg ht, if_pos hne])

theorem exec_arth_extendedRefused (hc : checkRarth s.params (s.reg .rarth) = .valid) (ht : rt ≠ .rarth)
    (hclass : isRfp rs = isRfp rt) (hx : extendedAllowed rs rt (s.reg .rarth) = false) :
    exec (.arth rs rt) s = .refused .extendedOperand :=
  finish_nextPc_refuse (.arth rs rt) (.inl rfl) (by simp [hc, ht, hclass, hx])

theorem exec_arth_integer_fault (hs : isRfp rs = false) (ht : isRfp rt = false) (hne : rt ≠ .rarth)
    (hc : checkRarth s.params (s.reg .rarth) = .valid) (hx : extendedAllowed rs rt (s.reg .rarth) = true)
    (hr : arthInteger s.params (s.reg .rarth) rs rt (s.reg rt) (s.reg rs) = none) :
    exec (.arth rs rt) s = faultEntry ⟨.arithmeticLogicUnit, none⟩ s := by
  change finish ((nextPc 0 s).bind _) = _
  rw [nextPc_zero_bind s (.arth rs rt) rfl]
  simp only [hc, hs, ht, hx, hr, if_neg hne]
  rfl

theorem exec_arth_float (hs : isRfp rs = true) (ht : isRfp rt = true)
    (hc : checkRarth s.params (s.reg .rarth) = .valid) (hx : extendedAllowed rs rt (s.reg .rarth) = true) :
    exec (.arth rs rt) s = finish (arthEnd .floatingPointUnit rt
      (arthFloat s.params (s.reg .rarth) (s.reg rt) (s.reg rs)) (nextAddress s (.arth rs rt)) s) := by
  have hne : rt ≠ .rarth := by rintro rfl; cases ht
  change finish ((nextPc 0 s).bind _) = _
  rw [nextPc_zero_bind s (.arth rs rt) rfl]
  simp only [hc, hs, ht, hx, if_neg hne]
  rfl

end

/-- Settles O34: the refusals in the order ARTH meets them, and the division that has no exact result. -/
theorem arthRefusalsAndDivision : Obligations.ArthRefusalsAndDivision := by
  intro s rs rt hvalid
  obtain ⟨hlt, hop, hone⟩ := of_checkRarth_valid hvalid
  refine ⟨exec_arth_targetsRarth hvalid, exec_arth_mixed hvalid, fun hne hclass j e hj hbit hbad => ?_,
    fun hs ht hne hallowed hdiv hzero => ?_⟩
  · refine exec_arth_extendedRefused hvalid hne hclass (Bool.eq_false_iff.mpr fun hallowed => ?_)
    obtain ⟨hclass', hwidth, hes, het⟩ := (extendedAllowed_iff (arthExtended_of_bit hone hj hbit)).mp hallowed
    have hwidth' : (s.reg .rarth).toNat / 2 ^ 16 = 0 := by simp only [bitField] at hwidth; omega
    rcases hbad with h | h | h | h
    exacts [h hclass', h hwidth', hes h, het h]
  · have hsel : arthOp (s.reg .rarth) = .div ∨ arthOp (s.reg .rarth) = .mod :=
      hdiv.imp (arthOp_of_bit hop (by decide)) (arthOp_of_bit hop (by decide))
    exact exec_arth_integer_fault hs ht hne hvalid hallowed (arthInteger_divByZero hsel hzero)

/-! ### Two RFP operands (rule R226, log entries 12 and 13) -/

theorem twoSet_of_withoutFlags {c : Word} {lo hi : Nat} (h : twoSet (withoutFlags c) lo hi) : twoSet c lo hi := by
  have hbit : ∀ k, (withoutFlags c).getLsbD k = true → c.getLsbD k = true := fun k hk => by
    rw [getLsbD_withoutFlags, Bool.and_eq_true] at hk
    exact hk.1
  obtain ⟨i, j, hlo, hlt, hhi, hi, hj⟩ := h
  exact ⟨i, j, hlo, hlt, hhi, hbit i hi, hbit j hj⟩

theorem arthExtended_withoutFlags (c : Word) : arthExtended (withoutFlags c) = arthExtended c := by
  simp only [arthExtended, getLsbD_withoutFlags, Nat.reduceEqDiff, decide_false, Bool.or_false, Bool.not_false,
    Bool.and_true]

/-- The exceptions of an ARTH on RFP registers: division by a zero, and what else the configuration detects. -/
def FloatFaults (v : Variant) (c a b : Word) : Prop :=
  (c.getLsbD 1 = true ∧ Config.fpIsZero v b = true) ∨ Config.fpFaults v c a b = true

section
variable {p : Params} {c a b : Word} {e : Reg}

theorem arthFloat_fault (hop : ¬twoSet c 0 5) (h : FloatFaults p.variant (withoutFlags c) a b) :
    arthFloat p c a b = none := by
  have hdiv := arthOp_eq_div_iff (fun hc => hop (twoSet_of_withoutFlags hc))
  simp only [arthFloat, rarthAfter_eq, withFlags_false, hdiv]
  rcases h with h | h
  · exact if_pos h
  · rw [if_pos h, ite_self]

theorem arthFloat_flags (hop : ¬twoSet c 0 5) (h : ¬FloatFaults p.variant (withoutFlags c) a b)
    (he : arthExtended c = none) :
    arthFloat p c a b = some ⟨Config.fpResult p.variant (withoutFlags c) a b, none,
      Config.fpOverflow p.variant (withoutFlags c) a b,
      !Config.fpOverflow p.variant (withoutFlags c) a b && Config.fpUnderflow p.variant (withoutFlags c) a b⟩ := by
  have hdiv := arthOp_eq_div_iff (fun hc => hop (twoSet_of_withoutFlags hc))
  obtain ⟨hzero, hfault⟩ := not_or.mp h
  simp only [arthFloat, rarthAfter_eq, withFlags_false, hdiv, if_neg hzero, if_neg hfault,
    arthExtended_withoutFlags, he]

theorem arthFloat_halves (hop : ¬twoSet c 0 5) (h : ¬FloatFaults p.variant (withoutFlags c) a b)
    (he : arthExtended c = some e) :
    arthFloat p c a b = some ⟨Config.fpResult p.variant (withoutFlags c) a b,
      some (e, Config.fpExtended p.variant (withoutFlags c) a b), false, false⟩ := by
  have hdiv := arthOp_eq_div_iff (fun hc => hop (twoSet_of_withoutFlags hc))
  obtain ⟨hzero, hfault⟩ := not_or.mp h
  simp only [arthFloat, rarthAfter_eq, withFlags_false, hdiv, if_neg hzero, if_neg hfault,
    arthExtended_withoutFlags, he]

end

/-- An RFP register is none of the registers that the write check or ARTH itself treats apart. -/
theorem not_mem_of_isRfp {r : Reg} (h : isRfp r = true) :
    r ∉ [Reg.rip, .rpa, .rarth] ∧ r ∉ [Reg.rst, .rff, .rfa, .rbt, .rct, .rpa, .rra] := by
  revert h
  cases r <;> decide

/-- The write check never stops an RFP target. -/
theorem mayWrite_of_isRfp {rt : Reg} (s : State) (v : Word) (h : isRfp rt = true) : mayWrite s rt v := by
  obtain ⟨hfixed, hprotected⟩ := not_mem_of_isRfp h
  exact ⟨by rintro rfl; exact hfixed (by decide), fun _ => hprotected, by rintro rfl; cases h⟩

/-- Settles O35: the exceptions by `arthFloat_fault`, else the commit of the configuration's results. -/
theorem arthFloats : Obligations.ArthFloats := by
  intro s rs rt hs ht hvalid hallowed v c a b
  obtain ⟨hlt, hop, -⟩ := of_checkRarth_valid hvalid
  have hne : rt ≠ .rarth := by rintro rfl; cases ht
  have hrpa : rt ≠ .rpa := by rintro rfl; cases ht
  have hm := mayWrite_of_isRfp s (Config.fpResult v c a b) ht
  rw [exec_arth_float hs ht hvalid hallowed]
  split
  · next hfault =>
    rw [arthFloat_fault hop hfault]
    rfl
  · next hfault =>
    have hextc : arthExtended c = arthExtended (s.reg .rarth) := arthExtended_withoutFlags _
    cases hext : arthExtended (s.reg .rarth) with
    | none =>
      rw [arthFloat_flags hop hfault hext]
      obtain ⟨t, hnext, hrt, hrarth, hrip, hframe, hhidden⟩ := arthCommit_ends (.arth rs rt)
        (Config.fpOverflow v c a b) (!Config.fpOverflow v c a b && Config.fpUnderflow v c a b) hm hne hlt
      refine ⟨t, hnext, by rw [hrt, toWord_toNat], hrip, by rw [hhidden, if_neg hrpa],
        fun _ => ⟨_, _, ?_, rfl, ?_, hrarth, hframe⟩, fun e he => ?_⟩
      · rintro ⟨hovf, hunf⟩
        rw [hovf] at hunf
        cases hunf
      · intro hovf
        rw [hovf]
        rfl
      · rw [hextc, hext] at he
        cases he
    | some e =>
      rw [arthFloat_halves hop hfault hext]
      obtain ⟨hclass, -, -, het⟩ := (extendedAllowed_iff hext).mp hallowed
      obtain ⟨t, hnext, hrt, hre, hrarth, hrip, hframe, hhidden⟩ := arthCommit_extended_ends (.arth rs rt)
        (u := Config.fpExtended v c a b) hm hne hlt het (not_mem_of_isRfp (hclass.trans ht)).1
      refine ⟨t, hnext, by rw [hrt, toWord_toNat], hrip, by rw [hhidden, if_neg hrpa], fun hnone => ?_, fun e' he => ?_⟩
      · rw [hextc, hext] at hnone
        cases hnone
      · rw [hextc, hext] at he
        cases he
        exact ⟨by rw [hre, toWord_toNat], hrarth, hframe⟩

end Sys2Proof.Machine

/-! SUPPORT. LGIC (rules R228 to R232): the bits of the result of each operation, the operation a valid RLGIC selects, and
the write that ends it. -/

namespace Sys2Proof.Machine

/-! ### The bits of each operation (rules R229 to R231) -/

section
variable {w a n i : Nat}

theorem testBit_notBits (hi : i < w) : (notBits w n).testBit i = !n.testBit i := by
  have hlt : n % 2 ^ w < 2 ^ w := Nat.mod_lt _ (Nat.two_pow_pos w)
  rw [notBits, Nat.sub_sub, Nat.add_comm 1, Nat.testBit_two_pow_sub_succ hlt, Nat.testBit_mod_two_pow,
    decide_eq_true hi, Bool.true_and, Bool.true_and]

theorem testBit_shiftedLeft (hi : i < w) : (a * 2 ^ n % 2 ^ w).testBit i = (decide (n ≤ i) && a.testBit (i - n)) := by
  rw [Nat.testBit_mod_two_pow, decide_eq_true hi, Bool.true_and, Nat.testBit_mul_two_pow]

theorem testBit_shiftedRight (ha : a < 2 ^ w) :
    (a / 2 ^ n).testBit i = (decide (i + n < w) && a.testBit (i + n)) := by
  rw [Nat.testBit_div_two_pow]
  by_cases h : i + n < w
  · rw [decide_eq_true h, Bool.true_and]
  · rw [decide_eq_false h, Bool.false_and,
      Nat.testBit_lt_two_pow (ha.trans_le (Nat.pow_le_pow_right (by decide) (by omega)))]

/-- A bit of a value rotated left comes from `n` places below, around the end. -/
theorem testBit_rotateLeftBits (ha : a < 2 ^ w) (hn : n < w) (hi : i < w) :
    (rotateLeftBits w a n).testBit i = a.testBit ((i + (w - n)) % w) := by
  have hlow : a / 2 ^ (w - n) < 2 ^ n := by
    rw [Nat.div_lt_iff_lt_mul (Nat.two_pow_pos _), ← pow_add, Nat.add_sub_cancel' hn.le]
    exact ha
  rw [rotateLeftBits, Nat.testBit_mod_two_pow, decide_eq_true hi, Bool.true_and, Nat.mul_comm,
    Nat.testBit_two_pow_mul_add _ hlow]
  split
  · next h => rw [Nat.testBit_div_two_pow, Nat.mod_eq_of_lt (by omega)]
  · next h => rw [show i + (w - n) = i - n + w by omega, Nat.add_mod_right, Nat.mod_eq_of_lt (by omega)]

/-- Rotating right by `n` is rotating left by the rest of the width. -/
theorem testBit_rotatedRight (ha : a < 2 ^ w) (hi : i < w) :
    (rotateLeftBits w a ((w - n % w) % w)).testBit i = a.testBit ((i + n) % w) := by
  have hw : 0 < w := by omega
  rw [testBit_rotateLeftBits ha (Nat.mod_lt _ hw) hi]
  congr 1
  have hn : n % w < w := Nat.mod_lt _ hw
  rcases Nat.eq_zero_or_pos (n % w) with h | h
  · rw [h, Nat.sub_zero, Nat.mod_self, Nat.sub_zero, Nat.add_mod_right, Nat.add_mod, h, Nat.add_zero, Nat.mod_mod]
  · rw [Nat.mod_eq_of_lt (by omega : w - n % w < w), Nat.sub_sub_self hn.le, Nat.add_mod_mod]

end

/-! ### The operation a valid RLGIC selects (rule R228) -/

/-- The bitwise operations of RLGIC: bit 0 alone, and bits 1 to 3, each also with bit 0. -/
abbrev bitwiseOps : List Nat := [0x01, 0x02, 0x03, 0x04, 0x05, 0x08, 0x09]

/-- The shifts and rotates of RLGIC. -/
abbrev shiftOps : List Nat := [0x10, 0x20, 0x40, 0x80]

abbrev lgicOps : List Nat := bitwiseOps ++ shiftOps

/-- RLGIC selects operation `op` and the width `k` of RAL operands. -/
structure LgicSelects (p : Params) (g : Word) (op k : Nat) : Prop where
  mem : op ∈ lgicOps
  operation : bitField g 0 8 = op
  reserved : bitField g 8 8 = 0
  width : widthSelected p (bitsFrom g 16 * 2 ^ 16) k

/-- One operation at most among bits 1 to 7, and bit 0 with none of the shifts and rotates. -/
theorem lgicOps_fields {op : Nat} (h : op ∈ lgicOps) :
    op ≠ 0 ∧ op < 2 ^ 8 ∧ (op / 2 = 0 ∨ ∃ j, op / 2 = 2 ^ j) ∧ (op % 2 = 1 → op / 2 ^ 4 = 0) := by
  have hall : ∀ op ∈ lgicOps, op ≠ 0 ∧ op < 2 ^ 8 ∧ (op / 2 = 0 ∨ ∃ j : Fin 8, op / 2 = 2 ^ j.val) ∧
      (op % 2 = 1 → op / 2 ^ 4 = 0) := by decide
  obtain ⟨hzero, hlt, hone, hnot⟩ := hall op h
  exact ⟨hzero, hlt, hone.imp_right fun ⟨j, hj⟩ => ⟨j, hj⟩, hnot⟩

section
variable {p : Params} {g : Word} {op flags k w a b i : Nat}

theorem lgicSelects_of_eq (hop : op ∈ lgicOps) (hg : g.toNat = op + flags) (hw : widthSelected p flags k) :
    LgicSelects p g op k := by
  obtain ⟨-, hlt, -, -⟩ := lgicOps_fields hop
  obtain ⟨f, rfl⟩ := exists_eq_mul_of_widthSelected hw
  have hfield : bitsFrom g 16 = f := by simp only [bitsFrom]; omega
  refine ⟨hop, by simp only [bitField]; omega, by simp only [bitField]; omega, ?_⟩
  rw [hfield, Nat.mul_comm]
  exact hw

theorem LgicSelects.checkRlgic_valid (h : LgicSelects p g op k) : checkRlgic p g = .valid := by
  obtain ⟨hzero, hlt, hone, hnot⟩ := lgicOps_fields h.mem
  have hlow : g.toNat % 256 = op := by have := h.operation; simp only [bitField] at this; omega
  have hvalid : ¬LgicInvalid p g := by
    rw [lgicInvalid_iff, widthFlagsBad_of_widthSelected h.width, h.reserved, one_lt_bitCount_iff]
    rintro (((hwidth | hreserved) | htwo) | ⟨hbit, hhigh⟩)
    · cases hwidth
    · exact hreserved rfl
    · refine not_twoSet_of_bitField ?_ htwo
      rwa [show bitField g 1 7 = op / 2 by simp only [bitField]; omega]
    · rw [getLsbD_eq_testBit_bitField g 0 (n := 8) (i := 0) (by decide), h.operation, Nat.testBit_zero,
        decide_eq_true_eq] at hbit
      have hshift := hnot hbit
      simp only [bitField] at hhigh
      omega
  rw [checkRlgic_of_not_lgicInvalid hvalid, hlow, if_neg hzero]

/-- `logicResult` reads the low byte of the control word alone. -/
theorem logicResult_of_bitField (h : bitField g 0 8 = op) (w a b : Nat) :
    logicResult g w a b = logicResult (BitVec.ofNat 64 op) w a b := by
  have hbit : ∀ i, i < 8 → g.getLsbD i = (BitVec.ofNat 64 op).getLsbD i := fun i hi => by
    rw [← Nat.zero_add i, getLsbD_eq_testBit_bitField g 0 hi, h, Nat.zero_add, BitVec.getLsbD_ofNat,
      decide_eq_true (by omega : i < 64), Bool.true_and]
  simp only [logicResult, hbit 0 (by decide), hbit 1 (by decide), hbit 2 (by decide), hbit 3 (by decide),
    hbit 4 (by decide), hbit 5 (by decide), hbit 6 (by decide), hbit 7 (by decide)]

/-! ### The result, bit by bit (rules R229 to R231) -/

/-- A bit of the result of a bitwise operation, from the same bit of target and source. -/
def bitwiseBit (op : Nat) (x y : Bool) : Bool :=
  match op with
  | 0x01 => !y
  | 0x02 => xor x y
  | 0x03 => !(xor x y)
  | 0x04 => x && y
  | 0x05 => !(x && y)
  | 0x08 => x || y
  | _ => !(x || y)

/-- A bit of the result of a shift or rotate by `n`, from the bits of the target. -/
def shiftedBit (op w n : Nat) (x : Nat → Bool) (i : Nat) : Bool :=
  match op with
  | 0x10 => decide (n ≤ i) && x (i - n)
  | 0x20 => decide (i + n < w) && x (i + n)
  | 0x40 => x ((i + (w - n % w)) % w)
  | _ => x ((i + n) % w)

theorem testBit_logicResult_bitwise (h : bitField g 0 8 = op) (hop : op ∈ bitwiseOps)
    (hi : i < w) : (logicResult g w a b).testBit i = bitwiseBit op (a.testBit i) (b.testBit i) := by
  have hb : (b % 2 ^ w).testBit i = b.testBit i := by rw [Nat.testBit_mod_two_pow, decide_eq_true hi, Bool.true_and]
  rw [logicResult_of_bitField h]
  simp only [List.mem_cons, List.not_mem_nil, or_false] at hop
  rcases hop with rfl | rfl | rfl | rfl | rfl | rfl | rfl
  · exact testBit_notBits hi
  · exact (Nat.testBit_xor ..).trans (congrArg (xor _) hb)
  · exact (testBit_notBits hi).trans (by rw [Nat.testBit_xor, hb]; rfl)
  · exact (Nat.testBit_and ..).trans (congrArg (and _) hb)
  · exact (testBit_notBits hi).trans (by rw [Nat.testBit_and, hb]; rfl)
  · exact (Nat.testBit_or ..).trans (congrArg (or _) hb)
  · exact (testBit_notBits hi).trans (by rw [Nat.testBit_or, hb]; rfl)

theorem testBit_logicResult_shifted (h : bitField g 0 8 = op) (hop : op ∈ shiftOps) (ha : a < 2 ^ w)
    (hi : i < w) : (logicResult g w a b).testBit i = shiftedBit op w b a.testBit i := by
  rw [logicResult_of_bitField h]
  simp only [List.mem_cons, List.not_mem_nil, or_false] at hop
  rcases hop with rfl | rfl | rfl | rfl
  · change (if w ≤ b then 0 else a * 2 ^ b % 2 ^ w).testBit i = (decide (b ≤ i) && a.testBit (i - b))
    split
    · next hwide => rw [Nat.zero_testBit, decide_eq_false (by omega), Bool.false_and]
    · exact testBit_shiftedLeft hi
  · change (if w ≤ b then 0 else a / 2 ^ b).testBit i = (decide (i + b < w) && a.testBit (i + b))
    split
    · next hwide => rw [Nat.zero_testBit, decide_eq_false (by omega), Bool.false_and]
    · exact testBit_shiftedRight ha
  · exact testBit_rotateLeftBits ha (Nat.mod_lt _ (by omega)) hi
  · exact testBit_rotatedRight ha hi

theorem testBit_lowBits (w : Nat) (v : Word) (i : Nat) : (lowBits w v).testBit i = (decide (i < w) && v.getLsbD i) := by
  rw [lowBits, Nat.testBit_mod_two_pow, BitVec.testBit_toNat]

theorem lowBits_lt (w : Nat) (v : Word) : lowBits w v < 2 ^ w := Nat.mod_lt _ (Nat.two_pow_pos w)

/-- Only bits below the width are read. -/
theorem shiftedBit_lowBits (op n : Nat) (v : Word) (hi : i < w) :
    shiftedBit op w n (lowBits w v).testBit i = shiftedBit op w n v.getLsbD i := by
  have hread : ∀ j, j < w → (lowBits w v).testBit j = v.getLsbD j := fun j hj => by
    rw [testBit_lowBits, decide_eq_true hj, Bool.true_and]
  have hw : 0 < w := by omega
  unfold shiftedBit
  split
  · rw [hread _ (by omega)]
  · by_cases h : i + n < w
    · rw [hread _ h]
    · rw [decide_eq_false h, Bool.false_and, Bool.false_and]
  · exact hread _ (Nat.mod_lt _ hw)
  · exact hread _ (Nat.mod_lt _ hw)

end

/-! ### The write of the result (rule R232) -/

/-- The low bits of the target take the bits `f` of the result, its upper bits stay, and only the target and RIP
change. -/
theorem exec_lgic_ends {s : State} {rs rt : Reg} {op k : Nat} {f : Nat → Bool} (hs : isRfp rs = false)
    (ht : isRfp rt = false) (hfit : fits s.params (s.reg rt) = true) (hsel : LgicSelects s.params (s.reg .rlgic) op k)
    (hf : ∀ i, i < operandWidth s.params k rt → (logicResult (s.reg .rlgic) (operandWidth s.params k rt)
      (lowBits (operandWidth s.params k rt) (s.reg rt)) (lowBits (operandWidth s.params k rs) (s.reg rs))).testBit i =
        f i) :
    ∃ v : Word, (∀ i, i < 64 → v.getLsbD i =
        if i < operandWidth s.params k rt then f i else (s.reg rt).getLsbD i) ∧
      (mayWrite s rt v → ∃ t, exec (.lgic rs rt) s = .next t ∧ t.reg rt = v ∧
        t.reg .rip = nextAddress s (.lgic rs rt) ∧ Frame [rt, .rip] [] s t ∧
        t.hidden = (if rt = .rpa then { s.hidden with cache := [] } else s.hidden)) := by
  have hw : operandWidth s.params k rt ≤ s.params.xlen := operandWidth_le_xlen (width_le_xlen hsel.width) rt
  have hvalue := flagWidth_of_widthSelected hsel.width
  refine ⟨lgicValue s.params (s.reg .rlgic) rs rt (s.reg rt) (s.reg rs), fun i _ => ?_, fun hm => ?_⟩
  · rw [lgicValue, hvalue, getLsbD_replaceLow (hw.trans (xlen_le _))]
    split
    · next hi => exact hf i hi
    · rfl
  · rw [exec_lgic_valid hs ht hsel.checkRlgic_valid]
    refine writeThenGo_frame ?_ hm
    rw [lgicValue, hvalue]
    exact fits_replaceLow hw hfit _

/-- Settles O36: the bits by `testBit_logicResult_bitwise`, the write by `exec_lgic_ends`. -/
theorem lgicBitwise : Obligations.LgicBitwise := by
  intro s rs rt op flags k hs ht hfit hop hword hwidth w a b f
  have hsel : LgicSelects s.params (s.reg .rlgic) op k :=
    lgicSelects_of_eq (List.mem_append_left shiftOps hop) hword hwidth
  refine exec_lgic_ends hs ht hfit hsel fun i hi => ?_
  rw [testBit_logicResult_bitwise hsel.operation hop hi, testBit_lowBits, testBit_lowBits, decide_eq_true hi,
    Bool.true_and]
  rfl

/-- Settles O37: the bits by `testBit_logicResult_shifted`, the write by `exec_lgic_ends`. -/
theorem lgicShiftsRotates : Obligations.LgicShiftsRotates := by
  intro s rs rt op flags k hs ht hfit hop hword hwidth w a n f
  have hsel : LgicSelects s.params (s.reg .rlgic) op k :=
    lgicSelects_of_eq (List.mem_append_right bitwiseOps hop) hword hwidth
  refine exec_lgic_ends hs ht hfit hsel fun i hi => ?_
  rw [testBit_logicResult_shifted hsel.operation hop (lowBits_lt _ _) hi, shiftedBit_lowBits op _ _ hi]
  rfl

end Sys2Proof.Machine

/-! SUPPORT. INTR: the faults of its validation (rule R251), and its sequence without a context switch (rule R311) for
the trappable interrupts, user-defined and declared. -/

namespace Sys2Proof.Machine

/-! ### The software interrupts (rules R251, R313) -/

/-- The ID is one of the architecture's software interrupts, or one the implementation declares (rule R251). -/
abbrev SoftwareId (s : State) (id : Byte) : Prop :=
  id ∈ [0x01, 0x03, 0x0A, 0x0B, 0x0D, 0x0F] ∨ declared s .software id

section
variable {s : State} {id : Byte} {e : VectorEntry}

/-- The test of the model for an arch software ID is the rule's. -/
theorem isArchSoftware_iff : isArchSoftware s.params id = true ↔ SoftwareId s id := by
  rw [isArchSoftware, Bool.or_eq_true, isImplInt_iff, List.contains_iff_mem]
  rfl

/-! ### The validation (rule R251) -/

theorem intrFault_outside (h : id.toNat = 0 ∨ 127 < id.toNat) : intrFault s id = some ⟨.illegalInterrupt, none⟩ :=
  if_pos h

/-- The IDs 1 to 31: the privilege level is tested before the ID. -/
theorem intrFault_low (h1 : 1 ≤ id.toNat) (h31 : id.toNat ≤ 31) : intrFault s id =
    if s.level1 then some ⟨.privilege, if isArchSoftware s.params id then some id else none⟩
    else if isArchSoftware s.params id then none
    else some ⟨.illegalInterrupt, none⟩ := by
  unfold intrFault
  rw [if_neg (by omega), if_pos h31]

/-- The IDs 32 to 127: the entry's user flag is tested before the entry is found disabled. -/
theorem intrFault_high (h32 : 32 ≤ id.toNat) (h127 : id.toNat ≤ 127) (hv : s.vector[id.toNat - 1]? = some e) :
    intrFault s id =
      if s.level1 && !e.flags.getLsbD 0 then some ⟨.privilege, none⟩
      else if e.disabled then some ⟨.illegalInterrupt, none⟩
      else none := by
  unfold intrFault
  rw [if_neg (by omega), if_neg (by omega), vectorEntry_eq (by omega) hv]

/-! ### The sequence without a context switch (rule R311) -/

/-- With task registers disabled after step 1, the sequence is the internal routine and the handler entry, with RIP past
the INTR. -/
theorem intrSequence_tasksOff {u : State} (next : Word) (hp : intrPrepare id s = .ok () u) (ht : u.tasksOn = false) :
    intrSequence id next s = .ok () (intrHandler id (intrRoutine id (u.setReg .rip next))) := by
  have hstay : switchToBase next (u.setReg .rip next) = .ok () (u.setReg .rip next) :=
    if_neg (ne_true_of_eq_false ht)
  rw [intrSequence, hp, Res.bind_ok, hstay, Res.bind_ok]

/-- A write of RIP replaces an earlier one. -/
theorem State.setRip_setRip (s : State) (v w : Word) : (s.setReg .rip v).setReg .rip w = s.setReg .rip w := rfl

/-- What a write of RIP leaves: RIP holds the word, and nothing else changes. -/
theorem setRip_ends {w : Word} (hw : fits s.params w = true) : (s.setReg .rip w).reg .rip = w ∧
    Frame [.rip] [] s (s.setReg .rip w) ∧ (s.setReg .rip w).hidden = s.hidden := by
  refine ⟨?_, frame_setRip (SameButHidden.same s) w s.mem [] fun _ _ => rfl, State.setReg_hidden _ _ (by decide)⟩
  rw [State.reg_setReg_same, toWord_of_lt _ _ ((fits_iff _ _).mp hw)]

/-- INTR of a user-defined interrupt with task registers disabled is a jump to its handler. -/
theorem exec_intr_user_tasksOff (h32 : 32 ≤ id.toNat) (h127 : id.toNat ≤ 127)
    (hv : s.vector[id.toNat - 1]? = some e) (hne : e ≠ ⟨0, 0⟩) (hl : s.level1 = true → e.flags.getLsbD 0 = true)
    (ht : s.tasksOn = false) : exec (.intr id) s = .next (s.setReg .rip e.handler) := by
  rw [exec_intr_granted (intrFault_user h32 h127 hv hne hl), intrSequence_tasksOff _ (intrPrepare_user s h32) ht,
    intrRoutine_user _ h32, intrHandler_user (s := s.setReg .rip _) h32 hv hne, State.setRip_setRip]
  rfl

/-! ### The interrupts the implementation declares (rule R333) -/

/-- The validation grants a declared interrupt to level 0. -/
theorem intrFault_declared (hd : declared s .software id) (hl : s.level1 = false) : intrFault s id = none := by
  have harch : isArchSoftware s.params id = true := isArchSoftware_iff.mpr (.inr hd)
  obtain ⟨h21, h31, -⟩ := hd
  rw [intrFault_low (by omega) h31, hl, harch]
  rfl

/-- Step 1 of a declared interrupt is the check of its routine. -/
theorem intrPrepare_declared (hd : declared s .software id) : intrPrepare id s = routineCheck id s := by
  have himpl : isImplInt s.params .software id = true := isImplInt_iff.mpr hd
  obtain ⟨h21, -, -⟩ := hd
  unfold intrPrepare
  split <;> try omega
  exact if_pos himpl

/-- The internal routine of a declared interrupt is the implementation's. -/
theorem intrRoutine_declared (hd : declared s .software id) : intrRoutine id s = applyRoutine s.world.routine s := by
  have himpl : isImplInt s.params .software id = true := isImplInt_iff.mpr hd
  obtain ⟨h21, -, -⟩ := hd
  unfold intrRoutine
  split <;> try omega
  exact if_pos himpl

/-- A declared interrupt may go to a handler. -/
theorem intrHandler_declared (hd : declared s .software id) : intrHandler id s = enterHandler id s :=
  if_pos (by rw [isTrappable, isImplInt_iff.mpr hd, Bool.or_true])

/-- The routine's fault is taken with RIP still at the INTR (rule R316). -/
theorem exec_intr_declared_fault {f : ArchFault} (hd : declared s .software id) (hl : s.level1 = false)
    (hf : s.world.routine.fault = some f) : exec (.intr id) s = faultEntry ⟨f, some id⟩ s := by
  have hcheck : routineCheck id s = raiseMarked f id s := by rw [routineCheck, hf]
  rw [exec_intr_granted (intrFault_declared hd hl), intrSequence, intrPrepare_declared hd, hcheck]
  rfl

/-- With task registers disabled the routine runs past the INTR, and the handler is entered. -/
theorem exec_intr_declared_tasksOff (hd : declared s .software id) (hl : s.level1 = false)
    (hf : s.world.routine.fault = none) (ht : s.tasksOn = false) : exec (.intr id) s =
      .next (enterHandler id (applyRoutine s.world.routine (s.setReg .rip (nextAddress s (.intr id))))) := by
  have hcheck : intrPrepare id s = .ok () s := by rw [intrPrepare_declared hd, routineCheck, hf]
  have hd' : declared (applyRoutine s.world.routine (s.setReg .rip (nextAddress s (.intr id)))) .software id := by
    rwa [declared, (applyRoutine_runs _ _).frame.params]
  rw [exec_intr_granted (intrFault_declared hd hl), intrSequence_tasksOff _ hcheck ht,
    intrRoutine_declared (s := s.setReg .rip _) hd, State.setReg_world, intrHandler_declared hd']
  rfl

/-- What a routine does says nothing of RIP, before it either. -/
theorem RoutineRuns.of_setRip {r : RoutineEffect} {t : State} {w : Word} (h : RoutineRuns r (s.setReg .rip w) t) :
    RoutineRuns r s t where
  regs q hq := by
    rw [h.regs q hq, State.reg_setReg_other _ _ (by rintro rfl; revert hq; decide)]
    rfl
  mem := h.mem
  frame :=
    { h.frame with
      regs := fun q hq => by rw [h.frame.regs q hq, State.reg_setReg_other _ _ (List.ne_of_not_mem_cons hq)] }
  hidden := h.hidden

/-- The state after a routine that ran past the INTR and the entry of the handler. -/
theorem enterHandler_routine_ends (h1 : 1 ≤ id.toNat) (hv : s.vector[id.toNat - 1]? = some e)
    (hf : fits s.params e.handler = true) (r : RoutineEffect) :
    let t := enterHandler id (applyRoutine r (s.setReg .rip (nextAddress s (.intr id))))
    RoutineRuns r s t ∧ t.reg .rip = if e = ⟨0, 0⟩ then nextAddress s (.intr id) else e.handler := by
  have hruns := applyRoutine_runs r (s.setReg .rip (nextAddress s (.intr id)))
  have hvector := hruns.frame.vector
  rw [enterHandler_eq h1 (hvector ▸ hv)]
  split
  · refine ⟨hruns.of_setRip, ?_⟩
    rw [applyRoutine_rip, State.reg_setReg_same, toWord_nextAddress]
  · refine ⟨(hruns.setRip e.handler).of_setRip, ?_⟩
    rw [State.reg_setReg_same, hruns.frame.params]
    exact toWord_of_lt _ _ ((fits_iff _ _).mp hf)

end

/-- Settles O38: each clause is one branch of the validation. -/
theorem intrValidationFaults : Obligations.IntrValidationFaults := by
  intro s id n known
  have hknown : isArchSoftware s.params id = true ↔ known := isArchSoftware_iff
  refine ⟨fun h => ?_, fun h1 h31 hl hk => ?_, fun h1 h31 hl hk => ?_, fun h1 h31 hl hk => ?_,
    fun e h32 h127 hv => ⟨fun hl hflag => ?_, fun hl he => ?_⟩⟩ <;> apply exec_intr_fault
  · exact intrFault_outside h
  · rw [intrFault_low h1 h31, if_pos hl, if_pos (hknown.mpr hk)]
  · rw [intrFault_low h1 h31, if_pos hl, if_neg (hk ∘ hknown.mp)]
  · rw [intrFault_low h1 h31, if_neg (by simp [hl]), if_neg (hk ∘ hknown.mp)]
  · rw [intrFault_high h32 h127 hv, if_pos (by rw [hl, hflag]; rfl)]
  · rw [intrFault_high h32 h127 hv, if_neg (by simp [hl]), if_pos ((disabled_iff e).mpr he)]

/-- Settles O39: a user-defined interrupt is a jump to its handler, a declared one its routine and then the handler. -/
theorem intrTrappable : Obligations.IntrTrappable := by
  refine fun s id e hv hf => ⟨fun h32 h127 hne hl ht => ?_, fun hd hl => ⟨fun f hfault => ?_, fun hfault ht => ?_⟩⟩
  · exact ⟨_, exec_intr_user_tasksOff h32 h127 hv hne hl ht, setRip_ends hf⟩
  · exact exec_intr_declared_fault hd hl hfault
  · have h1 : 1 ≤ id.toNat := le_trans (by decide) hd.1
    exact ⟨_, exec_intr_declared_tasksOff hd hl hfault ht, enterHandler_routine_ends h1 hv hf _⟩

end Sys2Proof.Machine

/-! SUPPORT. CEB (rules R254 to R256): its four forms reach one block check with the bounds they name. And NOP (rule
R257). -/

namespace Sys2Proof.Machine

/-! ### The four forms of CEB (rule R254) -/

section
variable {s : State}

theorem exec_cebFmm (he : extKnown s) (start stop : Word) :
    exec (.cebFmm start stop) s = finish (cebBlock start stop s) :=
  congrArg finish (nextPc_bind 2 (.cebFmm start stop) rfl he _)

theorem exec_cebFrm (he : extKnown s) (rs : Reg) (stop : Word) :
    exec (.cebFrm rs stop) s = finish (cebBlock (s.reg rs) stop s) :=
  congrArg finish (nextPc_bind 1 (.cebFrm rs stop) rfl he fun _ s => cebBlock (s.reg rs) stop s)

theorem exec_cebFmr (he : extKnown s) (start : Word) (rt : Reg) :
    exec (.cebFmr start rt) s = finish (cebBlock start (s.reg rt) s) :=
  congrArg finish (nextPc_bind 1 (.cebFmr start rt) rfl he fun _ s => cebBlock start (s.reg rt) s)

theorem exec_cebFrr (s : State) (rs rt : Reg) :
    exec (.cebFrr rs rt) s = finish (cebBlock (s.reg rs) (s.reg rt) s) :=
  congrArg finish (nextPc_zero_bind s (.cebFrr rs rt) rfl fun _ s => cebBlock (s.reg rs) (s.reg rt) s)

/-! ### The block check (rules R255, R256) -/

variable {start stop : Word}

/-- Both range checks raise the same fault. -/
theorem cebBlock_range (h : stop.toNat ≤ start.toNat ∨ start.toNat % 4 ≠ 0) :
    cebBlock start stop s = raiseFault .illegalInstruction s := by
  unfold cebBlock
  split
  · rfl
  · next hlt => rw [if_pos (h.resolve_left hlt)]

/-- Past the checks the CEB switch decides (log entry 14). -/
theorem cebBlock_past (hlt : start.toNat < stop.toNat) (ha : start.toNat % 4 = 0) :
    (s.params.ceb = .refuse → cebBlock start stop s = .refuse .cebBlock) ∧
    (s.params.ceb = .sequential → cebBlock start stop s = .ok () (s.setReg .rip start)) := by
  unfold cebBlock
  rw [if_neg (by omega), if_neg (not_not_intro ha)]
  exact ⟨fun h => by rw [h], fun h => by rw [h]⟩

end

/-- Settles O48: the four forms are `cebBlock` with the bounds they name. -/
theorem cebRangeFaults : Obligations.CebRangeFaults := by
  intro s start stop he h
  have hfault : finish (cebBlock start stop s) = faultEntry ⟨.illegalInstruction, none⟩ s :=
    congrArg finish (cebBlock_range h)
  refine ⟨(exec_cebFmm he start stop).trans hfault, ?_, ?_, ?_⟩
  · rintro rs rfl
    exact (exec_cebFrm he rs stop).trans hfault
  · rintro rt rfl
    exact (exec_cebFmr he start rt).trans hfault
  · rintro rs rt rfl rfl
    exact (exec_cebFrr s rs rt).trans hfault

/-- Settles O49: the four forms are `cebBlock`, and each setting of the switch is one of its outcomes. -/
theorem cebPastChecks : Obligations.CebPastChecks := by
  intro s start stop i he hlt ha hf hi
  have hexec : exec i s = finish (cebBlock start stop s) := by
    rcases hi with rfl | ⟨rs, rfl, rfl⟩ | ⟨rt, rfl, rfl⟩ | ⟨rs, rt, rfl, rfl, rfl⟩
    · exact exec_cebFmm he start stop
    · exact exec_cebFrm he rs stop
    · exact exec_cebFmr he start rt
    · exact exec_cebFrr s rs rt
  obtain ⟨hrefuse, hsequential⟩ := cebBlock_past (s := s) hlt ha
  refine ⟨fun h => ?_, fun h => ⟨s.setReg .rip start, ?_, setRip_ends hf⟩⟩
  · rw [hexec, hrefuse h]
    rfl
  · rw [hexec, hsequential h]
    rfl

/-! ### NOP (rule R257) -/

theorem exec_nop (s : State) : exec .nop s = .next (s.setReg .rip (nextAddress s .nop)) :=
  congrArg finish (nextPc_zero_bind s .nop rfl fun next s => .ok () (s.setReg .rip next))

/-- Settles O50: NOP writes RIP with the next address. -/
theorem nopAdvances : Obligations.NopAdvances := by
  intro s
  obtain ⟨hrip, hframe⟩ := setRip_ends (s := s) (w := nextAddress s .nop) (fits_toWord _ _)
  exact ⟨_, exec_nop s, by rw [hrip, nextAddress_toNat s rfl], hframe⟩

end Sys2Proof.Machine

/-! SUPPORT. Fault entry without a context switch, the bits that fault entry leaves in RFF (rules R299, R301, R303), and
the step of a CPU that is halted or has bad hardware (rules R286, R345, R384). -/

namespace Sys2Proof.Machine

/-! ### RFF with a fault recorded (rules R299, R303) -/

section
variable (v : Word) (f : ArchFault) (t : Trap)

theorem rffWith_unmarked_getLsbD (k : Nat) :
    (rffWith v ⟨f, none⟩).getLsbD k = (v.getLsbD k || decide (k = faultBit f)) :=
  withBit_getLsbD v _ k (lt_trans (faultBit_lt f) (by decide))

/-- The Interrupt ID field, bit by bit: what RFF held there is overwritten. -/
theorem rffWith_marked_getLsbD (id : Byte) {i : Nat} (hi : i < 8) :
    (rffWith v ⟨f, some id⟩).getLsbD (24 + i) = id.getLsbD i := by
  have hcleared : ∀ i < 8, (~~~(0xFF000000#64) : Word).getLsbD (24 + i) = false := by decide
  have hid : (id.setWidth 64 <<< 24 : Word).getLsbD (24 + i) = id.getLsbD i := by
    rw [BitVec.getLsbD_shiftLeft, Nat.add_sub_cancel_left, BitVec.getLsbD_setWidth]
    simp [show 24 + i < 64 by omega, show i < 64 by omega]
  simp only [rffWith]
  rw [BitVec.getLsbD_or, BitVec.getLsbD_and, hcleared i hi, Bool.and_false, Bool.false_or, hid]

/-- The Interrupt ID field as a number. -/
theorem rffWith_idField (id : Byte) : (rffWith v ⟨f, some id⟩).toNat / 2 ^ 24 % 256 = id.toNat := by
  refine Nat.eq_of_testBit_eq fun i => ?_
  rw [show 256 = 2 ^ 8 from rfl, Nat.testBit_mod_two_pow, Nat.testBit_div_two_pow, BitVec.testBit_toNat,
    BitVec.testBit_toNat, Nat.add_comm]
  by_cases hi : i < 8
  · rw [rffWith_marked_getLsbD v f id hi, decide_eq_true hi, Bool.true_and]
  · rw [decide_eq_false hi, Bool.false_and, BitVec.getLsbD_of_ge id i (by omega)]

theorem fits_rffWith {p : Params} (h : fits p v = true) : fits p (rffWith v t) = true := by
  rw [fits_iff] at h ⊢
  refine Nat.lt_pow_two_of_testBit _ fun k hk => ?_
  have hx := xlen_ge p
  have hf := faultBit_lt t.fault
  have hclear : v.getLsbD k = false := by
    rw [← BitVec.testBit_toNat]
    exact Nat.testBit_lt_two_pow (lt_of_lt_of_le h (Nat.pow_le_pow_right (by decide) hk))
  rw [BitVec.testBit_toNat, rffWith_getLsbD v t (.inr (by omega)), hclear, decide_eq_false (by omega),
    decide_eq_false (by omega)]
  rfl

end

/-- The fault `f` with its marker is recorded in RFF of `t`, which was that of `s`; no other bit is changed. -/
def Records (f : ArchFault) (marker : Option Byte) (s t : State) : Prop :=
  (t.reg .rff).getLsbD (faultBit f) = true ∧
    (∀ id, marker = some id → (t.reg .rff).getLsbD 13 = true ∧ (t.reg .rff).toNat / 2 ^ 24 % 256 = id.toNat) ∧
    ∀ k, k ≠ faultBit f → (marker = none ∨ (k ≠ 13 ∧ (k < 24 ∨ 32 ≤ k))) →
      (t.reg .rff).getLsbD k = (s.reg .rff).getLsbD k

theorem records_of_rff {f : ArchFault} {marker : Option Byte} {s t : State}
    (h : t.reg .rff = rffWith (s.reg .rff) ⟨f, marker⟩) : Records f marker s t := by
  have hf := faultBit_lt f
  rw [Records, h]
  refine ⟨?_, ?_, fun k hk hout => ?_⟩
  · rw [rffWith_getLsbD _ _ (.inl (by omega)), decide_eq_true rfl, Bool.or_true, Bool.true_or]
  · rintro id rfl
    refine ⟨?_, rffWith_idField _ _ _⟩
    rw [rffWith_getLsbD _ _ (.inl (by decide))]
    simp
  · rcases hout with rfl | ⟨h13, hfield⟩
    · rw [rffWith_unmarked_getLsbD, decide_eq_false hk, Bool.or_false]
    · rw [rffWith_getLsbD _ _ hfield, decide_eq_false hk, decide_eq_false fun h => h13 h.2, Bool.or_false,
        Bool.or_false]

/-! ### Fault entry without a context switch (rules R301, R345) -/

section
variable {tr : Trap} {s t : State}

theorem recordFault_rff_of_fits (tr : Trap) (h : fits s.params (s.reg .rff) = true) :
    (s.recordFault tr).reg .rff = rffWith (s.reg .rff) tr := by
  rw [State.recordFault_rff, toWord_of_lt _ _ ((fits_iff _ _).mp (fits_rffWith _ tr h))]

/-- A Machine Check, or a fault with fault handling disabled, halts. -/
theorem faultEntry_halts (h : tr.fault = .machineCheck ∨ s.faultsOn = false) :
    faultEntry tr s = .next (s.recordFault tr).halt := by
  have hoff : (s.recordFault tr).faultsOn = s.faultsOn := rfl
  rw [faultEntry, hoff]
  by_cases hm : tr.fault = .machineCheck
  · rw [if_pos hm]
  · rw [if_neg hm, if_neg (ne_true_of_eq_false (h.resolve_left hm))]

/-- With task registers disabled, fault entry is a jump to RFA. -/
theorem faultEntry_tasksOff (hm : tr.fault ≠ .machineCheck) (hon : s.faultsOn = true) (ht : s.tasksOn = false) :
    faultEntry tr s = .next ((s.recordFault tr).setReg .rip (s.reg .rfa)) := by
  have hon' : (s.recordFault tr).faultsOn = true := hon
  have hstay : switchToBase ((s.recordFault tr).reg .rip) (s.recordFault tr) = .ok () (s.recordFault tr) :=
    if_neg (ne_true_of_eq_false ht)
  rw [faultEntry, if_neg hm, if_pos hon', hstay]
  rfl

theorem frame_recordFault {changed : List Reg} (tr : Trap) (h : .rff ∈ changed) :
    Frame changed [] s (s.recordFault tr) :=
  (Frame.same changed [] s).setReg h _

end

/-- Settles O52: the fault is recorded, and then the CPU halts or RIP takes RFA. -/
theorem faultEntryWithoutSwitch : Obligations.FaultEntryWithoutSwitch := by
  intro f marker s hrff hrfa recorded
  have hrecorded := recordFault_rff_of_fits ⟨f, marker⟩ hrff
  refine ⟨fun h => ⟨_, faultEntry_halts h, ?_, rfl, { frame_recordFault _ List.mem_cons_self with halted := rfl }, rfl⟩,
    fun hm hon ht => ⟨_, faultEntry_tasksOff hm hon ht, ?_, ?_,
      (frame_recordFault _ (by decide)).setReg (by decide) _, rfl⟩⟩
  · exact records_of_rff hrecorded
  · exact records_of_rff ((State.reg_setReg_other _ _ (by decide)).trans hrecorded)
  · rw [State.reg_setReg_same]
    exact toWord_of_lt _ _ ((fits_iff _ _).mp hrfa)

/-! ### The bits that stay set (rule R303) -/

/-- Outside the Interrupt ID field, RFF of `t` has every bit that RFF of `s` has. -/
structure RffGrows (s t : State) : Prop where
  params : t.params = s.params
  bits : ∀ k, k < 24 ∨ (32 ≤ k ∧ k < s.params.xlen) → (s.reg .rff).getLsbD k = true →
    (t.reg .rff).getLsbD k = true

theorem RffGrows.of_same {s t u : State} (h : RffGrows s t) (hp : u.params = t.params)
    (hr : u.reg .rff = t.reg .rff) : RffGrows s u :=
  ⟨hp.trans h.params, fun k hk hs => hr ▸ h.bits k hk hs⟩

/-- Of the effects of fault entry only the recording of faults touches RFF, and that clears no bit. -/
theorem keepsEntry_rffGrows (s : State) : KeepsEntry (RffGrows s) where
  hidden _ _ h _ := h.of_same rfl rfl
  mem _ _ _ h _ := h.of_same rfl rfl
  rip t v h := h.of_same rfl (t.reg_setReg_other v (by decide))
  record t tr h := ⟨h.params, fun k hk hs => t.recordFault_keeps_bit tr (h.params ▸ hk) (h.bits k hk hs)⟩
  halt _ h := h.of_same rfl rfl
  base t vs h _ hv := h.of_same (setRegs_params t vs) (setRegs_reg_other (by rw [hv]; decide))

/-- What holds once the fault is recorded, and survives what fault entry may do, holds at its end. -/
theorem faultEntry_keeps_recorded {P : State → Prop} (k : KeepsEntry P) {tr : Trap} {s t : State}
    (h : P (s.recordFault tr)) (he : faultEntry tr s = .next t) : P t := by
  have hswitch := switchToBase_all k ((s.recordFault tr).reg .rip) h
  simp only [faultEntry] at he
  split at he
  · cases he
    exact k.halt _ h
  split at he
  · cases hx : switchToBase ((s.recordFault tr).reg .rip) (s.recordFault tr) with
    | ok _ u =>
      rw [hx] at he
      cases he
      exact k.rip _ _ (hswitch.of_ok hx)
    | raise tx u =>
      rw [hx] at he
      cases he
      exact k.halt _ (k.record _ _ (hswitch.of_raise hx))
    | refuse r => rw [hx] at he; cases he
    | stop e => rw [hx] at he; cases he
  · cases he
    exact k.halt _ h

/-- Settles O55: the fault's bit and the bits set before are in RFF once the fault is recorded, and stay. -/
theorem faultBitsAccumulate : Obligations.FaultBitsAccumulate := by
  intro tr s t he
  have hgrows : RffGrows (s.recordFault tr) t :=
    faultEntry_keeps_recorded (keepsEntry_rffGrows _) ⟨rfl, fun _ _ h => h⟩ he
  have hbit := faultBit_lt tr.fault
  exact ⟨hgrows.bits _ (.inl (by omega)) (s.recordFault_bit tr),
    fun k hk hs => hgrows.bits k hk (s.recordFault_keeps_bit tr hk hs)⟩

/-! ### Halted CPUs and bad hardware (rules R286, R345, R384) -/

theorem step_halted {s : State} (h : s.halted = true) : step s = .next s := if_pos h

theorem step_badHardware {s : State} (h : s.halted = false) (hb : HostEvent.badHardware ∈ (currentTick s).events) :
    step s = .next ((arrivals s).recordFault ⟨.machineCheck, none⟩).halt := by
  rw [step, cycle, if_neg (ne_true_of_eq_false h), if_pos (List.contains_iff_mem.mpr hb)]
  exact faultEntry_halts (.inl rfl)

theorem arrive_mem_regs (s : State) (e : HostEvent) : (arrive s e).mem = s.mem ∧ (arrive s e).regs = s.regs := by
  unfold arrive
  split
  · exact ⟨rfl, rfl⟩
  · split <;> exact ⟨rfl, rfl⟩
  · split <;> exact ⟨rfl, rfl⟩
  · exact ⟨rfl, rfl⟩

/-- Events of the outside world write neither memory nor registers. -/
theorem arrivals_mem_regs (s : State) : (arrivals s).mem = s.mem ∧ (arrivals s).regs = s.regs := by
  have hfold : ∀ (es : List HostEvent) (u : State),
      (es.foldl arrive u).mem = u.mem ∧ (es.foldl arrive u).regs = u.regs := by
    intro es
    induction es with
    | nil => exact fun u => ⟨rfl, rfl⟩
    | cons e es ih =>
      intro u
      obtain ⟨hmem, hregs⟩ := arrive_mem_regs u e
      obtain ⟨hmems, hregss⟩ := ih (arrive u e)
      exact ⟨hmems.trans hmem, hregss.trans hregs⟩
  exact hfold _ _

/-- Settles O56: the two branches of a step that come before any instruction. -/
theorem haltIsTerminal : Obligations.HaltIsTerminal := by
  refine fun s => ⟨step_halted, fun h hb => ⟨_, step_badHardware h hb, rfl, ?_, ?_, fun r hr => ?_⟩⟩
  · exact (arrivals s).recordFault_bit ⟨.machineCheck, none⟩
  · exact (arrivals_mem_regs s).1
  · rw [State.halt_reg, State.recordFault_reg _ _ hr, State.reg, (arrivals_mem_regs s).2]
    rfl

end Sys2Proof.Machine

/-! SUPPORT. Hardware interrupts: which pending request is chosen (rule R318), and its delivery with and without a
context switch (rules R312, R324, R333, R341). -/

namespace Sys2Proof.Machine

/-! ### The request chosen (rule R318) -/

section
variable {r : Request} {rs : List Request}

/-- A request that is the first of its ID is the oldest pending one of that ID. -/
theorem find?_of_mem_firstOfEach (h : r ∈ firstOfEach rs) : rs.find? (fun x => x.id = r.id) = some r := by
  induction rs with
  | nil => cases h
  | cons y ys ih =>
    rcases List.mem_cons.mp h with rfl | h
    · exact List.find?_cons_of_pos (decide_eq_true rfl)
    · obtain ⟨hmem, hne⟩ := List.mem_filter.mp h
      rw [List.find?_cons_of_neg (by simpa using Ne.symm (of_decide_eq_true hne)), ih hmem]

/-- Every pending ID has a first request. -/
theorem exists_mem_firstOfEach (h : r ∈ rs) : ∃ x ∈ firstOfEach rs, x.id = r.id := by
  induction rs with
  | nil => cases h
  | cons y ys ih =>
    by_cases hy : y.id = r.id
    · exact ⟨y, List.mem_cons_self, hy⟩
    · obtain ⟨x, hx, hid⟩ := ih ((List.mem_cons.mp h).resolve_left fun hr => hy (hr ▸ rfl))
      refine ⟨x, List.mem_cons_of_mem _ (List.mem_filter.mpr ⟨hx, decide_eq_true ?_⟩), hid⟩
      rw [hid]
      exact Ne.symm hy

theorem firstOfEach_eq_nil : firstOfEach rs = [] ↔ rs = [] := by
  cases rs <;> simp [firstOfEach]

theorem lowestId_le (r : Request) (rs : List Request) :
    ∀ x ∈ r :: rs, (lowestId r rs).id.toNat ≤ x.id.toNat := by
  induction rs generalizing r with
  | nil => exact fun x hx => List.mem_singleton.mp hx ▸ le_refl _
  | cons y ys ih =>
    obtain ⟨hr, hy⟩ : (if y.id.toNat < r.id.toNat then y else r).id.toNat ≤ r.id.toNat ∧
        (if y.id.toNat < r.id.toNat then y else r).id.toNat ≤ y.id.toNat := by
      split <;> omega
    have hle := ih (if y.id.toNat < r.id.toNat then y else r)
    have hfirst := hle _ List.mem_cons_self
    rw [lowestId]
    intro x hx
    rcases List.mem_cons.mp hx with rfl | hx
    · exact hfirst.trans hr
    rcases List.mem_cons.mp hx with rfl | hx
    · exact hfirst.trans hy
    · exact hle x (List.mem_cons_of_mem _ hx)

variable {p : Params} {h h' : Hidden}

theorem choosePending_eq_none : choosePending p rs h = none ↔ rs = [] := by
  rw [← firstOfEach_eq_nil, choosePending]
  split
  · next hnil => exact iff_of_true rfl hnil
  · next hone => exact iff_of_false nofun (by rw [hone]; nofun)
  · next hmore =>
    refine iff_of_false ?_ (by rw [hmore]; nofun)
    split <;> nofun

/-- Any choice is the first request of its ID; the priority makes it one of the lowest ID. -/
theorem choosePending_firstOfEach (hc : choosePending p rs h = some (r, h')) : r ∈ firstOfEach rs ∧
    (p.priority = .lowestIdFirst → ∀ x ∈ firstOfEach rs, r.id.toNat ≤ x.id.toNat) := by
  unfold choosePending at hc
  split at hc
  · cases hc
  · next hone =>
    cases hc
    rw [hone]
    exact ⟨List.mem_cons_self, fun _ x hx => List.mem_singleton.mp hx ▸ le_refl _⟩
  · next hmore =>
    rw [hmore]
    split at hc
    · cases hc
      exact ⟨lowestId_mem _ _, fun _ => lowestId_le _ _⟩
    · next hfree =>
      cases hc
      exact ⟨getD_mem _ _ _, fun hlow => absurd (hfree.symm.trans hlow) nofun⟩

end

/-- Settles O58: the choice is among the first requests of each ID, whatever the free choices are. -/
theorem pendingChoice : Obligations.PendingChoice := by
  refine fun p ps h => ⟨choosePending_eq_none, fun r h' hc => ?_⟩
  obtain ⟨hmem, hlow⟩ := choosePending_firstOfEach hc
  refine ⟨find?_of_mem_firstOfEach hmem, fun hp x hx => ?_⟩
  obtain ⟨y, hy, hid⟩ := exists_mem_firstOfEach hx
  exact hid ▸ hlow hp y hy

/-! ### The entry of the handler (rule R314) -/

section
variable {s t : State} {id : Byte} {e : VectorEntry}

/-- What holds of the state, wherever RIP points, holds once the handler is entered. -/
theorem enterHandler_of_setRip {P : State → Prop} (id : Byte) (hstay : P s) (hjump : ∀ w, P (s.setReg .rip w)) :
    P (enterHandler id s) := by
  simp only [enterHandler]
  split
  · exact hstay
  · exact hjump _

theorem enterHandler_reg (id : Byte) {q : Reg} (h : q ≠ .rip) : (enterHandler id s).reg q = s.reg q :=
  enterHandler_of_setRip (P := fun t => t.reg q = s.reg q) id rfl fun w => s.reg_setReg_other w h

theorem enterHandler_hidden (id : Byte) (s : State) : (enterHandler id s).hidden = s.hidden :=
  enterHandler_of_setRip (P := fun t => t.hidden = s.hidden) id rfl fun w => s.setReg_hidden w (by decide)

theorem enterHandler_rip (h1 : 1 ≤ id.toNat) (hv : s.vector[id.toNat - 1]? = some e)
    (hf : fits s.params e.handler = true) :
    (enterHandler id s).reg .rip = if e = ⟨0, 0⟩ then s.reg .rip else e.handler := by
  rw [enterHandler_eq h1 hv]
  split
  · rfl
  · rw [State.reg_setReg_same, toWord_of_lt _ _ ((fits_iff _ _).mp hf)]

theorem Frame.enterHandler {changed : List Reg} {stored : List Nat} (h : Frame changed stored s t)
    (hrip : .rip ∈ changed) (id : Byte) : Frame changed stored s (enterHandler id t) :=
  enterHandler_of_setRip id h fun w => h.setReg hrip w

theorem RoutineRuns.enterHandler {x : RoutineEffect} (h : RoutineRuns x s t) (id : Byte) :
    RoutineRuns x s (enterHandler id t) :=
  enterHandler_of_setRip id h h.setRip

theorem Switched.enterHandler {changed : List Reg} {ps pl : Nat} {v : Word} (h : Switched changed s ps pl v t)
    (hrip : .rip ∈ changed) (id : Byte) : Switched changed s ps pl v (enterHandler id t) :=
  enterHandler_of_setRip id h fun w => h.setRip hrip w

/-- After the switch a register that it does not load is written. -/
theorem Switched.setReg {changed : List Reg} {ps pl : Nat} {v : Word} (h : Switched changed s ps pl v t) {r : Reg}
    (hr : r ∈ changed) (hbase : r ∉ baseControl) (w : Word) : Switched changed s ps pl v (t.setReg r w) where
  mem := h.mem
  base q hq := by
    rw [State.reg_setReg_other _ _ (ne_of_mem_of_not_mem hq hbase)]
    exact h.base q hq
  frame := h.frame.setReg (List.mem_append_left _ hr) w
  cache := by
    rw [State.setReg_hidden _ _ (ne_of_mem_of_not_mem (by decide : Reg.rpa ∈ baseControl) hbase).symm]
    exact h.cache

end

/-! ### The delivery (rule R312) -/

section
variable {s t : State} {r : Request} {e : VectorEntry}

/-- A keyboard failure takes the place of the delivery (rule R324). -/
theorem deliveryFault_keyboard (hd : s.world.deviceFails = true) : deliveryFault 0x09 s = some .inputOutput := by
  rw [deliveryFault, if_pos rfl, if_pos hd]

/-- The fault of a declared routine takes the place of the delivery (rule R333). -/
theorem deliveryFault_declared {id : Byte} (hd : declared s .hardware id) :
    deliveryFault id s = s.world.routine.fault := by
  have h9 : id ≠ 0x09 := by
    rintro rfl
    exact absurd hd.1 (by decide)
  rw [deliveryFault, if_neg h9, if_pos (isImplInt_iff.mpr hd)]

theorem deliver_fault {f : ArchFault} (h : deliveryFault r.id s = some f) :
    deliver r s = faultEntry ⟨f, some r.id⟩ s := by
  rw [deliver, h]

/-- The delivery, from the state `t` that the context switch leaves, if there is one. -/
theorem deliver_after_switch (hn : deliveryFault r.id s = none) (hx : switchToBase (s.reg .rip) s = .ok () t) :
    deliver r s = .next (enterHandler r.id (deliveryRoutine r t)) := by
  rw [deliver, hn, hx]
  rfl

theorem deliver_tasksOff (hn : deliveryFault r.id s = none) (ht : s.tasksOn = false) :
    deliver r s = .next (enterHandler r.id (deliveryRoutine r s)) :=
  deliver_after_switch hn (if_neg (ne_true_of_eq_false ht))

theorem deliveryRoutine_undeclared (hd : ¬declared s .hardware r.id) :
    deliveryRoutine r s = s.setReg .rgp1 r.datum :=
  if_neg (hd ∘ isImplInt_iff.mp)

theorem deliveryRoutine_declared (hd : declared s .hardware r.id) :
    deliveryRoutine r s = applyRoutine s.world.routine (s.setReg .rgp1 r.datum) :=
  if_pos (isImplInt_iff.mpr hd)

/-- The datum is in RGP1 as it was raised (rule R315). -/
theorem setReg_datum (hf : fits s.params r.datum = true) : (s.setReg .rgp1 r.datum).reg .rgp1 = r.datum := by
  rw [State.reg_setReg_same, toWord_of_lt _ _ ((fits_iff _ _).mp hf)]

/-- Where execution goes on, with and without a routine of the implementation. -/
theorem delivery_rip (h1 : 1 ≤ r.id.toNat) (hv : s.vector[r.id.toNat - 1]? = some e)
    (hf : fits s.params e.handler = true) :
    (enterHandler r.id (deliveryRoutine r s)).reg .rip = if e = ⟨0, 0⟩ then s.reg .rip else e.handler := by
  have hrip : (s.setReg .rgp1 r.datum).reg .rip = s.reg .rip := s.reg_setReg_other _ (by decide)
  by_cases hd : declared s .hardware r.id
  · have hframe := (applyRoutine_runs s.world.routine (s.setReg .rgp1 r.datum)).frame
    rw [deliveryRoutine_declared hd,
      enterHandler_rip h1 (hframe.vector ▸ hv) (hframe.params ▸ hf), applyRoutine_rip, hrip]
  · rw [deliveryRoutine_undeclared hd, enterHandler_rip (s := s.setReg .rgp1 r.datum) h1 hv hf, hrip]

end

/-- Settles O59: the step is the delivery, and that is a fault, or the datum, the routine and the handler. -/
theorem hardwareDelivery : Obligations.HardwareDelivery := by
  intro s r h e hh hb a b hon hc h1 hv hdatum hhandler rip
  have hstep : step s = deliver r b := step_deliver hh hb hon hc
  refine ⟨fun h9 hdev => ?_, fun f hd hfault => ?_, fun hd hdev ht => ?_, fun hd hfault ht => ?_⟩
  · rw [hstep, deliver_fault (s := b) (h9 ▸ deliveryFault_keyboard hdev), h9]
  · rw [hstep, deliver_fault (s := b) ((deliveryFault_declared hd).trans hfault)]
  · have hnone : deliveryFault r.id b = none :=
      deliveryFault_eq_none (fun h9 => hdev.resolve_left fun hne => hne h9) fun hd' => absurd hd' hd
    have hroutine : deliveryRoutine r b = b.setReg .rgp1 r.datum := deliveryRoutine_undeclared hd
    refine ⟨_, hstep.trans (deliver_tasksOff hnone ht), ?_, delivery_rip (s := b) h1 hv hhandler, ?_, ?_⟩
    · rw [enterHandler_reg _ (by decide), hroutine, setReg_datum (s := b) hdatum]
    · rw [hroutine]
      exact ((Frame.same _ _ b).setReg List.mem_cons_self _).enterHandler (by decide) _
    · rw [enterHandler_hidden, hroutine, State.setReg_hidden _ _ (by decide)]
  · have hnone : deliveryFault r.id b = none := (deliveryFault_declared hd).trans hfault
    refine ⟨b.setReg .rgp1 r.datum, _, setReg_datum hdatum, (Frame.same _ _ b).setReg List.mem_cons_self _,
      State.setReg_hidden _ _ (by decide), hstep.trans (deliver_tasksOff hnone ht), ?_,
      delivery_rip (s := b) h1 hv hhandler⟩
    rw [deliveryRoutine_declared (s := b) hd]
    exact (applyRoutine_runs _ _).enterHandler _

/-- Settles O60: the delivery goes on from the state that the context switch leaves. -/
theorem hardwareDeliverySwitchesTask : Obligations.HardwareDeliverySwitchesTask := by
  intro s r h e ps pl hh hb a b hM hon hc ht h1 hv hdatum hhandler hdev hfault hp hheld rip
  have hstep : step s = deliver r b := step_deliver hh hb hon hc
  have hnone : deliveryFault r.id b = none := deliveryFault_eq_none hdev hfault
  obtain ⟨v, hsw, henter⟩ := enterBase_placed (s := b) hM hp hheld (a.reg .rip)
  have hswitch : switchToBase (b.reg .rip) b = enterBase (a.reg .rip) b := if_pos ht
  have hparams : v.params = a.params := hsw.frame.params
  have hdecl : declared v .hardware r.id ↔ declared a .hardware r.id := by rw [declared, declared, hparams]
  have hok (hbase : ¬baseLevel1 b ps pl (a.reg .rip)) :
      step s = .next (enterHandler r.id (deliveryRoutine r v)) :=
    hstep.trans (deliver_after_switch hnone (hswitch.trans (henter.trans (if_neg hbase))))
  have hrip : (enterHandler r.id (deliveryRoutine r v)).reg .rip = rip := by
    rw [delivery_rip h1 (hsw.frame.vector ▸ hv) (hparams ▸ hhandler), hsw.frame.regs .rip (by decide)]
    rfl
  have hrgp1 : (v.setReg .rgp1 r.datum).reg .rgp1 = r.datum := setReg_datum (hparams ▸ hdatum)
  refine ⟨fun hd hbase => ⟨_, hok hbase, ?_, hrip, ?_⟩, fun hd hbase => ?_, fun hbase => ?_⟩
  · rw [enterHandler_reg _ (by decide), deliveryRoutine_undeclared (hd ∘ hdecl.mp), hrgp1]
  · rw [deliveryRoutine_undeclared (hd ∘ hdecl.mp)]
    exact ((hsw.mono (List.nil_subset _)).setReg (by decide) (by decide) _).enterHandler List.mem_cons_self _
  · refine ⟨v.setReg .rgp1 r.datum, _, hrgp1,
      (hsw.mono (List.nil_subset _)).setReg List.mem_cons_self (by decide) _, hok hbase, ?_, hrip⟩
    rw [deliveryRoutine_declared (hdecl.mpr hd), hsw.frame.world]
    exact (applyRoutine_runs _ _).enterHandler _
  · refine ⟨switchHalted ⟨.machineCheck, none⟩ v, ?_, machineChecked_switchHalted _ _⟩
    rw [hstep, deliver, hnone, hswitch, henter, if_pos hbase]
    exact finish_machineCheck _ _

end Sys2Proof.Machine

/-! SUPPORT. INTR of the architecture's own software interrupts that act on the CPU's state or on the display: what step
1 and the internal routine do (rules R311, R322, R323, R325, R330, R331), without and with a context switch (R341). -/

namespace Sys2Proof.Machine

/-! ### The sequence of an architecture-specific interrupt (rules R251, R311) -/

section
variable {s u : State} {id : Byte}

theorem archSoftwareIds_range (h : id ∈ archSoftwareIds) : 1 ≤ id.toNat ∧ id.toNat < 21 := by
  have hall : ∀ x ∈ archSoftwareIds, 1 ≤ x.toNat ∧ x.toNat < 21 := by decide
  exact hall id h

/-- At level 0 the architecture's own software interrupts are granted. -/
theorem intrFault_arch (h : id ∈ archSoftwareIds) (hl : s.level1 = false) : intrFault s id = none := by
  obtain ⟨h1, h21⟩ := archSoftwareIds_range h
  have harch : isArchSoftware s.params id = true := isArchSoftware_iff.mpr (.inl h)
  rw [intrFault_low h1 (by omega), hl, harch]
  rfl

/-- None of them is trappable (rules R310, R313). -/
theorem intrHandler_arch (h : id ∈ archSoftwareIds) (s : State) : intrHandler id s = s := by
  obtain ⟨-, h21⟩ := archSoftwareIds_range h
  have himpl : isImplInt s.params .software id = false := by
    simp [isImplInt, show ¬21 ≤ id.toNat by omega]
  refine if_neg ?_
  simp [isTrappable, himpl, show ¬32 ≤ id.toNat by omega]

/-- A fault of step 1 is taken with RIP still at the INTR (rule R316). -/
theorem exec_intr_raise {tr : Trap} (h : id ∈ archSoftwareIds) (hl : s.level1 = false)
    (hp : intrPrepare id s = .raise tr u) : exec (.intr id) s = faultEntry tr u := by
  rw [exec_intr_granted (intrFault_arch h hl), intrSequence, hp]
  rfl

theorem exec_intr_refuse {r : Refusal} (h : id ∈ archSoftwareIds) (hl : s.level1 = false)
    (hp : intrPrepare id s = .refuse r) : exec (.intr id) s = .refused r := by
  rw [exec_intr_granted (intrFault_arch h hl), intrSequence, hp]
  rfl

theorem exec_intr_arch_tasksOff (h : id ∈ archSoftwareIds) (hl : s.level1 = false) (hp : intrPrepare id s = .ok () u)
    (ht : u.tasksOn = false) :
    exec (.intr id) s = .next (intrRoutine id (u.setReg .rip (nextAddress s (.intr id)))) := by
  rw [exec_intr_granted (intrFault_arch h hl), intrSequence_tasksOff _ hp ht, intrHandler_arch h]
  rfl

end

/-! ### Step 1 (rules R322, R325, R331) -/

section
variable {s u : State}

theorem intrPrepare_vector_raise (h : (s.reg .rgp1).toNat = 0 ∨ 127 < (s.reg .rgp1).toNat) :
    intrPrepare 0x01 s = .raise ⟨.badOperationValue, some 0x01⟩ s := if_pos h

theorem intrPrepare_vector_refuse (h1 : 1 ≤ (s.reg .rgp1).toNat) (h127 : (s.reg .rgp1).toNat ≤ 127)
    (hflags : 2 ≤ (s.reg .rgp2).toNat) : intrPrepare 0x01 s = .refuse .vectorFlags := by
  have hbits : bitsFrom (s.reg .rgp2) 1 ≠ 0 := by
    rw [bitsFrom]
    omega
  exact (if_neg (by omega)).trans (if_pos hbits)

/-- Step 1 of INTR 0x01 goes on for an ID of the vector and flags without a reserved bit, and changes nothing. -/
theorem intrPrepare_vector_ok : intrPrepare 0x01 s = .ok () u ↔
    u = s ∧ 1 ≤ (s.reg .rgp1).toNat ∧ (s.reg .rgp1).toNat ≤ 127 ∧ (s.reg .rgp2).toNat ≤ 1 := by
  constructor
  · intro h
    by_cases hid : (s.reg .rgp1).toNat = 0 ∨ 127 < (s.reg .rgp1).toNat
    · rw [intrPrepare_vector_raise hid] at h
      cases h
    by_cases hflags : 2 ≤ (s.reg .rgp2).toNat
    · rw [intrPrepare_vector_refuse (by omega) (by omega) hflags] at h
      cases h
    · have hok : intrPrepare 0x01 s = .ok () s := (if_neg hid).trans (if_neg (by rw [bitsFrom]; omega))
      rw [hok] at h
      cases h
      exact ⟨rfl, by omega, by omega, by omega⟩
  · rintro ⟨rfl, h1, h127, hflags⟩
    exact (if_neg (by omega)).trans (if_neg (by rw [bitsFrom]; omega))

/-- The values of Table 9.1 and the granularities they name. -/
abbrev granularities : List (Nat × Granularity) :=
  [(0x01, .nanoseconds), (0x02, .microseconds), (0x04, .milliseconds), (0x08, .seconds)]

theorem granularityOf_eq_some {v : Word} {g : Granularity} :
    granularityOf v = some g ↔ (v.toNat, g) ∈ granularities := by
  unfold granularityOf
  split
  · next h => simp [h, eq_comm (a := g)]
  · next h => simp [h, eq_comm (a := g)]
  · next h => simp [h, eq_comm (a := g)]
  · next h => simp [h, eq_comm (a := g)]
  · next h1 h2 h3 h4 =>
    simp [show v.toNat ≠ 1 from h1, show v.toNat ≠ 2 from h2, show v.toNat ≠ 4 from h3, show v.toNat ≠ 8 from h4]

theorem granularityOf_eq_none {v : Word} : granularityOf v = none ↔ v.toNat ∉ [0x01, 0x02, 0x04, 0x08] := by
  rw [← not_iff_not, not_not, ← ne_eq, Option.ne_none_iff_exists']
  simp only [granularityOf_eq_some]
  constructor
  · rintro ⟨g, hg⟩
    exact List.mem_map_of_mem (f := Prod.fst) hg
  · intro h
    obtain ⟨⟨n, g⟩, hg, hn⟩ := List.mem_map.mp (show v.toNat ∈ granularities.map Prod.fst from h)
    exact ⟨g, by rwa [← hn]⟩

theorem intrPrepare_timer_raise (h : 7 < (s.reg .rgp1).toNat ∨ granularityOf (s.reg .rgp2) = none) :
    intrPrepare 0x0F s = .raise ⟨.badOperationValue, some 0x0F⟩ s := if_pos h

/-- Step 1 of INTR 0x0F goes on for a Timer ID and a granularity of Table 9.1, and changes nothing. -/
theorem intrPrepare_timer_ok : intrPrepare 0x0F s = .ok () u ↔
    u = s ∧ (s.reg .rgp1).toNat ≤ 7 ∧ granularityOf (s.reg .rgp2) ≠ none := by
  by_cases hbad : 7 < (s.reg .rgp1).toNat ∨ granularityOf (s.reg .rgp2) = none
  · rw [intrPrepare_timer_raise hbad]
    refine iff_of_false nofun ?_
    rintro ⟨-, h7, hg⟩
    exact hbad.elim (fun h => by omega) hg
  · have hok : intrPrepare 0x0F s = .ok () s := if_neg hbad
    rw [not_or, not_lt] at hbad
    rw [hok]
    simp [hbad, eq_comm (a := u)]

/-- The state after a byte sent to the display (rule R325). -/
def displayed (s : State) : State :=
  { s with world := { s.world with display := s.world.display ++ [BitVec.ofNat 8 (s.reg .rgp1).toNat] } }

theorem intrPrepare_display_raise (h : s.world.deviceFails = true) :
    intrPrepare 0x0A s = .raise ⟨.inputOutput, some 0x0A⟩ s := if_pos h

/-- Step 1 of INTR 0x0A is the device operation (log entry 16). -/
theorem intrPrepare_display_ok : intrPrepare 0x0A s = .ok () u ↔ s.world.deviceFails = false ∧ u = displayed s := by
  cases hd : s.world.deviceFails with
  | true =>
    rw [intrPrepare_display_raise hd]
    exact iff_of_false nofun nofun
  | false =>
    have hok : intrPrepare 0x0A s = .ok () (displayed s) := if_neg (ne_true_of_eq_false hd)
    rw [hok]
    simp [eq_comm (a := u)]

theorem intrPrepare_halt (s : State) : intrPrepare 0x03 s = .ok () s := rfl

theorem intrPrepare_pageCache (s : State) : intrPrepare 0x0D s = .ok () s := rfl

/-- Step 1 leaves the parameters. -/
theorem intrPrepare_params {id : Byte} (h : intrPrepare id s = .ok () u) : u.params = s.params :=
  ((intrPrepare_all ((keepsStep_sameReserved s).exec (.intr id)) ⟨rfl, fun _ _ => rfl⟩).of_ok h).params

end

/-! ### The internal routines (rules R322, R323, R330, R331) -/

section
variable (s : State)

theorem intrRoutine_vector : intrRoutine 0x01 s =
    { s with vector := s.vector.setIfInBounds ((s.reg .rgp1).toNat - 1) ⟨s.reg .rgp2, s.reg .rgp3⟩ } := rfl

theorem intrRoutine_halt : intrRoutine 0x03 s = s.halt := rfl

theorem intrRoutine_display : intrRoutine 0x0A s = s := rfl

theorem intrRoutine_storage : intrRoutine 0x0B s = s := rfl

theorem intrRoutine_pageCache : intrRoutine 0x0D s = { s with hidden := { s.hidden with
    cache := s.hidden.cache.filter fun c => c.basePhysical ≠ s.reg .rgp1 } } := rfl

theorem intrRoutine_timer {g : Granularity} (hg : granularityOf (s.reg .rgp2) = some g) : intrRoutine 0x0F s =
    { s with timers := s.timers.setIfInBounds (s.reg .rgp1).toNat (some ⟨g, s.reg .rgp3⟩) } := by
  change (match granularityOf (s.reg .rgp2) with | some g => _ | none => s) = _
  rw [hg]

theorem intrRoutine_timer_none (hg : granularityOf (s.reg .rgp2) = none) : intrRoutine 0x0F s = s := by
  change (match granularityOf (s.reg .rgp2) with | some g => _ | none => s) = _
  rw [hg]

end

/-- `t` is `v` after the internal routine of the architecture's own software interrupt `id`: it writes no register and
no byte of memory, and each table is that of its own interrupt. -/
structure ArchRoutine (id : Byte) (v t : State) : Prop where
  rest : t = { v with vector := t.vector, timers := t.timers, halted := t.halted, hidden := t.hidden }
  vector : id ≠ 0x01 → t.vector = v.vector
  timers : id ≠ 0x0F → t.timers = v.timers
  halted : t.halted = if id = 0x03 then true else v.halted
  cache : t.hidden.cache ⊆ v.hidden.cache

theorem intrRoutine_arch {id : Byte} (h : id ∈ archSoftwareIds) (v : State) :
    ArchRoutine id v (intrRoutine id v) := by
  simp only [archSoftwareIds, List.mem_cons, List.not_mem_nil, or_false] at h
  obtain rfl | rfl | rfl | rfl | rfl | rfl := h
  · rw [intrRoutine_vector]
    exact ⟨rfl, fun hne => absurd rfl hne, fun _ => rfl, rfl, List.Subset.refl _⟩
  · rw [intrRoutine_halt]
    exact ⟨rfl, fun _ => rfl, fun _ => rfl, rfl, List.Subset.refl _⟩
  · rw [intrRoutine_display]
    exact ⟨rfl, fun _ => rfl, fun _ => rfl, rfl, List.Subset.refl _⟩
  · rw [intrRoutine_storage]
    exact ⟨rfl, fun _ => rfl, fun _ => rfl, rfl, List.Subset.refl _⟩
  · rw [intrRoutine_pageCache]
    exact ⟨rfl, fun _ => rfl, fun _ => rfl, rfl, fun _ hc => List.mem_of_mem_filter hc⟩
  · cases hg : granularityOf (v.reg .rgp2) with
    | some g =>
      rw [intrRoutine_timer v hg]
      exact ⟨rfl, fun _ => rfl, fun hne => absurd rfl hne, rfl, List.Subset.refl _⟩
    | none =>
      rw [intrRoutine_timer_none v hg]
      exact ⟨rfl, fun _ => rfl, fun _ => rfl, rfl, List.Subset.refl _⟩

/-- Settles O42: the outcomes of step 1, and the entry that the routine writes. -/
theorem intrVectorConfiguration : Obligations.IntrVectorConfiguration := by
  refine fun s hl => ⟨fun h => exec_intr_raise (by decide) hl (intrPrepare_vector_raise h),
    fun h1 h127 hflags => exec_intr_refuse (by decide) hl (intrPrepare_vector_refuse h1 h127 hflags),
    fun h1 h127 hflags ht => ?_⟩
  have hprepare := intrPrepare_vector_ok.mpr ⟨rfl, h1, h127, hflags⟩
  obtain ⟨hrip, hframe, hhidden⟩ := setRip_ends (s := s) (w := nextAddress s (.intr 0x01)) (fits_toWord _ _)
  refine ⟨_, exec_intr_arch_tasksOff (by decide) hl hprepare ht, ?_, fun k hk => ?_, hrip,
    { hframe with vector := rfl }, hhidden⟩
  · exact Vector.getElem?_setIfInBounds_self_of_lt (show (s.reg .rgp1).toNat - 1 < 127 by omega)
  · exact Vector.getElem?_setIfInBounds_ne hk.symm

/-- Settles O43: the routine of 0x03 halts, and the device operation of 0x0A is its step 1. -/
theorem intrHaltAndDisplay : Obligations.IntrHaltAndDisplay := by
  refine fun s hl => ⟨fun ht => ?_, fun ht hd => ?_,
    fun hd => exec_intr_raise (by decide) hl (intrPrepare_display_raise hd)⟩
  · obtain ⟨hrip, hframe, hhidden⟩ := setRip_ends (s := s) (w := nextAddress s (.intr 0x03)) (fits_toWord _ _)
    exact ⟨_, exec_intr_arch_tasksOff (by decide) hl (intrPrepare_halt s) ht, rfl, hrip,
      { hframe with halted := rfl }, hhidden⟩
  · obtain ⟨hrip, hframe, hhidden⟩ := setRip_ends (s := s) (w := nextAddress s (.intr 0x0A)) (fits_toWord _ _)
    exact ⟨_, exec_intr_arch_tasksOff (by decide) hl (intrPrepare_display_ok.mpr ⟨hd, rfl⟩) ht, rfl, hrip,
      { hframe with world := rfl }, hhidden⟩

/-- Settles O47: the cache that the routine of 0x0D leaves, and the outcomes of step 1 and of the routine of 0x0F. -/
theorem intrPageCacheAndTimer : Obligations.IntrPageCacheAndTimer := by
  refine fun s hl => ⟨fun ht => ?_, fun h => ?_, fun g hg h7 ht => ?_⟩
  · obtain ⟨hrip, hframe, -⟩ := setRip_ends (s := s) (w := nextAddress s (.intr 0x0D)) (fits_toWord _ _)
    exact ⟨_, exec_intr_arch_tasksOff (by decide) hl (intrPrepare_pageCache s) ht, rfl, hrip, { hframe with }⟩
  · exact exec_intr_raise (by decide) hl (intrPrepare_timer_raise (h.imp_right granularityOf_eq_none.mpr))
  · have hsome : granularityOf (s.reg .rgp2) = some g := granularityOf_eq_some.mpr hg
    have hprepare := intrPrepare_timer_ok.mpr ⟨rfl, h7, Option.ne_none_iff_exists'.mpr ⟨g, hsome⟩⟩
    have hexec := exec_intr_arch_tasksOff (by decide) hl hprepare ht
    obtain ⟨hrip, hframe, hhidden⟩ := setRip_ends (s := s) (w := nextAddress s (.intr 0x0F)) (fits_toWord _ _)
    rw [intrRoutine_timer (s.setReg .rip _) hsome] at hexec
    refine ⟨_, hexec, ?_, fun k hk => ?_, hrip, { hframe with timers := rfl }, hhidden⟩
    · exact Vector.getElem?_setIfInBounds_self_of_lt (show (s.reg .rgp1).toNat < 8 by omega)
    · exact Vector.getElem?_setIfInBounds_ne hk.symm

/-! ### The sequence with a context switch (rules R311, R341) -/

section
variable {s u v : State} {id : Byte} {ps pl : Nat}

/-- The switch of an INTR of which step 1 left `u`: what it leaves has RIP at the next address, and the sequence goes on
from there, or the CPU halts. -/
theorem exec_intr_switch (hM : s.params.wf = true) (hp : intrPrepare id s = .ok () u) (ht : u.tasksOn = true)
    (hplaces : taskPlaces u (u.reg .rct) (u.reg .rbt) ps pl) (hheld : slotsHeld u pl baseControl) :
    let next := nextAddress s (.intr id)
    ∃ v, Switched [.rip] u ps pl next v ∧ v.reg .rip = next ∧
      (intrFault s id = none → exec (.intr id) s =
        .next (if baseLevel1 u ps pl next then switchHalted ⟨.machineCheck, none⟩ v
          else intrHandler id (intrRoutine id v))) := by
  intro next
  have hparams : u.params = s.params := intrPrepare_params hp
  have hnext : fits u.params next = true := hparams ▸ fits_toWord _ _
  obtain ⟨hrip, -, -⟩ := setRip_ends hnext
  have ht' : (u.setReg .rip next).tasksOn = true := ht
  obtain ⟨v, hsw, henter⟩ := enterBase_placed (s := u.setReg .rip next) (hparams ▸ hM)
    (taskPlaces_setReg next (by decide) hplaces) hheld next
  refine ⟨v, (hsw.mono (List.nil_subset _)).of_setRip List.mem_cons_self,
    (hsw.frame.regs .rip (by decide)).trans hrip, fun hf => ?_⟩
  rw [exec_intr_granted hf, intrSequence, hp, Res.bind_ok, switchToBase, if_pos ht', henter]
  simp only [baseLevel1, savedMemory_setRip, State.setReg_params]
  split
  · exact finish_machineCheck _ _
  · rfl

/-- The routine of the architecture's own interrupt finds the registers the switch left, and leaves them. -/
theorem Switched.archRoutine {t : State} {w : Word} (h : Switched [.rip] u ps pl w v) (hr : ArchRoutine id v t) :
    Switched [.rip] { u with vector := t.vector, timers := t.timers, halted := t.halted } ps pl w t ∧
      ∀ q, t.reg q = v.reg q := by
  have hregs (q : Reg) : t.reg q = v.reg q := by rw [hr.rest]; rfl
  have hmem : t.mem = v.mem := by rw [hr.rest]
  refine ⟨⟨hmem.trans h.mem, fun q hq => (hregs q).trans (h.base q hq),
    ⟨fun q hq => (hregs q).trans (h.frame.regs q hq), fun a ha => ?_, ?_, rfl, rfl, ?_, rfl, ?_⟩, ?_⟩, hregs⟩
  · rw [hmem]
    exact h.frame.mem a ha
  · rw [hr.rest]
    exact h.frame.params
  · rw [hr.rest]
    exact h.frame.pending
  · rw [hr.rest]
    exact h.frame.world
  · exact List.subset_nil.mp (h.cache ▸ hr.cache)

/-- The entry that INTR 0x01 writes, the registers being those before the switch. -/
theorem intrRoutine_vector_getElem? (h : id ∈ archSoftwareIds) (hp : intrPrepare id s = .ok () u)
    (hv : v.vector = u.vector) (hr : ∀ q ∈ [Reg.rgp1, .rgp2, .rgp3], v.reg q = u.reg q) (k : Nat) :
    (intrRoutine id v).vector[k]? = if id = 0x01 ∧ k + 1 = (u.reg .rgp1).toNat
      then some ⟨u.reg .rgp2, u.reg .rgp3⟩ else u.vector[k]? := by
  by_cases hid : id = 0x01
  · subst hid
    obtain ⟨rfl, h1, h127, -⟩ := intrPrepare_vector_ok.mp hp
    rw [intrRoutine_vector, hr .rgp1 (by decide), hr .rgp2 (by decide), hr .rgp3 (by decide), hv,
      Vector.getElem?_setIfInBounds, if_pos (show (u.reg .rgp1).toNat - 1 < 127 by omega)]
    simp only [true_and]
    exact if_congr (by omega) rfl rfl
  · rw [(intrRoutine_arch h v).vector hid, hv, if_neg fun hk => hid hk.1]

/-- The timer that INTR 0x0F arms, the registers being those before the switch. -/
theorem intrRoutine_timers_getElem? {g : Granularity} (hp : intrPrepare 0x0F s = .ok () u)
    (hg : granularityOf (u.reg .rgp2) = some g) (ht : v.timers = u.timers)
    (hr : ∀ q ∈ [Reg.rgp1, .rgp2, .rgp3], v.reg q = u.reg q) (k : Nat) :
    (intrRoutine 0x0F v).timers[k]? = if k = (u.reg .rgp1).toNat then some (some ⟨g, u.reg .rgp3⟩)
      else u.timers[k]? := by
  obtain ⟨rfl, h7, -⟩ := intrPrepare_timer_ok.mp hp
  rw [intrRoutine_timer v (hr .rgp2 (by decide) ▸ hg), hr .rgp1 (by decide), hr .rgp3 (by decide), ht,
    Vector.getElem?_setIfInBounds, if_pos (show (u.reg .rgp1).toNat < 8 by omega)]
  simp only [eq_comm]

/-- Step 1 of a declared interrupt goes on where its routine raises no fault, and changes nothing. -/
theorem intrPrepare_declared_ok (hd : declared s .software id) (hp : intrPrepare id s = .ok () u) : u = s := by
  rw [intrPrepare_declared hd, routineCheck] at hp
  split at hp
  · cases hp
  · cases hp
    rfl

end

/-- Settles O41: the sequence goes on from the state that the context switch leaves. -/
theorem archInterruptSwitchesTask : Obligations.ArchInterruptSwitchesTask := by
  intro s u id ps pl hM hl hp ht hplaces hheld next
  obtain ⟨v, hsw, hrip, hexec⟩ := exec_intr_switch hM hp ht hplaces hheld
  refine ⟨fun hid => ?_, ?_, fun hid hbase => ?_, fun e hd hv hf hbase => ?_, fun hf hbase => ?_⟩
  · simp only [List.mem_cons, List.not_mem_nil, or_false] at hid
    obtain rfl | rfl | rfl | rfl := hid
    · exact (intrPrepare_vector_ok.mp hp).1
    · cases hp
      rfl
    · cases hp
      rfl
    · exact (intrPrepare_timer_ok.mp hp).1
  · rintro rfl
    exact (intrPrepare_display_ok.mp hp).2
  · have hroutine := intrRoutine_arch hid v
    obtain ⟨hswitched, hregs⟩ := hsw.archRoutine hroutine
    have hgp : ∀ q ∈ [Reg.rgp1, .rgp2, .rgp3], v.reg q = u.reg q := fun q hq =>
      hsw.frame.regs q (by revert q; decide)
    refine ⟨intrRoutine id v, ?_, (hregs .rip).trans hrip, hswitched, ?_,
      intrRoutine_vector_getElem? hid hp hsw.frame.vector hgp,
      fun hne => (hroutine.timers hne).trans hsw.frame.timers, ?_⟩
    · rw [hexec (intrFault_arch hid hl), if_neg hbase, intrHandler_arch hid]
    · rw [hroutine.halted, hsw.frame.halted]
    · rintro g rfl hg
      exact intrRoutine_timers_getElem? hp (granularityOf_eq_some.mpr hg) hsw.frame.timers hgp
  · obtain rfl := intrPrepare_declared_ok hd hp
    have h1 : 1 ≤ id.toNat := le_trans (by decide) hd.1
    have hruns := applyRoutine_runs u.world.routine v
    have hdv : declared v .software id := by rwa [declared, hsw.frame.params]
    have hdt : declared (applyRoutine u.world.routine v) .software id := by rwa [declared, hruns.frame.params]
    have hvector := hruns.frame.vector.trans hsw.frame.vector
    have hparams := hruns.frame.params.trans hsw.frame.params
    refine ⟨rfl, v, enterHandler id (applyRoutine u.world.routine v), hsw, ?_, hruns.enterHandler id, ?_⟩
    · rw [hexec (intrFault_declared hd hl), if_neg hbase, intrRoutine_declared hdv, hsw.frame.world,
        intrHandler_declared hdt]
    · rw [enterHandler_rip h1 (hvector ▸ hv) (hparams ▸ hf), applyRoutine_rip, hrip]
  · refine ⟨switchHalted ⟨.machineCheck, none⟩ v, ?_, machineChecked_switchHalted _ _⟩
    rw [hexec hf, if_pos hbase]

end Sys2Proof.Machine

/-! SUPPORT. INTR 0x0B, the Storage I/O interrupt: its checks, the addresses it reaches in memory, and what a transfer,
or one that fails, leaves (rules R326 to R328). -/

namespace Sys2Proof.Machine

/-! ### The operation and its device (rules R326, R327) -/

/-- The flags of RGP1 do not select one operation, or an undefined bit is set. -/
abbrev storageFlagsWrong (g : Word) : Prop := g.getLsbD 16 = g.getLsbD 17 ∨ 2 ^ 19 ≤ g.toNat

theorem storageFlagsBad_iff (g : Word) : storageFlagsBad g = true ↔ storageFlagsWrong g := by
  have hupper : bitsFrom g 19 ≠ 0 ↔ 2 ^ 19 ≤ g.toNat := by
    rw [bitsFrom]
    omega
  rw [storageFlagsBad, Bool.or_eq_true, decide_eq_true_eq, decide_eq_true_eq, hupper]

/-- Flags that select one of the two operations are not wrong. -/
theorem not_storageFlagsWrong {g : Word} {b : Bool} (h16 : g.getLsbD 16 = b) (h17 : g.getLsbD 17 = !b)
    (hg : g.toNat < 2 ^ 19) : ¬storageFlagsWrong g := by
  rintro (h | h)
  · rw [h16, h17] at h
    exact Bool.not_ne_self b h.symm
  · omega

theorem storageOffset_eq (s : State) : storageOffset s =
    (if s.params.variant = .leg32 ∧ (s.reg .rgp1).getLsbD 18 = true then (s.reg .rgp5).toNat * 2 ^ 32 else 0) +
      (s.reg .rgp2).toNat := by
  unfold storageOffset
  cases s.params.variant with
  | leg32 => cases (s.reg .rgp1).getLsbD 18 <;> simp
  | leg64 => simp

/-- The access to memory of a transfer: a read of the device writes memory. -/
abbrev storageAccess (s : State) : Access := if (s.reg .rgp1).getLsbD 16 = true then .write else .read

/-- The device with the Storage ID in bits 15:0 of RGP1 (rule R326). -/
abbrev storageFound (s : State) : Option StorageDevice :=
  s.world.storage.find? fun x => x.id = BitVec.ofNat 16 (s.reg .rgp1).toNat

section
variable {s u s1 : State} {d : StorageDevice} {base len : Nat} {acc : Access} {addrs : List Nat} {tr : Trap}

theorem intrPrepare_storage_bad (h : storageFlagsWrong (s.reg .rgp1) ∨ storageFound s = none) :
    intrPrepare 0x0B s = .raise ⟨.badOperationValue, some 0x0B⟩ s := by
  change storageIo s = _
  by_cases hbad : storageFlagsBad (s.reg .rgp1) = true
  · exact if_pos hbad
  · have hnone : findDevice s.world ((s.reg .rgp1).setWidth 16) = none :=
      h.resolve_left ((storageFlagsBad_iff _).not.mp hbad)
    rw [storageIo, if_neg hbad, hnone]
    rfl

/-- With the checks of the flags and of the Storage ID passed, step 1 is the transfer. -/
theorem intrPrepare_storage (hflags : ¬storageFlagsWrong (s.reg .rgp1)) (hfound : storageFound s = some d) :
    intrPrepare 0x0B s =
      (marked 0x0B (storageAddresses (storageAccess s) (s.reg .rgp4).toNat (s.reg .rgp3).toNat s)).bind
        fun addrs s1 => storageTransfer ((s.reg .rgp1).getLsbD 16) d addrs s1 := by
  have hfound' : findDevice s.world ((s.reg .rgp1).setWidth 16) = some d := hfound
  change storageIo s = _
  rw [storageIo, if_neg ((storageFlagsBad_iff _).not.mpr hflags), hfound']

theorem storageFound_id (h : storageFound s = some d) :
    s.world.storage.find? (fun x => x.id = d.id) = some d := by
  have hid : d.id = BitVec.ofNat 16 (s.reg .rgp1).toNat := by
    simpa using List.find?_some h
  rw [hid]
  exact h

/-! ### The addresses of a transfer (rule R327) -/

/-- An address space that is not supplied is refused, whatever the length is (U24). -/
theorem storageAddresses_refuse (hp : s.pagingOn = true) (hs : s.params.storageSpace = none) :
    storageAddresses acc base len s = .refuse .storageAddressSpace := by
  rw [storageAddresses, if_pos (by rw [hp, hs]; rfl)]

theorem storageAddresses_zero (h : s.pagingOn = true → s.params.storageSpace ≠ none) :
    storageAddresses acc base 0 s = .ok [] s := by
  rw [storageAddresses, if_neg (by simpa using h), if_pos rfl]

/-- A range of physical memory lies in it as a whole. -/
theorem storageAddresses_physical (h : s.pagingOn = false ∨ s.params.storageSpace = some .physical) (hlen : 0 < len) :
    storageAddresses acc base len s =
      if base + len ≤ 2 ^ s.params.xlen ∧ inMemory s.params base len = true then .ok (List.range' base len) s
      else raiseFault .badMemoryReference s := by
  have hsupplied : ¬(s.pagingOn && s.params.storageSpace = none) = true := by rcases h with h | h <;> simp [h]
  have hlogical : ¬(s.pagingOn && s.params.storageSpace = some .logical) = true := by
    rcases h with h | h <;> simp [h]
  rw [storageAddresses, if_neg hsupplied, if_neg (by omega), if_neg hlogical]
  by_cases htop : 2 ^ s.params.xlen < base + len
  · rw [if_pos htop, if_neg (by omega)]
  · rw [if_neg htop]
    exact if_congr (iff_and_self.mpr fun _ => by omega) rfl rfl

/-- A range of logical addresses is resolved byte by byte. -/
theorem storageAddresses_logical (hp : s.pagingOn = true) (hs : s.params.storageSpace = some .logical)
    (hlen : 0 < len) : storageAddresses acc base len s =
      if 2 ^ s.params.xlen < base + len then raiseFault .badMemoryReference s else resolveBytes acc len base s := by
  have hlogical : (s.pagingOn && s.params.storageSpace = some .logical) = true := by simp [hp, hs]
  rw [storageAddresses, if_neg (by simp [hs]), if_neg (by omega), if_pos hlogical]

/-- The bytes a transfer reaches are where `storagePlaces` says, and reaching them changes `hidden` only. -/
theorem storageAddresses_placed (hM : s.params.wf = true) (h : storagePlaces s acc base len addrs s1) :
    storageAddresses acc base len s = .ok addrs s1 ∧ addrs.length = len ∧ ∃ g, s1 = { s with hidden := g } := by
  have hok : storageAddresses acc base len s = .ok addrs s1 := by
    obtain ⟨rfl, hspace, rfl, rfl⟩ | ⟨hspace, hlen, hin, rfl, rfl⟩ | ⟨hp, hspace, hlen, htop, hresolve⟩ := h
    · exact storageAddresses_zero hspace
    · simp only [Params.wf, Bool.and_eq_true, decide_eq_true_eq] at hM
      have hmem := inMemory_iff.mp hin
      rw [storageAddresses_physical hspace hlen, if_pos ⟨by omega, hin⟩]
    · rw [storageAddresses_logical hp hspace hlen, if_neg (by omega), hresolve]
  obtain ⟨hsame, hlen, -⟩ := storageAddresses_ok hok
  exact ⟨hok, hlen, s1.hidden, hsame⟩

/-- A byte that does not resolve stops the operation with its fault, marked. -/
theorem exec_intr_storage_raise (hl : s.level1 = false) (hflags : ¬storageFlagsWrong (s.reg .rgp1))
    (hfound : storageFound s = some d)
    (h : storageAddresses (storageAccess s) (s.reg .rgp4).toNat (s.reg .rgp3).toNat s = .raise tr s1) :
    exec (.intr 0x0B) s = faultEntry ⟨tr.fault, some 0x0B⟩ s1 := by
  refine exec_intr_raise (by decide) hl ?_
  rw [intrPrepare_storage hflags hfound, h]
  rfl

theorem exec_intr_storage_refuse {r : Refusal} (hl : s.level1 = false) (hflags : ¬storageFlagsWrong (s.reg .rgp1))
    (hfound : storageFound s = some d)
    (h : storageAddresses (storageAccess s) (s.reg .rgp4).toNat (s.reg .rgp3).toNat s = .refuse r) :
    exec (.intr 0x0B) s = .refused r := by
  refine exec_intr_refuse (by decide) hl ?_
  rw [intrPrepare_storage hflags hfound, h]
  rfl

/-- With the bytes of the range resolved, step 1 is what is transferred. -/
theorem intrPrepare_storage_placed (hM : s.params.wf = true) (hflags : ¬storageFlagsWrong (s.reg .rgp1))
    (hfound : storageFound s = some d)
    (hplaces : storagePlaces s (storageAccess s) (s.reg .rgp4).toNat (s.reg .rgp3).toNat addrs s1) :
    intrPrepare 0x0B s = storageTransfer ((s.reg .rgp1).getLsbD 16) d addrs s1 := by
  rw [intrPrepare_storage hflags hfound, (storageAddresses_placed hM hplaces).1]
  rfl

/-- INTR 0x0B has no internal routine: the transfer is done in step 1 (log entry 16). -/
theorem exec_intr_storage_tasksOff (hl : s.level1 = false) (hp : intrPrepare 0x0B s = .ok () u)
    (ht : u.tasksOn = false) : exec (.intr 0x0B) s = .next (u.setReg .rip (nextAddress s (.intr 0x0B))) := by
  rw [exec_intr_arch_tasksOff (by decide) hl hp ht, intrRoutine_storage]

end

/-! ### The transfer (rule R328) -/

/-- A state with other storage devices. -/
abbrev State.withStorage (s : State) (ds : List StorageDevice) : State :=
  { s with world := { s.world with storage := ds } }

section
variable {s : State} {d : StorageDevice} {addrs : List Nat}

/-- A device whose bytes are replaced by what they are. -/
theorem setDevice_self {id : BitVec 16} {ds : List StorageDevice} (h : ds.find? (fun x => x.id = id) = some d) :
    setDevice id d.bytes ds = ds := by
  induction ds with
  | nil => rfl
  | cons x xs ih =>
    rw [setDevice]
    by_cases hx : x.id = id
    · rw [List.find?_cons_of_pos (by simpa using hx)] at h
      cases h
      rw [if_pos hx]
    · rw [List.find?_cons_of_neg (by simpa using hx)] at h
      rw [if_neg hx, ih h]

theorem storageTransfer_toMemory (hd : s.world.deviceFails = false)
    (hfits : storageOffset s + addrs.length ≤ d.bytes.length) : storageTransfer true d addrs s =
      .ok () { s with mem := s.mem.writeAll addrs ((d.bytes.drop (storageOffset s)).take addrs.length) } := by
  simp only [storageTransfer]
  by_cases hlen : addrs.length = 0
  · rw [if_pos hlen, List.length_eq_zero_iff.mp hlen]
    rfl
  · rw [if_neg hlen, if_neg (by simpa [hd] using hfits)]
    rfl

theorem storageTransfer_toDevice {bs : List Byte} (hfind : s.world.storage.find? (fun x => x.id = d.id) = some d)
    (hd : s.world.deviceFails = false) (hb : addrs.map s.mem.read? = bs.map some)
    (hfits : storageOffset s + addrs.length ≤ d.bytes.length) : storageTransfer false d addrs s =
      .ok () (s.withStorage (setDevice d.id
        (d.bytes.take (storageOffset s) ++ bs ++ d.bytes.drop (storageOffset s + addrs.length)) s.world.storage)) := by
  simp only [storageTransfer]
  by_cases hlen : addrs.length = 0
  · obtain rfl := List.length_eq_zero_iff.mp hlen
    obtain rfl := List.map_eq_nil_iff.mp hb.symm
    rw [if_pos hlen, List.append_nil, List.length_nil, Nat.add_zero, List.take_append_drop, setDevice_self hfind]
  · rw [if_neg hlen, if_neg (by simpa [hd] using hfits), if_neg Bool.false_ne_true,
      readAll_eq_ok.mpr ⟨rfl, hb⟩]
    rfl

/-- A transfer that fails, on a failing device or past the end of one, is marked (rule R316). -/
theorem storageTransfer_fails (b : Bool) (hlen : 0 < addrs.length)
    (h : s.world.deviceFails = true ∨ d.bytes.length < storageOffset s + addrs.length) :
    storageTransfer b d addrs s = .raise ⟨.inputOutput, some 0x0B⟩ (storageFailed b d addrs s) := by
  simp only [storageTransfer]
  rw [if_neg (by omega), if_pos (by simpa using h)]
  rfl

end

/-- The page cache and the free choices are in no frame. -/
theorem Frame.withHidden {changed : List Reg} {stored : List Nat} {s t : State} (h : Frame changed stored s t)
    (g : Hidden) : Frame changed stored s { t with hidden := g } := { h with }

theorem frame_writeAll (s : State) (addrs : List Nat) (bs : List Byte) :
    Frame [] addrs s { s with mem := s.mem.writeAll addrs bs } :=
  { Frame.same [] addrs s with mem := fun _ ha => Memory.read?_writeAll_other s.mem addrs bs ha }

/-- Settles O44: step 1 writes the device's bytes where the range resolves. -/
theorem intrStorageRead : Obligations.IntrStorageRead := by
  intro s s1 d addrs g len off hM hl hd h16 h17 hg hfound hplaces hfits
  have hacc : storageAccess s = .write := if_pos h16
  rw [← hacc] at hplaces
  obtain ⟨-, hlen, h, rfl⟩ := storageAddresses_placed hM hplaces
  have hoff : storageOffset s = off := storageOffset_eq s
  have htransfer := storageTransfer_toMemory (s := { s with hidden := h }) (addrs := addrs) hd
    (show storageOffset s + addrs.length ≤ d.bytes.length by omega)
  have hprepare := intrPrepare_storage_placed hM (not_storageFlagsWrong h16 h17 hg) hfound hplaces
  rw [h16, htransfer] at hprepare
  refine ⟨_, hprepare, fun hnodup => ?_, (frame_writeAll s addrs _).withHidden h, rfl,
    fun ht => exec_intr_storage_tasksOff hl hprepare ht⟩
  have hcount : addrs.length = ((d.bytes.drop (storageOffset s)).take addrs.length).length := by
    rw [List.length_take, List.length_drop]
    omega
  rw [← hoff, ← hlen]
  exact Memory.map_read?_writeAll s.mem hnodup hcount

/-- Settles O45: step 1 writes the bytes of memory to the device that was found. -/
theorem intrStorageWrite : Obligations.IntrStorageWrite := by
  intro s s1 d addrs bs g len off hM hl hd h16 h17 hg hfound hplaces hb hfits
  have hacc : storageAccess s = .read := if_neg (ne_true_of_eq_false h16)
  rw [← hacc] at hplaces
  obtain ⟨-, hlen, h, rfl⟩ := storageAddresses_placed hM hplaces
  have hoff : storageOffset s = off := storageOffset_eq s
  have hfind := storageFound_id hfound
  have htransfer := storageTransfer_toDevice (s := { s with hidden := h }) (addrs := addrs) hfind hd hb
    (show storageOffset s + addrs.length ≤ d.bytes.length by omega)
  have hprepare := intrPrepare_storage_placed hM (not_storageFlagsWrong h16 h17 hg) hfound hplaces
  rw [h16, htransfer] at hprepare
  refine ⟨_, _, hprepare, setDevice_find hfind, ?_, fun id hid => setDevice_find_other hid, rfl,
    (Frame.same [] [] (s.withStorage _)).withHidden h, rfl, fun ht => exec_intr_storage_tasksOff hl hprepare ht⟩
  rw [← hoff, ← hlen]
  rfl

/-! ### A transfer that fails (rule R328, U25) -/

theorem residueOnDevice_length (draw off len : Nat) (bytes : List Byte) :
    (residueOnDevice draw off len bytes).length = bytes.length := by
  rw [residueOnDevice, List.length_map, List.length_range']

/-- Outside the target range the device keeps its bytes, whatever the free values are. -/
theorem residueOnDevice_getElem? (draw : Nat) {off len k : Nat} (bytes : List Byte) (hk : k < off ∨ off + len ≤ k) :
    (residueOnDevice draw off len bytes)[k]? = bytes[k]? := by
  by_cases hlt : k < bytes.length
  · rw [residueOnDevice, List.getElem?_map, List.getElem?_range' hlt, Option.map_some, Nat.zero_add, Nat.one_mul,
      if_neg (by omega), List.getD_eq_getElem?_getD, List.getElem?_eq_getElem hlt]
    rfl
  · rw [List.getElem?_eq_none (by rw [residueOnDevice_length]; omega), List.getElem?_eq_none (by omega)]

/-- A failed read leaves free bytes in the target range of memory. -/
theorem storageFailed_toMemory (d : StorageDevice) (addrs : List Nat) (s : State) : storageFailed true d addrs s =
    drawOne { s with mem := s.mem.writeAll addrs (residueBytes s.hidden.draws addrs.length) } := rfl

/-- A failed write leaves free bytes in the target range of its device. -/
theorem storageFailed_toDevice (d : StorageDevice) (addrs : List Nat) (s : State) :
    storageFailed false d addrs s = drawOne (s.withStorage (setDevice d.id
      (residueOnDevice s.hidden.draws (storageOffset s) addrs.length d.bytes) s.world.storage)) := rfl

theorem storageFailed_cache (b : Bool) (d : StorageDevice) (addrs : List Nat) (s : State) :
    (storageFailed b d addrs s).hidden.cache = s.hidden.cache := by
  cases b <;> rfl

/-- Settles O46: the checks in their order, each with its fault or its refusal, and what a failed transfer leaves. -/
theorem intrStorageFaults : Obligations.IntrStorageFaults := by
  intro s hl g base len off acc badFlags found
  refine ⟨fun h => exec_intr_raise (by decide) hl (intrPrepare_storage_bad h), fun d hflags hfound => ?_⟩
  refine ⟨fun hp hs => ?_, fun hlen hspace hout => ?_, fun hlen hp hs htop => ?_, fun tr s1 hp hs htop hresolve => ?_,
    fun addrs s1 hM hlen hplaces hfails => ?_⟩
  · exact exec_intr_storage_refuse hl hflags hfound (storageAddresses_refuse hp hs)
  · refine exec_intr_storage_raise (tr := ⟨.badMemoryReference, none⟩) hl hflags hfound
      ((storageAddresses_physical hspace hlen).trans (if_neg ?_))
    rw [inMemory_iff]
    omega
  · exact exec_intr_storage_raise (tr := ⟨.badMemoryReference, none⟩) hl hflags hfound
      ((storageAddresses_logical hp hs hlen).trans (if_pos htop))
  · have hlen : 0 < len := by
      refine Nat.pos_of_ne_zero fun h0 => ?_
      rw [h0] at hresolve
      cases hresolve
    refine ⟨exec_intr_storage_raise hl hflags hfound
      ((storageAddresses_logical hp hs hlen).trans ((if_neg (by omega)).trans hresolve)), ?_⟩
    exact (resolveBytes_all (keepsLookup_sameButHidden s) acc len base (SameButHidden.same s)).of_raise hresolve
  · have hprepare := intrPrepare_storage_placed hM hflags hfound hplaces
    obtain ⟨-, hcount, h, rfl⟩ := storageAddresses_placed hM hplaces
    have hoff : storageOffset s = off := storageOffset_eq s
    have htransfer := storageTransfer_fails (s := { s with hidden := h }) (d := d) (g.getLsbD 16)
      (show 0 < addrs.length by omega) (hfails.imp_right fun hf => show _ < storageOffset s + addrs.length by omega)
    refine ⟨_, exec_intr_raise (by decide) hl (hprepare.trans htransfer), storageFailed_cache _ _ _ _,
      fun h16 => ?_, fun h16 => ?_⟩
    · rw [h16, storageFailed_toMemory]
      exact (frame_writeAll s addrs _).withHidden _
    · rw [h16, storageFailed_toDevice]
      refine ⟨rfl, (Frame.same [] [] (s.withStorage _)).withHidden _, fun id hid => setDevice_find_other hid,
        _, setDevice_find (storageFound_id hfound), residueOnDevice_length _ _ _ _, fun k hk => ?_⟩
      refine residueOnDevice_getElem? _ d.bytes ?_
      change k < storageOffset s ∨ storageOffset s + addrs.length ≤ k
      omega

end Sys2Proof.Machine
